-- ==== Sys2Proof/Word.lean ====
section
/-! DEFINITION. The words of the machine: 32-bit registers, bytes, and bit-strings (00_scope.md R7). -/

namespace Sys2Proof

/-- A host-visible register or a command word: 32 bits, bit 0 least significant (R7). -/
abbrev Word := BitVec 32

/-- A byte of a buffer; also a Symbol, "a single byte value (0–255)" (R9, R70). -/
abbrev Byte := BitVec 8

/-- A bit-string, first bit first (R7). -/
abbrev Bits := List Bool

end Sys2Proof
end

