-- ==== Sys2Proof/Config.lean ====
section
/-! DEFINITION. What an implementation fixes (the parameters of 00_scope.md R5) and the free values: the points
that 93_implementation_defined.md leaves at `any value`. A free value is a constant without a body, so nothing
can be proved about which value it is. -/

namespace Sys2Proof

/-- The strict total order `tie` on arena indices among queue entries of equal frequency (R5, R102).
`byRank r` removes first the index k with the least `r[k]`. -/
inductive Tie where
  | ascending
  | descending
  | byRank (ranks : List Nat)
deriving DecidableEq, Repr

/-- The parameters a model takes (R5); `CNT_W`, `NODE_MAX` and `CODE_MAX` are fixed and are not here. -/
structure Params where
  /-- `IBUF_CAP`, 1 to 2^24, default 65536. -/
  ibufCap : Nat
  /-- `OBUF_CAP`, 2 to 2^24, default `IBUF_CAP` + 2. -/
  obufCap : Nat
  /-- the tie-break order, default ascending arena index. -/
  tie : Tie
deriving DecidableEq, Repr

/-- The default parameters of R5. -/
def defaultParams : Params := { ibufCap := 65536, obufCap := 65538, tie := .ascending }

/-- What a byte of `IBUF` that the host has not written since reset is read as (R188, X3): a free value for each
draw and index. DESIGN CHOICE (log 4), safe. -/
opaque Config.freeIbuf : Nat → Nat → Byte

/-- What an unspecified byte of `OBUF` is read as (R31, R157, X1, X2, X5): a free value for each draw and index.
DESIGN CHOICE (log 5), safe. -/
opaque Config.freeObuf : Nat → Nat → Byte

/-- `h_rdata` of a read made while `BUSY` = 1 (R186, X6): a free value for each draw and each position among the
answers of the step. DESIGN CHOICE (log 6), safe. -/
opaque Config.freeBusyWord : Nat → Nat → Word

/-- `h_err` of an access made while `BUSY` = 1 for which the spec states no answer (R186). DESIGN CHOICE (log 6), safe. -/
opaque Config.freeBusyError : Nat → Nat → Bool

/-- How many early transfers meet a core that is still busy with the command accepted at this draw: the open
parameter `CmdLatency` (R191, X7) counted in transfers. DESIGN CHOICE (log 3), safe. -/
opaque Config.cmdLatency : Nat → Nat

end Sys2Proof
end

