-- ==== Sys2Proof/Syntax.lean ====
section
/-! DEFINITION. The commands, one constructor per row of spec/opcode_table.json (30_encoding.md R60, R62). No command
has an operand (R65). -/

namespace Sys2Proof

/-- A command of the core. -/
inductive Instr where
  /-- Unit 1, the frequency analyzer (R91). -/
  | analyze
  /-- Unit 2, the tree builder (R101). -/
  | build
  /-- Unit 3, the code table generator (R111). -/
  | gencodes
  /-- Unit 4, the bit packer (R121). -/
  | pack
  /-- Unit 5, the bit unpacker (R131). -/
  | unpack
  /-- The command interface's own command (R140). -/
  | clrerr
deriving DecidableEq, Repr

end Sys2Proof
end

