-- ==== Sys2Proof/WellFormed.lean ====
section
/-! DEFINITION. Well-formed terms. A command has no operand, field or immediate (R65, R66), so there is nothing to check
on one; the parameters of R5 have legal ranges, checked here. -/

namespace Sys2Proof

/-- Every command is well formed: R65 gives none an operand that could be out of range. -/
def Instr.wellFormed (i : Instr) : Bool :=
  match i with
  | .analyze | .build | .gencodes | .pack | .unpack | .clrerr => true

/-- `IBUF_CAP` is 1 to 2^24 (R5). -/
def Params.ibufCapOk (p : Params) : Bool := 1 ≤ p.ibufCap && p.ibufCap ≤ 2 ^ 24

/-- `OBUF_CAP` is 2 to 2^24 (R5). -/
def Params.obufCapOk (p : Params) : Bool := 2 ≤ p.obufCap && p.obufCap ≤ 2 ^ 24

/-- `tie` is a strict total order on the 511 arena indices (R5, R102): a rank list gives each index its own rank. -/
def Params.tieOk (p : Params) : Bool :=
  match p.tie with
  | .ascending | .descending => true
  | .byRank r => r.length == 511 && decide r.Nodup

/-- The parameters are in the ranges of R5. -/
def Params.wellFormed (p : Params) : Bool := p.ibufCapOk && p.obufCapOk && p.tieOk

end Sys2Proof
end

