-- ==== Sys2Proof/Decode.lean ====
section
/-! DEFINITION. The command word (30_encoding.md R61 to R66): `OPC` in bits 7:0, `RSV` in bits 31:8. The word arrives whole
on `h_wdata` and is stored nowhere (R60), so there is no byte order and no longer form. -/

namespace Sys2Proof

/-- Why a word is illegal (R64). -/
inductive Illegal where
  /-- A bit of `RSV` is set, "even with a legal `OPC`". -/
  | reservedBitSet
  /-- `OPC` is `0x00` or `0x07` to `0xFF`. -/
  | noSuchOpcode
deriving DecidableEq, Repr

/-- The field `OPC`, bits 7:0 (R61). -/
def opcField (w : Word) : BitVec 8 := w.extractLsb' 0 8

/-- The field `RSV`, bits 31:8 (R61). -/
def rsvField (w : Word) : BitVec 24 := w.extractLsb' 8 24

/-- The opcode map of R62. -/
def opcodeMap : List (BitVec 8 × Instr) :=
  [(0x01, .analyze), (0x02, .build), (0x03, .gencodes), (0x04, .pack), (0x05, .unpack), (0x06, .clrerr)]

/-- The command a word encodes, or why it is illegal (R62, R64). -/
def decode (w : Word) : Except Illegal Instr :=
  if rsvField w ≠ 0 then .error .reservedBitSet
  else
    match opcodeMap.lookup (opcField w) with
    | some i => .ok i
    | none => .error .noSuchOpcode

/-- The opcode number of a command (R62). -/
def opcodeOf (i : Instr) : BitVec 8 :=
  match i with
  | .analyze => 0x01
  | .build => 0x02
  | .gencodes => 0x03
  | .pack => 0x04
  | .unpack => 0x05
  | .clrerr => 0x06

/-- The word of a command: `RSV` zero above `OPC` (R61). -/
def encode (i : Instr) : Word := (0 : BitVec 24) ++ opcodeOf i

/-- The word a command of `nbits` bits with value `w` is presented as: every bit above `nbits` is 0. -/
def tableWord (nbits w : Nat) : Word := BitVec.ofNat 32 (w % 2 ^ nbits)

/-- What the decoder reads from a word numbered as spec/opcode_table.json numbers its bits. -/
def decodeTableWord (nbits w : Nat) : Option Instr :=
  match decode (tableWord nbits w) with
  | .ok i => some i
  | .error _ => none

end Sys2Proof
end

