-- ==== Sys2Proof/Machine/State.lean ====
section
/-! DEFINITION. The state of the core (10_state.md R10), the reasons a step can stop, and the state after reset (R35). -/

namespace Sys2Proof.Machine

/-- The bytes of a buffer that hold a value: (index, byte) pairs, indices strictly rising. An index not listed holds no
value of its own; what it is read as is `ibufByte` and `obufByte` in Ops.lean. -/
abbrev Memory := List Host.Cell

/-- The error kinds of 60_exceptions.md R150. -/
inductive ErrorKind where
  | inputUnavailable
  | emptyAlphabet
  | malformedStream
  | outputUnavailable
  | illegalCommand
  | noTree
  | missingCode
deriving DecidableEq, Repr

/-- A TreeNode (R27): a leaf "holds a Symbol and its frequency", an internal node "holds the summed frequency of its
two children and owns exactly two child nodes, no symbol". The children are arena indices of 9 bits. -/
inductive TreeNode where
  | leaf (sym : Byte) (freq : Word)
  | internal (freq : Word) (left right : BitVec 9)
deriving DecidableEq, Repr

/-- A transfer the host presents on the port (20_memory.md R41): `h_write`, `h_word`, `h_addr`, `h_wdata`. -/
structure Transfer where
  write : Bool
  word : Bool
  addr : Word
  wdata : Word
deriving DecidableEq, Repr

/-- The port's answer in the transfer cycle (R41): `h_err`, and `h_rdata` where the transfer is a read. -/
structure Answer where
  err : Bool
  rdata : Option Word
deriving DecidableEq, Repr

/-- What the host does (R8, R41): a transfer once it has seen `BUSY` = 0; a transfer presented EARLY, without having
seen `BUSY` = 0 (the hazard of 70_reset_and_hazards.md R186); a clock edge with `rst` = 1 (R180). -/
inductive HostAct where
  | access (t : Transfer)
  | early (t : Transfer)
  | rst
deriving DecidableEq, Repr

/-- Why the model stops a run. -/
inductive Fault where
  /-- Raised by GENCODES alone, when the in-use slots form no tree: a walk from `ROOT` leaves the slots in use or does not
  end. No state reachable from reset is so (R33 (b)), and R111 gives no result there. Safe: the model stops (log 9). -/
  | brokenTree
deriving DecidableEq, Repr

/-- Why the model has no meaning for a command. -/
inductive Refusal where
  /-- Raised by an arm of `exec` whose command has no meaning yet; no arm does. Safe: the model stops. -/
  | notModelled (mnemonic : String)
deriving DecidableEq, Repr

/-- The state. The fields down to `busy` are "the whole architectural state of the core" (R10); the rest are the model's
own (INVENTORY.md, '## State'). -/
structure State where
  /-- `FT`, the frequency table (R26). -/
  ft : Vector Word 256
  /-- `NODE`, the tree arena (R27); slot k is in use if and only if k < `NNODE`. -/
  node : Vector TreeNode 511
  /-- `NNODE`, the number of slots in use, 0 for "no tree" (R21, R27). -/
  nnode : BitVec 9
  /-- `ROOT`, the arena index of the root (R22, R27). -/
  root : BitVec 9
  /-- `CT`, the forward code table (R28). -/
  ct : Vector (Option Bits) 256
  /-- `IBUF`, the bytes the host has written since reset (R30). -/
  ibuf : Memory
  /-- `ILEN` (R18). -/
  ilen : Word
  /-- `OBUF`, the bytes that hold a specified value (R31). -/
  obuf : Memory
  /-- `OLEN` (R19). -/
  olen : Word
  /-- `TBITS` (R23). -/
  tbits : Word
  /-- `ERR`: the first error kind since reset or CLRERR (R17). -/
  err : Option ErrorKind
  /-- `BUSY` (R10, R14). -/
  busy : Bool
  /-- The parameters of R5, constant in every run (log 1). -/
  params : Params
  /-- The number of the next free draw (log 4). -/
  draws : Nat
  /-- The draw that the unspecified bytes of `OBUF` come from, always one taken before `draws` (log 5). -/
  obufDraw : Nat
  /-- What the host does next, oldest first (log 2). -/
  inbox : List HostAct
  /-- The port's answers in the last step, oldest first (log 15). -/
  answers : List Answer
deriving DecidableEq, Repr

/-- The state reset leaves (R35, R180) in a core with parameters `p`, the draw `d` being the first one not yet used. `OBUF` takes
`d`, and the next draw is the one after it, so that the first PACK or UNPACK after reset is a draw of its own (log 5). -/
def State.resetWith (p : Params) (d : Nat) (inbox : List HostAct) : State where
  ft := Vector.replicate 256 0
  node := Vector.replicate 511 (.leaf 0 0)
  nnode := 0
  root := 0
  ct := Vector.replicate 256 none
  ibuf := []
  ilen := 0
  obuf := []
  olen := 0
  tbits := 0
  err := none
  busy := false
  params := p
  draws := d + 1
  obufDraw := d
  inbox := inbox
  answers := []

/-- The machine right after reset (R35), with the default parameters of R5 and no host act waiting. -/
def State.reset : State := State.resetWith defaultParams 0 []

end Sys2Proof.Machine
end

