-- ==== Sys2Proof/Machine/Ops.lean ====
section
/-! DEFINITION. The named operations over the buffers and the registers, and the ONE operation by which a command raises an
error kind (60_exceptions.md R156, R157), with the return from the fault state beside it (R140, R162). -/

namespace Sys2Proof.Machine

/-- The byte a buffer holds at an index, if it holds one. -/
def Memory.read : Memory → Nat → Option Byte
  | [], _ => none
  | (a, b) :: m, i => if i = a then some b else Memory.read m i

/-- The buffer with `b` at index `i`. -/
def Memory.write : Memory → Nat → Byte → Memory
  | [], i, b => [(i, b)]
  | (a, c) :: m, i, b =>
    if i < a then (i, b) :: (a, c) :: m
    else if i = a then (i, b) :: m
    else (a, c) :: Memory.write m i b

/-- The buffer that holds the byte sequence `bs` from index `start` on, in index order (R48), and nothing else. -/
def Memory.ofBytes (start : Nat) : List Byte → Memory
  | [] => []
  | b :: bs => (start, b) :: Memory.ofBytes (start + 1) bs

/-- The canonical form: indices strictly rising. An index not listed holds no value, so no entry can equal it. -/
abbrev Memory.wf (m : Memory) : Prop := m.Pairwise fun x y => x.1 < y.1

/-- The byte read at `IBUF[i]` (R30): what the host wrote, else a free value (R188, X3). -/
def ibufByte (s : State) (i : Nat) : Byte := (Memory.read s.ibuf i).getD (Config.freeIbuf s.draws i)

/-- The byte read at `OBUF[i]` (R31): what PACK or UNPACK wrote, else a free value (X1, X2, X5). -/
def obufByte (s : State) (i : Nat) : Byte := (Memory.read s.obuf i).getD (Config.freeObuf s.obufDraw i)

/-- The next reads of bytes that hold no value are a new draw (log 4). -/
def newDraw (s : State) : State := { s with draws := s.draws + 1 }

/-- `IBUF[i] <- b` by the host (R42). -/
def writeIbuf (s : State) (i : Nat) (b : Byte) : State := newDraw { s with ibuf := Memory.write s.ibuf i b }

/-- `ILEN <- v` by the host (R42); all 32 bits, any value (R18). -/
def writeIlen (s : State) (v : Word) : State := newDraw { s with ilen := v }

/-- The output of PACK and UNPACK: `OBUF[0..OLEN)`, `OLEN` and `TBITS` are written (R121, R131), the bytes at and above
`OLEN` are unspecified (R31): they come from the command's own draw (log 5). -/
def writeOutput (s : State) (bytes : List Byte) (bits : Nat) : State :=
  { s with
    obuf := Memory.ofBytes 0 bytes
    obufDraw := s.draws
    olen := BitVec.ofNat 32 bytes.length
    tbits := BitVec.ofNat 32 bits }

/-- The output after a faulting PACK or UNPACK: `OLEN` = 0, `TBITS` = 0, every byte of `OBUF` unspecified (R157). -/
def clearOutput (s : State) : State := writeOutput s [] 0

/-- What a faulting command leaves (R157): its own destination at its empty value; `none` is command issue. -/
def invalidate (cmd : Option Instr) (s : State) : State :=
  match cmd with
  | none => s
  | some .analyze => { s with ft := Vector.replicate 256 0 }
  | some .build => { s with nnode := 0, root := 0 }
  | some .gencodes => { s with ct := Vector.replicate 256 none }
  | some .pack => clearOutput s
  | some .unpack => clearOutput s
  | some .clrerr => s

/-- The end of a command (R63): `BUSY <- 0`. -/
def complete (s : State) : State := newDraw { s with busy := false }

/-- Fault entry, `raise K` (R156): `ERR` gets the kind, the command's destination is invalidated (R157), `BUSY <- 0`.
Nothing is saved and control goes nowhere. -/
def raise (kind : ErrorKind) (cmd : Option Instr) (s : State) : State :=
  complete { invalidate cmd s with err := some kind }

/-- The return from the fault state (R140, R162): `ERR <- 0` and nothing else. -/
def clearError (s : State) : State := { s with err := none }

/-- Reset (R180): the reset values "whatever it was doing"; the parameters stay, the buffers are a new draw, what the host
does next is the host's own. -/
def applyReset (s : State) : State := State.resetWith s.params (s.draws + 1) s.inbox

/-- The port answers a transfer. -/
def answer (s : State) (a : Answer) : State := { s with answers := s.answers ++ [a] }

end Sys2Proof.Machine
end

