-- ==== Sys2Proof/Machine/Operands.lean ====
section
/-! DEFINITION. The implicit operands of the commands (30_encoding.md R65) and the data encodings of Part B: bit order
(20_memory.md R51), codes (R71), the padded stream (R72, R73), the byte array (R74), the reverse mapping (10_state.md R29). -/

namespace Sys2Proof.Machine

/-- The 256 symbols in ascending order (R70). -/
def symbols : List Byte := (List.range 256).map (BitVec.ofNat 8)

/-- The declared length fits the buffer; otherwise the input is not available (R151). -/
def inputAvailable (s : State) : Bool := s.ilen.toNat ≤ s.params.ibufCap

/-- The input sequence `IBUF[0]`, …, `IBUF[ILEN − 1]` (R18). -/
def inputBytes (s : State) : List Byte := (List.range s.ilen.toNat).map (ibufByte s)

/-- The TreeNode in slot k, if k is in use (R27). -/
def slot (s : State) (k : Nat) : Option TreeNode := if k < s.nnode.toNat then s.node[k]? else none

/-- The code of a symbol, or `none` (R28). -/
def codeOf (ct : Vector (Option Bits) 256) (c : Byte) : Option Bits := ct[c.toNat]

/-- The reverse mapping (R29): the symbol whose whole code is `cand` (R132). The table of every reachable state has at most
one (R33 (c)); where a state had more, the lowest is taken (log 10). -/
def rev (ct : Vector (Option Bits) 256) (cand : Bits) : Option Byte := symbols.find? fun c => codeOf ct c == some cand

/-- `bin8(v)`: the eight bits of a byte, most significant first (R7). -/
def bin8 (b : Byte) : Bits :=
  [b.getLsbD 7, b.getLsbD 6, b.getLsbD 5, b.getLsbD 4, b.getLsbD 3, b.getLsbD 2, b.getLsbD 1, b.getLsbD 0]

/-- `val(b)`: the number whose most significant bit is the first bit (R7). -/
def val (b : Bits) : Nat := b.foldl (fun n x => 2 * n + x.toNat) 0

/-- The bits of a byte sequence in stream order (R51). -/
def bitsOfBytes (bs : List Byte) : Bits := bs.flatMap bin8

/-- Consecutive groups of eight bits, each "to its unsigned integer value" (R74). -/
def bytesOfBits : Bits → List Byte
  | b0 :: b1 :: b2 :: b3 :: b4 :: b5 :: b6 :: b7 :: rest =>
    BitVec.ofNat 8 (val [b0, b1, b2, b3, b4, b5, b6, b7]) :: bytesOfBits rest
  | _ => []

/-- The codes of a byte sequence, concatenated "in original input order" (R72), or `none` if some byte has no code. -/
def concatCodes (ct : Vector (Option Bits) 256) : List Byte → Option Bits
  | [] => some []
  | m :: ms =>
    match codeOf ct m, concatCodes ct ms with
    | some c, some rest => some (c ++ rest)
    | _, _ => none

/-- The padding count, 1 to 8 (R73). -/
def padCount (totalBits : Nat) : Nat := 8 - totalBits % 8

/-- The PaddedBitStream of a code concatenation (R72). -/
def paddedStream (bits : Bits) : Bits :=
  bin8 (BitVec.ofNat 8 (padCount bits.length)) ++ bits ++ List.replicate (padCount bits.length) false

/-- The rank of an arena index in the order `tie`: the least rank is removed first (R102). -/
def tieRank (t : Tie) (k : Nat) : Nat :=
  match t with
  | .ascending => k
  | .descending => 511 - k
  | .byRank r => r.getD k k

end Sys2Proof.Machine
end

