-- ==== Sys2Proof/Machine/Flags.lean ====
section
/-! DEFINITION. The hardware's only flags (10_state.md R14), each a function of other state but `BUSY`, and the status pins. -/

namespace Sys2Proof.Machine

/-- The code of an error kind in `REG.ERR` (60_exceptions.md R150). -/
def errorCode (k : ErrorKind) : BitVec 3 :=
  match k with
  | .inputUnavailable => 1
  | .emptyAlphabet => 2
  | .malformedStream => 3
  | .outputUnavailable => 4
  | .illegalCommand => 5
  | .noTree => 6
  | .missingCode => 7

/-- `ERR`, 0 for no fault recorded (R17, R150). -/
def errField (s : State) : BitVec 3 :=
  match s.err with
  | none => 0
  | some k => errorCode k

/-- `STATUS.FAULT`: 1 if and only if `ERR` ≠ 0 (R14). -/
def faultFlag (s : State) : Bool := s.err.isSome

/-- `STATUS.TREE`: 1 if and only if `NNODE` ≠ 0 (R14). -/
def treeFlag (s : State) : Bool := s.nnode != 0

/-- `STATUS.CODES`: 1 if and only if some symbol has a code (R14). -/
def codesFlag (s : State) : Bool := symbols.any fun c => (codeOf s.ct c).isSome

/-- `REG.STATUS` (R14): `CODES`, `TREE`, `FAULT`, `BUSY` in bits 3 to 0; bits 31:4 read 0. -/
def statusWord (s : State) : Word :=
  (0 : BitVec 28) ++ BitVec.ofBool (codesFlag s) ++ BitVec.ofBool (treeFlag s) ++ BitVec.ofBool (faultFlag s)
    ++ BitVec.ofBool s.busy

/-- The number of distinct symbols in the frequency table, 0 to 256 (R20). -/
def nsym (ft : Vector Word 256) : Nat := symbols.countP fun c => ft[c.toNat] != 0

/-- The pin `busy`, a copy of `STATUS.BUSY` (20_memory.md R41). -/
def pinBusy (s : State) : Bool := s.busy

/-- The pin `fault`, a copy of `STATUS.FAULT` (R41). -/
def pinFault (s : State) : Bool := faultFlag s

end Sys2Proof.Machine
end

