-- ==== Sys2Proof/Machine/Analyzer.lean ====
section
/-! DEFINITION. Unit 1, the frequency analyzer: ANALYZE (40_frequency_analyzer.md R90 to R93). -/

namespace Sys2Proof.Machine

/-- `FT[b] <- FT[b] + 1` (R91). -/
def countByte (ft : Vector Word 256) (b : Byte) : Vector Word 256 := ft.set b.toNat (ft[b.toNat] + 1)

/-- The table of a byte sequence, counted from zero in input order (R91). -/
def countBytes (bs : List Byte) : Vector Word 256 := bs.foldl countByte (Vector.replicate 256 0)

/-- ANALYZE (R91). -/
def execAnalyze (s : State) : Host.Outcome State Fault Refusal :=
  if inputAvailable s then .next (complete { s with ft := countBytes (inputBytes s) })
  else .next (raise .inputUnavailable (some .analyze) s)

end Sys2Proof.Machine
end

