-- ==== Sys2Proof/Machine/BitPacker.lean ====
section
/-! DEFINITION. Unit 4, the bit packer: PACK (43_bit_packer.md R120 to R125). -/

namespace Sys2Proof.Machine

/-- PACK (R121), its checks in the order of R160. -/
def execPack (s : State) : Host.Outcome State Fault Refusal :=
  if inputAvailable s then
    match concatCodes s.ct (inputBytes s) with
    | none => .next (raise .missingCode (some .pack) s)
    | some bits =>
      if (bytesOfBits (paddedStream bits)).length ≤ s.params.obufCap then
        .next (complete (writeOutput s (bytesOfBits (paddedStream bits)) bits.length))
      else .next (raise .outputUnavailable (some .pack) s)
  else .next (raise .inputUnavailable (some .pack) s)

end Sys2Proof.Machine
end

