-- ==== Sys2Proof/Machine/BitUnpacker.lean ====
section
/-! DEFINITION. Unit 5, the bit unpacker: UNPACK (44_bit_unpacker.md R130 to R136). -/

namespace Sys2Proof.Machine

/-- The scan of R131 from the candidate `cand` on: the symbols emitted, and the candidate left at the end. The test is made
after every appended bit (R132). -/
def scanCodes (ct : Vector (Option Bits) 256) : Bits → Bits → List Byte × Bits
  | cand, [] => ([], cand)
  | cand, b :: payload =>
    match rev ct (cand ++ [b]) with
    | some c => (c :: (scanCodes ct [] payload).1, (scanCodes ct [] payload).2)
    | none => scanCodes ct (cand ++ [b]) payload

/-- R131 from the header byte on; `rest` is `IBUF[1..ILEN)`. The header is taken literally (R134). -/
def unpackStream (s : State) (header : Byte) (rest : List Byte) : State :=
  if header.toNat ≤ 8 * rest.length then
    let payloadBits := 8 * rest.length - header.toNat
    let scanned := scanCodes s.ct [] ((bitsOfBytes rest).take payloadBits)
    if scanned.2 = [] then
      if scanned.1.length ≤ s.params.obufCap then complete (writeOutput s scanned.1 payloadBits)
      else raise .outputUnavailable (some .unpack) s
    else raise .malformedStream (some .unpack) s
  else raise .malformedStream (some .unpack) s

/-- UNPACK (R131), its checks in the order of R160. -/
def execUnpack (s : State) : Host.Outcome State Fault Refusal :=
  if inputAvailable s then
    match inputBytes s with
    | [] => .next (raise .malformedStream (some .unpack) s)
    | header :: rest => .next (unpackStream s header rest)
  else .next (raise .inputUnavailable (some .unpack) s)

end Sys2Proof.Machine
end

