-- ==== Sys2Proof/Machine/CodeGenerator.lean ====
section
/-! DEFINITION. Unit 3, the code table generator: GENCODES (42_code_table_generator.md R110 to R114). -/

namespace Sys2Proof.Machine

/-- `walk(k, p)` (R111): the leaves below slot k with their paths, "0" for left, "1" for right; `none` where the walk leaves
the slots in use or goes deeper than `fuel`. -/
def walk (s : State) : Nat → Nat → Bits → Option (List (Byte × Bits))
  | 0, _, _ => none
  | fuel + 1, k, p =>
    match slot s k with
    | none => none
    | some (.leaf c _) => some [(c, p)]
    | some (.internal _ l r) =>
      match walk s fuel l.toNat (p ++ [false]), walk s fuel r.toNat (p ++ [true]) with
      | some xs, some ys => some (xs ++ ys)
      | _, _ => none

/-- The codes of the tree: a single leaf gets "0" (R112), otherwise every leaf its path from `ROOT`. No path of a tree in 511
slots is longer than 510 (R6). -/
def treeCodes (s : State) : Option (List (Byte × Bits)) :=
  match slot s s.root.toNat with
  | none => none
  | some (.leaf c _) => some [(c, [false])]
  | some (.internal _ _ _) => walk s 511 s.root.toNat []

/-- `CT` cleared and then filled (R111). -/
def fillTable (codes : List (Byte × Bits)) : Vector (Option Bits) 256 :=
  codes.foldl (fun ct x => ct.set x.1.toNat (some x.2)) (Vector.replicate 256 none)

/-- GENCODES (R111). It stops only in a state whose slots form no tree, which no run reaches (log 9). -/
def execGencodes (s : State) : Host.Outcome State Fault Refusal :=
  if s.nnode = 0 then .next (raise .noTree (some .gencodes) s)
  else
    match treeCodes s with
    | none => .fault .brokenTree
    | some codes => .next (complete { s with ct := fillTable codes })

end Sys2Proof.Machine
end

