-- ==== Sys2Proof/Machine/Control.lean ====
section
/-! DEFINITION. The command that belongs to no unit: CLRERR (45_control_and_sequences.md R140). -/

namespace Sys2Proof.Machine

/-- CLRERR (R140). -/
def execClrerr (s : State) : Host.Outcome State Fault Refusal := .next (complete (clearError s))

end Sys2Proof.Machine
end

