-- ==== Sys2Proof/Machine/TreeBuilder.lean ====
section
/-! DEFINITION. Unit 2, the tree builder: BUILD (41_tree_builder.md R100 to R106). The queue is working state (10_state.md
R32): the arena indices not yet merged, each beside its frequency. -/

namespace Sys2Proof.Machine

/-- An element of the priority queue: an arena index and `NODE[index].freq`. -/
structure QueueEntry where
  idx : Nat
  freq : Word
deriving DecidableEq, Repr

/-- `freq` of a TreeNode (R27). -/
def nodeFreq (n : TreeNode) : Word :=
  match n with
  | .leaf _ f => f
  | .internal f _ _ => f

/-- The order of removal: by frequency, unsigned (R105), then by `tie` (R101, R102). -/
def removedBefore (tie : Tie) (x y : QueueEntry) : Bool :=
  x.freq.toNat < y.freq.toNat || (x.freq == y.freq && tieRank tie x.idx < tieRank tie y.idx)

/-- The queue's element with the least key, and the queue without it (R101). -/
def takeLeast (tie : Tie) : List QueueEntry → Option (QueueEntry × List QueueEntry)
  | [] => none
  | e :: q =>
    match takeLeast tie q with
    | none => some (e, [])
    | some (m, rest) => if removedBefore tie m e then some (m, e :: rest) else some (e, q)

/-- The leaves, one per present symbol, in ascending symbol order (R101, R102). -/
def leaves (ft : Vector Word 256) : List TreeNode :=
  symbols.filterMap fun c => if ft[c.toNat] = 0 then none else some (.leaf c ft[c.toNat])

/-- The queue of all entries of an arena. -/
def queueOf (arena : List TreeNode) : List QueueEntry :=
  arena.zipIdx.map fun p => { idx := p.2, freq := nodeFreq p.1 }

/-- The internal node made of two removed entries: first removed is the left child (R101). -/
def mergeNode (a b : QueueEntry) : TreeNode :=
  .internal (a.freq + b.freq) (BitVec.ofNat 9 a.idx) (BitVec.ofNat 9 b.idx)

/-- The merge loop (R101), at most `fuel` rounds, on the arena so far and the queue. -/
def mergeLoop (tie : Tie) : Nat → List TreeNode → List QueueEntry → List TreeNode × List QueueEntry
  | 0, arena, q => (arena, q)
  | fuel + 1, arena, q =>
    match takeLeast tie q with
    | none => (arena, q)
    | some (a, q1) =>
      match takeLeast tie q1 with
      | none => (arena, q)
      | some (b, q2) =>
        mergeLoop tie fuel (arena ++ [mergeNode a b]) (q2 ++ [{ idx := arena.length, freq := a.freq + b.freq }])

/-- The arena of a frequency table and the queue the loop leaves; the loop needs one round less than there are leaves. -/
def buildArena (tie : Tie) (ft : Vector Word 256) : List TreeNode × List QueueEntry :=
  mergeLoop tie (leaves ft).length (leaves ft) (queueOf (leaves ft))

/-- `NODE[k] <- …` for the entries of `arena` from slot `k` on; the other slots keep what they hold (R101). -/
def writeSlots (k : Nat) : List TreeNode → Vector TreeNode 511 → Vector TreeNode 511
  | [], v => v
  | n :: arena, v => writeSlots (k + 1) arena (v.setIfInBounds k n)

/-- `ROOT`: "the one element of Q" (R101). -/
def rootIndex (q : List QueueEntry) : Nat :=
  match q with
  | e :: _ => e.idx
  | [] => 0

/-- BUILD (R101). -/
def execBuild (s : State) : Host.Outcome State Fault Refusal :=
  if nsym s.ft = 0 then .next (raise .emptyAlphabet (some .build) s)
  else
    .next (complete { s with
      node := writeSlots 0 (buildArena s.params.tie s.ft).1 s.node
      nnode := BitVec.ofNat 9 (buildArena s.params.tie s.ft).1.length
      root := BitVec.ofNat 9 (rootIndex (buildArena s.params.tie s.ft).2) })

end Sys2Proof.Machine
end

