-- ==== Sys2Proof/Machine/AddressMap.lean ====
section
/-! DEFINITION. The address map of the host port (20_memory.md R40, R43, R44). -/

namespace Sys2Proof.Machine

/-- An element the host can reach (R40): a register, or an element of one of the five other spaces. -/
inductive Location where
  | reg (n : Nat)
  | ft (c : Byte)
  | node (k w : Nat)
  | ct (c : Byte) (w : Nat)
  | ibuf (i : Nat)
  | obuf (i : Nat)
deriving DecidableEq, Repr

/-- The element a 32-bit access at byte address `a` reaches, if any (R43, R44). -/
def wordLocation (a : Nat) : Option Location :=
  if a % 4 ≠ 0 then none
  else if a < 0x40 then some (.reg (a / 4))
  else if 0x1000 ≤ a ∧ a < 0x1400 then some (.ft (BitVec.ofNat 8 ((a - 0x1000) / 4)))
  else if 0x2000 ≤ a ∧ a < 0x2FF8 then some (.node ((a - 0x2000) / 8) ((a - 0x2000) / 4 % 2))
  else if 0x4000 ≤ a ∧ a < 0x8000 then some (.ct (BitVec.ofNat 8 ((a - 0x4000) / 64)) ((a - 0x4000) / 4 % 16))
  else none

/-- The element an 8-bit access at byte address `a` reaches, if any (R43, R44). -/
def byteLocation (p : Params) (a : Nat) : Option Location :=
  if 0x01000000 ≤ a ∧ a < 0x01000000 + p.ibufCap then some (.ibuf (a - 0x01000000))
  else if 0x02000000 ≤ a ∧ a < 0x02000000 + p.obufCap then some (.obuf (a - 0x02000000))
  else none

/-- The element a transfer reaches; `none` is a bus error (R42, R46). -/
def locate (p : Params) (t : Transfer) : Option Location :=
  if t.word then wordLocation t.addr.toNat else byteLocation p t.addr.toNat

/-- The elements the host may write (R42): `CMD`, `ILEN`, the bytes of `IBUF`. -/
def writable (l : Location) : Bool :=
  match l with
  | .reg n => n == 1 || n == 4
  | .ibuf _ => true
  | .ft _ | .node _ _ | .ct _ _ | .obuf _ => false

end Sys2Proof.Machine
end

