-- ==== Sys2Proof/Machine/ReadBack.lean ====
section
/-! DEFINITION. What a host read returns: the registers (10_state.md R11, R14 to R25) and the read-back formats of
20_memory.md R47, R49, R50. No read changes the state (R45). -/

namespace Sys2Proof.Machine

/-- The value of register n (R11). -/
def readRegister (s : State) (n : Nat) : Word :=
  match n with
  | 0 => 0x48554631
  | 1 => 0
  | 2 => statusWord s
  | 3 => (errField s).setWidth 32
  | 4 => s.ilen
  | 5 => s.olen
  | 6 => BitVec.ofNat 32 (nsym s.ft)
  | 7 => s.nnode.setWidth 32
  | 8 => if s.nnode = 0 then 0 else s.root.setWidth 32
  | 9 => s.tbits
  | 10 => BitVec.ofNat 32 s.params.ibufCap
  | 11 => BitVec.ofNat 32 s.params.obufCap
  | _ => 0

/-- Word 0 or 1 of a TreeNode (R49): `freq`; then `leaf` in bit 31, `sym` in 25:18, `left` in 17:9, `right` in 8:0. -/
def nodeWord (n : TreeNode) (w : Nat) : Word :=
  match n, w with
  | .leaf _ f, 0 => f
  | .internal f _ _, 0 => f
  | .leaf c _, _ => (0b100000 : BitVec 6) ++ c ++ (0 : BitVec 18)
  | .internal _ l r, _ => (0 : BitVec 14) ++ l ++ r

/-- Word w of slot k (R49); a slot out of use reads 0. -/
def readNode (s : State) (k w : Nat) : Word :=
  match slot s k with
  | some n => nodeWord n w
  | none => 0

/-- Word w of a code table entry (R50): the length, then the code left-aligned in 256 bits, then zeros. -/
def codeWord (c : Option Bits) (w : Nat) : Word :=
  let code := c.getD []
  if w = 0 then BitVec.ofNat 32 code.length
  else if w ≤ 8 then
    BitVec.ofNat 32 (val (((code ++ List.replicate (256 - code.length) false).drop (32 * (w - 1))).take 32))
  else 0

/-- What a read of an element returns to an idle core's host (R42). A byte comes in bits 7:0 (R41). -/
def readLocation (s : State) (l : Location) : Word :=
  match l with
  | .reg n => readRegister s n
  | .ft c => s.ft[c.toNat]
  | .node k w => readNode s k w
  | .ct c w => codeWord (codeOf s.ct c) w
  | .ibuf i => (ibufByte s i).setWidth 32
  | .obuf i => (obufByte s i).setWidth 32

/-- The answer to a bus error (R46): `h_err` = 1, and a read returns 0. -/
def busError (t : Transfer) : Answer := { err := true, rdata := if t.write then none else some 0 }

/-- The answer to an accepted write: no result (R42). -/
def writeDone : Answer := { err := false, rdata := none }

/-- The answer to a read that returns `v`. -/
def readData (v : Word) : Answer := { err := false, rdata := some v }

/-- The answer to a transfer while `BUSY` = 1 (70_reset_and_hazards.md R186): `STATUS` reads `BUSY` = 1 with the other bits
unspecified, a read of anything else returns an unspecified value, a write to `CMD`, `ILEN` or `IBUF` is dropped without
bus error. Where R186 states no `h_err`, it is free (log 6). -/
def busyAnswer (s : State) (t : Transfer) : Answer :=
  let v := Config.freeBusyWord s.draws s.answers.length
  let e := Config.freeBusyError s.draws s.answers.length
  match locate s.params t with
  | some l =>
    if t.write then { err := if writable l then false else e, rdata := none }
    else readData (if l = .reg 2 then v ||| 1 else v)
  | none => { err := e, rdata := if t.write then none else some v }

/-- A transfer while `BUSY` = 1: it is answered, and changes nothing (R186). -/
def busyAccess (s : State) (t : Transfer) : State := answer s (busyAnswer s t)

end Sys2Proof.Machine
end

