-- ==== Sys2Proof/Machine/Issue.lean ====
section
/-! DEFINITION. Command issue: what a write to `REG.CMD` does (30_encoding.md R63). -/

namespace Sys2Proof.Machine

/-- The early transfers at the head of the host's acts that meet the busy core, at most `n` of them, answered in order
(70_reset_and_hazards.md R186); the first argument is the acts still waiting. -/
def serveEarly : List HostAct → Nat → State → State
  | .early t :: acts, n + 1, s => serveEarly acts n (busyAccess { s with inbox := acts } t)
  | _, _, s => s

/-- Acceptance (R63): `BUSY <- 1`; how many early transfers come before the command's end is the open parameter `CmdLatency`
(log 3). -/
def accept (s : State) : State := serveEarly s.inbox (Config.cmdLatency s.draws) { s with busy := true }

/-- A write of `w` to `REG.CMD` (R63): ignored while busy; in the fault state ignored but for the exact word of CLRERR; an
illegal word raises IllegalCommand (R155); otherwise the command is accepted and runs to its end. -/
def issue (w : Word) (s : State) : Host.Outcome State Fault Refusal :=
  if s.busy then .next s
  else if s.err.isSome then
    if w = 0x00000006 then exec .clrerr s else .next s
  else
    match decode w with
    | .error _ => .next (raise .illegalCommand none s)
    | .ok i => exec i (accept s)

end Sys2Proof.Machine
end

