-- ==== Sys2Proof/Machine/Port.lean ====
section
/-! DEFINITION. The host port (20_memory.md R41, R42, R46) and the host's acts (R53, 00_scope.md R8). -/

namespace Sys2Proof.Machine

/-- A write to an element the map reaches, by a host that sees an idle core (R42). -/
def writeLocation (s : State) (t : Transfer) (l : Location) : Host.Outcome State Fault Refusal :=
  match l with
  | .reg 1 => issue t.wdata (answer s writeDone)
  | .reg 4 => .next (writeIlen (answer s writeDone) t.wdata)
  | .ibuf i => .next (writeIbuf (answer s writeDone) i (t.wdata.setWidth 8))
  | _ => .next (answer s (busError t))

/-- A transfer to an idle core (R42); one that reaches nothing is a bus error (R46). -/
def idleAccess (s : State) (t : Transfer) : Host.Outcome State Fault Refusal :=
  match locate s.params t with
  | none => .next (answer s (busError t))
  | some l => if t.write then writeLocation s t l else .next (answer s (readData (readLocation s l)))

/-- A transfer (R42, R186). -/
def access (s : State) (t : Transfer) : Host.Outcome State Fault Refusal :=
  if s.busy then .next (busyAccess s t) else idleAccess s t

/-- One act of the host. An early transfer that no running command meets is a transfer like any other. -/
def hostAct (s : State) (a : HostAct) : Host.Outcome State Fault Refusal :=
  match a with
  | .access t => access s t
  | .early t => access s t
  | .rst => .next (applyReset s)

/-- One event (R53): the host's oldest act is taken and done. With none waiting, "an idle core simply waits for the next host
access, keeping all state" (60_exceptions.md R171). -/
def portStep (s : State) : Host.Outcome State Fault Refusal :=
  match s.inbox with
  | [] => .next s
  | a :: acts => hostAct { s with inbox := acts, answers := [] } a

/-- The host's write of `v` to the register at byte address `addr`. -/
def registerWrite (addr v : Word) : Transfer := { write := true, word := true, addr := addr, wdata := v }

/-- The host's read of the word at byte address `addr`. -/
def wordRead (addr : Word) : Transfer := { write := false, word := true, addr := addr, wdata := 0 }

/-- The host's write of byte `b` at byte address `addr`. -/
def byteWrite (addr : Word) (b : Byte) : Transfer := { write := true, word := false, addr := addr, wdata := b.setWidth 32 }

/-- The host's read of the byte at byte address `addr`. -/
def byteRead (addr : Word) : Transfer := { write := false, word := false, addr := addr, wdata := 0 }

/-- The transfer that issues the command word `w`: a write to `REG.CMD`, at `0x0000_0004` (R43). -/
def commandWrite (w : Word) : Transfer := registerWrite 0x00000004 w

/-- `s` with the command word `w` as the host's very next act. -/
def withCommand (s : State) (w : Word) : State := { s with inbox := .access (commandWrite w) :: s.inbox }

end Sys2Proof.Machine
end

