-- ==== Sys2Proof/Machine/Directives.lean ====
section
/-! DEFINITION. The host's side: the notation of 30_encoding.md R67 and the pseudo-instructions of R68, each expanded into host
acts. The polling reads of "wait for `BUSY` = 0" are not listed: `HostAct.access` is made by a host that has seen it. -/

namespace Sys2Proof.Machine

/-- A line of the notation (R67). -/
inductive Directive where
  | command (i : Instr)
  | word (w : Word)
  | load (bytes : List Byte)
  | setlen (n : Word)
  | move
  | reset
deriving DecidableEq, Repr

/-- `MemWrite(IBUF, i, 1, b)` for the bytes in order from index `i` on. -/
def loadActs (i : Nat) : List Byte → List HostAct
  | [] => []
  | b :: bs => .access (byteWrite (BitVec.ofNat 32 (0x01000000 + i)) b) :: loadActs (i + 1) bs

/-- `MemWrite(REG, 4, 4, n)`. -/
def setlenAct (n : Word) : HostAct := .access (registerWrite 0x00000010 n)

/-- The output sequence `OBUF[0]`, …, `OBUF[OLEN − 1]` (R19), as the host reads it. -/
def outputBytes (s : State) : List Byte := (List.range s.olen.toNat).map (obufByte s)

/-- The host acts of a line, for a host that looks at the core in state `s` (R67). -/
def directiveActs (s : State) (d : Directive) : List HostAct :=
  match d with
  | .command i => [.access (commandWrite (encode i))]
  | .word w => [.access (commandWrite w)]
  | .load bytes => loadActs 0 bytes ++ [setlenAct (BitVec.ofNat 32 bytes.length)]
  | .setlen n => [setlenAct n]
  | .move => loadActs 0 (outputBytes s) ++ [setlenAct s.olen]
  | .reset => [.rst]

/-- `s` with the acts of a line waiting after those already waiting. -/
def withDirective (s : State) (d : Directive) : State := { s with inbox := s.inbox ++ directiveActs s d }

/-- `COMPRESS` after its `LOAD` (R68, 45_control_and_sequences.md R142). -/
def compressCommands : List Instr := [.analyze, .build, .gencodes, .pack]

/-- `DECOMPRESS` after its `LOAD` or `MOVE` (R68, R143). -/
def decompressCommands : List Instr := [.unpack]

/-- `LOAD` and `COMPRESS` as one list of lines (R142). -/
def compress (bytes : List Byte) : List Directive := .load bytes :: compressCommands.map .command

/-- `MOVE` and `DECOMPRESS` as one list of lines (R143). -/
def decompress : List Directive := .move :: decompressCommands.map .command

end Sys2Proof.Machine
end

