-- ==== Sys2Proof/Machine/Step.lean ====
section
/-! DEFINITION. One step, and where the next command word is placed. The core has no program counter and fetches nothing
(10_state.md R13); the host delivers each command with a register write (30_encoding.md R60). -/

namespace Sys2Proof.Machine

/-- One step: the next event at the port (20_memory.md R53). -/
def step (s : State) : Host.Outcome State Fault Refusal := portStep s

/-- `s` with the command word `w` of `nbits` bits as the host's very next act (log 2). -/
def State.withFetchWord (s : State) (nbits w : Nat) : State := withCommand s (tableWord nbits w)

end Sys2Proof.Machine
end

