-- ==== Sys2Proof/Safety.lean ====
section
/-! DEFINITION. The terms the claims use: the shape of a tree (41_tree_builder.md R103), a legal code table (42 R113), the
paths of a tree (30 R71), the bits of a packed input (44 R131), and the invariant of every reachable state (10_state.md R33). -/

namespace Sys2Proof.Machine

/-- `FT[c]`. -/
def countOf (ft : Vector Word 256) (c : Byte) : Nat := ft[c.toNat].toNat

/-- The sum of all entries of `FT` (R26). -/
def ftSum (ft : Vector Word 256) : Nat := (symbols.map (countOf ft)).sum

/-- The code of a symbol as a bit-string, empty for `none` (R50). -/
def codeBits (ct : Vector (Option Bits) 256) (c : Byte) : Bits := (codeOf ct c).getD []

/-- Every symbol of a byte sequence has a code. -/
def AllCoded (ct : Vector (Option Bits) 256) (bs : List Byte) : Prop := ∀ b ∈ bs, codeOf ct b ≠ none

/-- A code table the hardware can hold (R28, R33 (c)): codes of 1 to 255 bits, no code a first part of another's. -/
structure TableOk (ct : Vector (Option Bits) 256) : Prop where
  lengths : ∀ c code, codeOf ct c = some code → 1 ≤ code.length ∧ code.length ≤ 255
  prefixFree : ∀ c d x y, codeOf ct c = some x → codeOf ct d = some y → x <+: y → c = d

/-- `NODE[k].freq`, 0 for a slot out of use. -/
def slotFreq (s : State) (k : Nat) : Word :=
  match slot s k with
  | some n => nodeFreq n
  | none => 0

/-- The children of the internal nodes in the slots below n, in slot order. -/
def childrenBelow (s : State) (n : Nat) : List Nat :=
  (List.range n).flatMap fun k =>
    match slot s k with
    | some (.internal _ l r) => [l.toNat, r.toNat]
    | _ => []

/-- The in-use slots form one strict binary tree with n leaves, as R103 (a) to (d) has it. -/
structure TreeShape (s : State) (n : Nat) : Prop where
  count : 1 ≤ n ∧ n ≤ 256
  nnode : s.nnode.toNat = 2 * n - 1
  root : s.root.toNat = 2 * n - 2
  leaf : ∀ k, k < n → ∃ c f, slot s k = some (.leaf c f)
  ascending : ∀ j k c d f g, j < k → slot s j = some (.leaf c f) → slot s k = some (.leaf d g) → c.toNat < d.toNat
  internal : ∀ k, n ≤ k → k < 2 * n - 1 → ∃ f l r, slot s k = some (.internal f l r) ∧ l.toNat < k ∧ r.toNat < k
  owned : (childrenBelow s (2 * n - 1)).Perm (List.range (2 * n - 2))

/-- No tree, or one strict binary tree (R33 (b)); with no tree `ROOT` is 0 (R22). -/
def TreeOk (s : State) : Prop := (s.nnode = 0 ∧ s.root = 0) ∨ ∃ n, TreeShape s n

/-- `Path s k p j`: the edge labels from slot k down to slot j spell p, "0" for left, "1" for right (R71). -/
inductive Path (s : State) : Nat → Bits → Nat → Prop where
  | here (k : Nat) : Path s k [] k
  | left (k j : Nat) (f : Word) (l r : BitVec 9) (p : Bits) :
      slot s k = some (.internal f l r) → Path s l.toNat p j → Path s k (false :: p) j
  | right (k j : Nat) (f : Word) (l r : BitVec 9) (p : Bits) :
      slot s k = some (.internal f l r) → Path s r.toNat p j → Path s k (true :: p) j

/-- The entry of slot k in the queue. -/
def entryOf (s : State) (k : Nat) : QueueEntry := { idx := k, freq := slotFreq s k }

/-- Slot j stands in the queue when slot k is made: it exists, and no slot made before k has it as a child (R101). -/
def Waiting (s : State) (k j : Nat) : Prop := j < k ∧ j ∉ childrenBelow s k

/-- Bit j of the payload of a packed input: bit 7 − (j mod 8) of `IBUF[1 + (j div 8)]` (R131). -/
def payloadBit (s : State) (j : Nat) : Bool := (ibufByte s (1 + j / 8)).getLsbD (7 - j % 8)

/-- R: the number of bits after the header (R131). -/
def bitsAfterHeader (s : State) : Nat := 8 * (s.ilen.toNat - 1)

/-- P: the number of payload bits (R131). -/
def payloadLength (s : State) : Nat := bitsAfterHeader s - (ibufByte s 0).toNat

/-- The payload of a packed input (R131). -/
def payload (s : State) : Bits := (List.range (payloadLength s)).map (payloadBit s)

/-- The host has written every byte of the input sequence since reset (R182 (3)). -/
def InputWritten (s : State) : Prop := ∀ i, i < s.ilen.toNat → (Memory.read s.ibuf i).isSome = true

/-- `s` after the port took the host's oldest act and answered it with `ans`, `acts` being those left. -/
def answered (s : State) (acts : List HostAct) (ans : Answer) : State := { s with inbox := acts, answers := [ans] }

/-- The two states differ at most in slots out of use (R27). -/
def SameInUse (s t : State) : Prop :=
  { s with node := t.node } = t ∧ ∀ k, k < s.nnode.toNat → s.node[k]? = t.node[k]?

/-- What holds in every state reachable from reset (R33), with the model's own fields in order. (e) holds by the type of
`ERR`. -/
structure Inv (s : State) : Prop where
  params : s.params.wellFormed = true
  idle : s.busy = false
  counts : ftSum s.ft ≤ s.params.ibufCap
  tree : TreeOk s
  table : TableOk s.ct
  ibufWf : Memory.wf s.ibuf
  ibufInside : ∀ i, (Memory.read s.ibuf i).isSome = true → i < s.params.ibufCap
  obufWf : Memory.wf s.obuf
  obufHolds : ∀ i, (Memory.read s.obuf i).isSome = true ↔ i < s.olen.toNat
  olen : s.olen.toNat ≤ s.params.obufCap

/-- What a faulting PACK or UNPACK leaves (60_exceptions.md R157): `OLEN` = 0, `TBITS` = 0, no byte of `OBUF` specified. -/
def failedOutput (s : State) (k : ErrorKind) : State :=
  { s with
    obuf := [], obufDraw := s.draws, olen := 0, tbits := 0, err := some k, busy := false, draws := s.draws + 1 }

/-- A TreeNode with its frequency struck out: all that GENCODES reads (42 R114). -/
def withoutFreq (n : TreeNode) : TreeNode :=
  match n with
  | .leaf c _ => .leaf c 0
  | .internal _ l r => .internal 0 l r

/-- The host's next act is the transfer `t`, presented early or not. -/
def NextTransfer (s : State) (t : Transfer) : Prop := ∃ acts, s.inbox = .access t :: acts ∨ s.inbox = .early t :: acts

/-- The host's next act writes the word `v` to the register at byte address `addr`. -/
def NextWordWrite (s : State) (addr v : Word) : Prop :=
  ∃ t, NextTransfer s t ∧ t.write = true ∧ t.word = true ∧ t.addr = addr ∧ t.wdata = v

/-- The host's next act writes the word `w` to `REG.CMD`, at `0x0000_0004` (20_memory.md R43). -/
def Issues (s : State) (w : Word) : Prop := NextWordWrite s 0x00000004 w

/-- The host's next act is a reset. -/
def NextReset (s : State) : Prop := ∃ acts, s.inbox = .rst :: acts

/-- The accesses that are not bus errors (20_memory.md R42, R43, R44), in byte addresses. -/
def LegalAccess (p : Params) (t : Transfer) : Prop :=
  (t.word = true ∧ (t.addr.toNat = 0x04 ∨ t.addr.toNat = 0x10)) ∨
  (t.word = true ∧ t.write = false ∧ t.addr.toNat % 4 = 0 ∧
    (t.addr.toNat < 0x40 ∨ (0x1000 ≤ t.addr.toNat ∧ t.addr.toNat < 0x1400) ∨
     (0x2000 ≤ t.addr.toNat ∧ t.addr.toNat < 0x2FF8) ∨ (0x4000 ≤ t.addr.toNat ∧ t.addr.toNat < 0x8000))) ∨
  (t.word = false ∧ 0x01000000 ≤ t.addr.toNat ∧ t.addr.toNat < 0x01000000 + p.ibufCap) ∨
  (t.word = false ∧ t.write = false ∧ 0x02000000 ≤ t.addr.toNat ∧ t.addr.toNat < 0x02000000 + p.obufCap)

/-- What the port answers to a transfer while `BUSY` = 1 (70_reset_and_hazards.md R186): a write to `CMD`, `ILEN` or `IBUF` is
dropped without bus error, a read of `STATUS` returns `BUSY` = 1, every other read returns some value. -/
structure BusyAnswered (p : Params) (t : Transfer) (a : Answer) : Prop where
  cmdOrIlen : t.write = true → t.word = true → (t.addr = 0x04 ∨ t.addr = 0x10) → a = { err := false, rdata := none }
  ibuf : t.write = true → t.word = false → 0x01000000 ≤ t.addr.toNat → t.addr.toNat < 0x01000000 + p.ibufCap →
    a = { err := false, rdata := none }
  status : t.write = false → t.word = true → t.addr = 0x08 →
    ∃ v, a = { err := false, rdata := some v } ∧ v.getLsbD 0 = true
  data : a.rdata.isSome = !t.write

/-- The error kinds a command raises (60_exceptions.md R150). -/
def raises (i : Instr) : List ErrorKind :=
  match i with
  | .analyze => [.inputUnavailable]
  | .build => [.emptyAlphabet]
  | .gencodes => [.noTree]
  | .pack => [.inputUnavailable, .missingCode, .outputUnavailable]
  | .unpack => [.inputUnavailable, .malformedStream, .outputUnavailable]
  | .clrerr => []

end Sys2Proof.Machine
end

