-- ==== Sys2Proof/Laws/State.lean ====
section
/-! SUPPORT. One lemma per field per update of the state, true by rfl, so that no later proof unfolds a record update. -/

namespace Sys2Proof.Machine

/-! ### newDraw -/

@[simp] theorem newDraw_ft (s : State) : (newDraw s).ft = s.ft := rfl
@[simp] theorem newDraw_node (s : State) : (newDraw s).node = s.node := rfl
@[simp] theorem newDraw_nnode (s : State) : (newDraw s).nnode = s.nnode := rfl
@[simp] theorem newDraw_root (s : State) : (newDraw s).root = s.root := rfl
@[simp] theorem newDraw_ct (s : State) : (newDraw s).ct = s.ct := rfl
@[simp] theorem newDraw_ibuf (s : State) : (newDraw s).ibuf = s.ibuf := rfl
@[simp] theorem newDraw_ilen (s : State) : (newDraw s).ilen = s.ilen := rfl
@[simp] theorem newDraw_obuf (s : State) : (newDraw s).obuf = s.obuf := rfl
@[simp] theorem newDraw_olen (s : State) : (newDraw s).olen = s.olen := rfl
@[simp] theorem newDraw_tbits (s : State) : (newDraw s).tbits = s.tbits := rfl
@[simp] theorem newDraw_err (s : State) : (newDraw s).err = s.err := rfl
@[simp] theorem newDraw_busy (s : State) : (newDraw s).busy = s.busy := rfl
@[simp] theorem newDraw_params (s : State) : (newDraw s).params = s.params := rfl
@[simp] theorem newDraw_draws (s : State) : (newDraw s).draws = s.draws + 1 := rfl
@[simp] theorem newDraw_obufDraw (s : State) : (newDraw s).obufDraw = s.obufDraw := rfl
@[simp] theorem newDraw_inbox (s : State) : (newDraw s).inbox = s.inbox := rfl
@[simp] theorem newDraw_answers (s : State) : (newDraw s).answers = s.answers := rfl

/-! ### complete -/

@[simp] theorem complete_ft (s : State) : (complete s).ft = s.ft := rfl
@[simp] theorem complete_node (s : State) : (complete s).node = s.node := rfl
@[simp] theorem complete_nnode (s : State) : (complete s).nnode = s.nnode := rfl
@[simp] theorem complete_root (s : State) : (complete s).root = s.root := rfl
@[simp] theorem complete_ct (s : State) : (complete s).ct = s.ct := rfl
@[simp] theorem complete_ibuf (s : State) : (complete s).ibuf = s.ibuf := rfl
@[simp] theorem complete_ilen (s : State) : (complete s).ilen = s.ilen := rfl
@[simp] theorem complete_obuf (s : State) : (complete s).obuf = s.obuf := rfl
@[simp] theorem complete_olen (s : State) : (complete s).olen = s.olen := rfl
@[simp] theorem complete_tbits (s : State) : (complete s).tbits = s.tbits := rfl
@[simp] theorem complete_err (s : State) : (complete s).err = s.err := rfl
@[simp] theorem complete_busy (s : State) : (complete s).busy = false := rfl
@[simp] theorem complete_params (s : State) : (complete s).params = s.params := rfl
@[simp] theorem complete_draws (s : State) : (complete s).draws = s.draws + 1 := rfl
@[simp] theorem complete_obufDraw (s : State) : (complete s).obufDraw = s.obufDraw := rfl
@[simp] theorem complete_inbox (s : State) : (complete s).inbox = s.inbox := rfl
@[simp] theorem complete_answers (s : State) : (complete s).answers = s.answers := rfl

/-! ### clearError -/

@[simp] theorem clearError_ft (s : State) : (clearError s).ft = s.ft := rfl
@[simp] theorem clearError_node (s : State) : (clearError s).node = s.node := rfl
@[simp] theorem clearError_nnode (s : State) : (clearError s).nnode = s.nnode := rfl
@[simp] theorem clearError_root (s : State) : (clearError s).root = s.root := rfl
@[simp] theorem clearError_ct (s : State) : (clearError s).ct = s.ct := rfl
@[simp] theorem clearError_ibuf (s : State) : (clearError s).ibuf = s.ibuf := rfl
@[simp] theorem clearError_ilen (s : State) : (clearError s).ilen = s.ilen := rfl
@[simp] theorem clearError_obuf (s : State) : (clearError s).obuf = s.obuf := rfl
@[simp] theorem clearError_olen (s : State) : (clearError s).olen = s.olen := rfl
@[simp] theorem clearError_tbits (s : State) : (clearError s).tbits = s.tbits := rfl
@[simp] theorem clearError_err (s : State) : (clearError s).err = none := rfl
@[simp] theorem clearError_busy (s : State) : (clearError s).busy = s.busy := rfl
@[simp] theorem clearError_params (s : State) : (clearError s).params = s.params := rfl
@[simp] theorem clearError_draws (s : State) : (clearError s).draws = s.draws := rfl
@[simp] theorem clearError_obufDraw (s : State) : (clearError s).obufDraw = s.obufDraw := rfl
@[simp] theorem clearError_inbox (s : State) : (clearError s).inbox = s.inbox := rfl
@[simp] theorem clearError_answers (s : State) : (clearError s).answers = s.answers := rfl

/-! ### answer -/

@[simp] theorem answer_ft (s : State) (a : Answer) : (answer s a).ft = s.ft := rfl
@[simp] theorem answer_node (s : State) (a : Answer) : (answer s a).node = s.node := rfl
@[simp] theorem answer_nnode (s : State) (a : Answer) : (answer s a).nnode = s.nnode := rfl
@[simp] theorem answer_root (s : State) (a : Answer) : (answer s a).root = s.root := rfl
@[simp] theorem answer_ct (s : State) (a : Answer) : (answer s a).ct = s.ct := rfl
@[simp] theorem answer_ibuf (s : State) (a : Answer) : (answer s a).ibuf = s.ibuf := rfl
@[simp] theorem answer_ilen (s : State) (a : Answer) : (answer s a).ilen = s.ilen := rfl
@[simp] theorem answer_obuf (s : State) (a : Answer) : (answer s a).obuf = s.obuf := rfl
@[simp] theorem answer_olen (s : State) (a : Answer) : (answer s a).olen = s.olen := rfl
@[simp] theorem answer_tbits (s : State) (a : Answer) : (answer s a).tbits = s.tbits := rfl
@[simp] theorem answer_err (s : State) (a : Answer) : (answer s a).err = s.err := rfl
@[simp] theorem answer_busy (s : State) (a : Answer) : (answer s a).busy = s.busy := rfl
@[simp] theorem answer_params (s : State) (a : Answer) : (answer s a).params = s.params := rfl
@[simp] theorem answer_draws (s : State) (a : Answer) : (answer s a).draws = s.draws := rfl
@[simp] theorem answer_obufDraw (s : State) (a : Answer) : (answer s a).obufDraw = s.obufDraw := rfl
@[simp] theorem answer_inbox (s : State) (a : Answer) : (answer s a).inbox = s.inbox := rfl
@[simp] theorem answer_answers (s : State) (a : Answer) : (answer s a).answers = s.answers ++ [a] := rfl

/-! ### writeIbuf -/

@[simp] theorem writeIbuf_ft (s : State) (i : Nat) (b : Byte) : (writeIbuf s i b).ft = s.ft := rfl
@[simp] theorem writeIbuf_node (s : State) (i : Nat) (b : Byte) : (writeIbuf s i b).node = s.node := rfl
@[simp] theorem writeIbuf_nnode (s : State) (i : Nat) (b : Byte) : (writeIbuf s i b).nnode = s.nnode := rfl
@[simp] theorem writeIbuf_root (s : State) (i : Nat) (b : Byte) : (writeIbuf s i b).root = s.root := rfl
@[simp] theorem writeIbuf_ct (s : State) (i : Nat) (b : Byte) : (writeIbuf s i b).ct = s.ct := rfl
@[simp] theorem writeIbuf_ibuf (s : State) (i : Nat) (b : Byte) : (writeIbuf s i b).ibuf = Memory.write s.ibuf i b := rfl
@[simp] theorem writeIbuf_ilen (s : State) (i : Nat) (b : Byte) : (writeIbuf s i b).ilen = s.ilen := rfl
@[simp] theorem writeIbuf_obuf (s : State) (i : Nat) (b : Byte) : (writeIbuf s i b).obuf = s.obuf := rfl
@[simp] theorem writeIbuf_olen (s : State) (i : Nat) (b : Byte) : (writeIbuf s i b).olen = s.olen := rfl
@[simp] theorem writeIbuf_tbits (s : State) (i : Nat) (b : Byte) : (writeIbuf s i b).tbits = s.tbits := rfl
@[simp] theorem writeIbuf_err (s : State) (i : Nat) (b : Byte) : (writeIbuf s i b).err = s.err := rfl
@[simp] theorem writeIbuf_busy (s : State) (i : Nat) (b : Byte) : (writeIbuf s i b).busy = s.busy := rfl
@[simp] theorem writeIbuf_params (s : State) (i : Nat) (b : Byte) : (writeIbuf s i b).params = s.params := rfl
@[simp] theorem writeIbuf_draws (s : State) (i : Nat) (b : Byte) : (writeIbuf s i b).draws = s.draws + 1 := rfl
@[simp] theorem writeIbuf_obufDraw (s : State) (i : Nat) (b : Byte) : (writeIbuf s i b).obufDraw = s.obufDraw := rfl
@[simp] theorem writeIbuf_inbox (s : State) (i : Nat) (b : Byte) : (writeIbuf s i b).inbox = s.inbox := rfl
@[simp] theorem writeIbuf_answers (s : State) (i : Nat) (b : Byte) : (writeIbuf s i b).answers = s.answers := rfl

/-! ### writeIlen -/

@[simp] theorem writeIlen_ft (s : State) (v : Word) : (writeIlen s v).ft = s.ft := rfl
@[simp] theorem writeIlen_node (s : State) (v : Word) : (writeIlen s v).node = s.node := rfl
@[simp] theorem writeIlen_nnode (s : State) (v : Word) : (writeIlen s v).nnode = s.nnode := rfl
@[simp] theorem writeIlen_root (s : State) (v : Word) : (writeIlen s v).root = s.root := rfl
@[simp] theorem writeIlen_ct (s : State) (v : Word) : (writeIlen s v).ct = s.ct := rfl
@[simp] theorem writeIlen_ibuf (s : State) (v : Word) : (writeIlen s v).ibuf = s.ibuf := rfl
@[simp] theorem writeIlen_ilen (s : State) (v : Word) : (writeIlen s v).ilen = v := rfl
@[simp] theorem writeIlen_obuf (s : State) (v : Word) : (writeIlen s v).obuf = s.obuf := rfl
@[simp] theorem writeIlen_olen (s : State) (v : Word) : (writeIlen s v).olen = s.olen := rfl
@[simp] theorem writeIlen_tbits (s : State) (v : Word) : (writeIlen s v).tbits = s.tbits := rfl
@[simp] theorem writeIlen_err (s : State) (v : Word) : (writeIlen s v).err = s.err := rfl
@[simp] theorem writeIlen_busy (s : State) (v : Word) : (writeIlen s v).busy = s.busy := rfl
@[simp] theorem writeIlen_params (s : State) (v : Word) : (writeIlen s v).params = s.params := rfl
@[simp] theorem writeIlen_draws (s : State) (v : Word) : (writeIlen s v).draws = s.draws + 1 := rfl
@[simp] theorem writeIlen_obufDraw (s : State) (v : Word) : (writeIlen s v).obufDraw = s.obufDraw := rfl
@[simp] theorem writeIlen_inbox (s : State) (v : Word) : (writeIlen s v).inbox = s.inbox := rfl
@[simp] theorem writeIlen_answers (s : State) (v : Word) : (writeIlen s v).answers = s.answers := rfl

/-! ### writeOutput -/

@[simp] theorem writeOutput_ft (s : State) (bs : List Byte) (n : Nat) : (writeOutput s bs n).ft = s.ft := rfl
@[simp] theorem writeOutput_node (s : State) (bs : List Byte) (n : Nat) : (writeOutput s bs n).node = s.node := rfl
@[simp] theorem writeOutput_nnode (s : State) (bs : List Byte) (n : Nat) : (writeOutput s bs n).nnode = s.nnode := rfl
@[simp] theorem writeOutput_root (s : State) (bs : List Byte) (n : Nat) : (writeOutput s bs n).root = s.root := rfl
@[simp] theorem writeOutput_ct (s : State) (bs : List Byte) (n : Nat) : (writeOutput s bs n).ct = s.ct := rfl
@[simp] theorem writeOutput_ibuf (s : State) (bs : List Byte) (n : Nat) : (writeOutput s bs n).ibuf = s.ibuf := rfl
@[simp] theorem writeOutput_ilen (s : State) (bs : List Byte) (n : Nat) : (writeOutput s bs n).ilen = s.ilen := rfl
@[simp] theorem writeOutput_obuf (s : State) (bs : List Byte) (n : Nat) : (writeOutput s bs n).obuf = Memory.ofBytes 0 bs := rfl
@[simp] theorem writeOutput_olen (s : State) (bs : List Byte) (n : Nat) : (writeOutput s bs n).olen = BitVec.ofNat 32 bs.length := rfl
@[simp] theorem writeOutput_tbits (s : State) (bs : List Byte) (n : Nat) : (writeOutput s bs n).tbits = BitVec.ofNat 32 n := rfl
@[simp] theorem writeOutput_err (s : State) (bs : List Byte) (n : Nat) : (writeOutput s bs n).err = s.err := rfl
@[simp] theorem writeOutput_busy (s : State) (bs : List Byte) (n : Nat) : (writeOutput s bs n).busy = s.busy := rfl
@[simp] theorem writeOutput_params (s : State) (bs : List Byte) (n : Nat) : (writeOutput s bs n).params = s.params := rfl
@[simp] theorem writeOutput_draws (s : State) (bs : List Byte) (n : Nat) : (writeOutput s bs n).draws = s.draws := rfl
@[simp] theorem writeOutput_obufDraw (s : State) (bs : List Byte) (n : Nat) : (writeOutput s bs n).obufDraw = s.draws := rfl
@[simp] theorem writeOutput_inbox (s : State) (bs : List Byte) (n : Nat) : (writeOutput s bs n).inbox = s.inbox := rfl
@[simp] theorem writeOutput_answers (s : State) (bs : List Byte) (n : Nat) : (writeOutput s bs n).answers = s.answers := rfl

/-! ### clearOutput -/

@[simp] theorem clearOutput_ft (s : State) : (clearOutput s).ft = s.ft := rfl
@[simp] theorem clearOutput_node (s : State) : (clearOutput s).node = s.node := rfl
@[simp] theorem clearOutput_nnode (s : State) : (clearOutput s).nnode = s.nnode := rfl
@[simp] theorem clearOutput_root (s : State) : (clearOutput s).root = s.root := rfl
@[simp] theorem clearOutput_ct (s : State) : (clearOutput s).ct = s.ct := rfl
@[simp] theorem clearOutput_ibuf (s : State) : (clearOutput s).ibuf = s.ibuf := rfl
@[simp] theorem clearOutput_ilen (s : State) : (clearOutput s).ilen = s.ilen := rfl
@[simp] theorem clearOutput_obuf (s : State) : (clearOutput s).obuf = [] := rfl
@[simp] theorem clearOutput_olen (s : State) : (clearOutput s).olen = 0 := rfl
@[simp] theorem clearOutput_tbits (s : State) : (clearOutput s).tbits = 0 := rfl
@[simp] theorem clearOutput_err (s : State) : (clearOutput s).err = s.err := rfl
@[simp] theorem clearOutput_busy (s : State) : (clearOutput s).busy = s.busy := rfl
@[simp] theorem clearOutput_params (s : State) : (clearOutput s).params = s.params := rfl
@[simp] theorem clearOutput_draws (s : State) : (clearOutput s).draws = s.draws := rfl
@[simp] theorem clearOutput_obufDraw (s : State) : (clearOutput s).obufDraw = s.draws := rfl
@[simp] theorem clearOutput_inbox (s : State) : (clearOutput s).inbox = s.inbox := rfl
@[simp] theorem clearOutput_answers (s : State) : (clearOutput s).answers = s.answers := rfl

/-! ### withCommand -/

@[simp] theorem withCommand_ft (s : State) (w : Word) : (withCommand s w).ft = s.ft := rfl
@[simp] theorem withCommand_node (s : State) (w : Word) : (withCommand s w).node = s.node := rfl
@[simp] theorem withCommand_nnode (s : State) (w : Word) : (withCommand s w).nnode = s.nnode := rfl
@[simp] theorem withCommand_root (s : State) (w : Word) : (withCommand s w).root = s.root := rfl
@[simp] theorem withCommand_ct (s : State) (w : Word) : (withCommand s w).ct = s.ct := rfl
@[simp] theorem withCommand_ibuf (s : State) (w : Word) : (withCommand s w).ibuf = s.ibuf := rfl
@[simp] theorem withCommand_ilen (s : State) (w : Word) : (withCommand s w).ilen = s.ilen := rfl
@[simp] theorem withCommand_obuf (s : State) (w : Word) : (withCommand s w).obuf = s.obuf := rfl
@[simp] theorem withCommand_olen (s : State) (w : Word) : (withCommand s w).olen = s.olen := rfl
@[simp] theorem withCommand_tbits (s : State) (w : Word) : (withCommand s w).tbits = s.tbits := rfl
@[simp] theorem withCommand_err (s : State) (w : Word) : (withCommand s w).err = s.err := rfl
@[simp] theorem withCommand_busy (s : State) (w : Word) : (withCommand s w).busy = s.busy := rfl
@[simp] theorem withCommand_params (s : State) (w : Word) : (withCommand s w).params = s.params := rfl
@[simp] theorem withCommand_draws (s : State) (w : Word) : (withCommand s w).draws = s.draws := rfl
@[simp] theorem withCommand_obufDraw (s : State) (w : Word) : (withCommand s w).obufDraw = s.obufDraw := rfl
@[simp] theorem withCommand_inbox (s : State) (w : Word) : (withCommand s w).inbox = .access (commandWrite w) :: s.inbox := rfl
@[simp] theorem withCommand_answers (s : State) (w : Word) : (withCommand s w).answers = s.answers := rfl

/-! ### answered -/

@[simp] theorem answered_ft (s : State) (acts : List HostAct) (ans : Answer) : (answered s acts ans).ft = s.ft := rfl
@[simp] theorem answered_node (s : State) (acts : List HostAct) (ans : Answer) : (answered s acts ans).node = s.node := rfl
@[simp] theorem answered_nnode (s : State) (acts : List HostAct) (ans : Answer) : (answered s acts ans).nnode = s.nnode := rfl
@[simp] theorem answered_root (s : State) (acts : List HostAct) (ans : Answer) : (answered s acts ans).root = s.root := rfl
@[simp] theorem answered_ct (s : State) (acts : List HostAct) (ans : Answer) : (answered s acts ans).ct = s.ct := rfl
@[simp] theorem answered_ibuf (s : State) (acts : List HostAct) (ans : Answer) : (answered s acts ans).ibuf = s.ibuf := rfl
@[simp] theorem answered_ilen (s : State) (acts : List HostAct) (ans : Answer) : (answered s acts ans).ilen = s.ilen := rfl
@[simp] theorem answered_obuf (s : State) (acts : List HostAct) (ans : Answer) : (answered s acts ans).obuf = s.obuf := rfl
@[simp] theorem answered_olen (s : State) (acts : List HostAct) (ans : Answer) : (answered s acts ans).olen = s.olen := rfl
@[simp] theorem answered_tbits (s : State) (acts : List HostAct) (ans : Answer) : (answered s acts ans).tbits = s.tbits := rfl
@[simp] theorem answered_err (s : State) (acts : List HostAct) (ans : Answer) : (answered s acts ans).err = s.err := rfl
@[simp] theorem answered_busy (s : State) (acts : List HostAct) (ans : Answer) : (answered s acts ans).busy = s.busy := rfl
@[simp] theorem answered_params (s : State) (acts : List HostAct) (ans : Answer) : (answered s acts ans).params = s.params := rfl
@[simp] theorem answered_draws (s : State) (acts : List HostAct) (ans : Answer) : (answered s acts ans).draws = s.draws := rfl
@[simp] theorem answered_obufDraw (s : State) (acts : List HostAct) (ans : Answer) : (answered s acts ans).obufDraw = s.obufDraw := rfl
@[simp] theorem answered_inbox (s : State) (acts : List HostAct) (ans : Answer) : (answered s acts ans).inbox = acts := rfl
@[simp] theorem answered_answers (s : State) (acts : List HostAct) (ans : Answer) : (answered s acts ans).answers = [ans] := rfl

/-! ### raise: what holds whichever command raises -/

@[simp] theorem raise_err (k : ErrorKind) (c : Option Instr) (s : State) : (raise k c s).err = some k := rfl
@[simp] theorem raise_busy (k : ErrorKind) (c : Option Instr) (s : State) : (raise k c s).busy = false := rfl
@[simp] theorem raise_params (k : ErrorKind) (c : Option Instr) (s : State) : (raise k c s).params = s.params := by
  rcases c with _ | c
  · rfl
  · cases c <;> rfl
@[simp] theorem raise_ibuf (k : ErrorKind) (c : Option Instr) (s : State) : (raise k c s).ibuf = s.ibuf := by
  rcases c with _ | c
  · rfl
  · cases c <;> rfl
@[simp] theorem raise_ilen (k : ErrorKind) (c : Option Instr) (s : State) : (raise k c s).ilen = s.ilen := by
  rcases c with _ | c
  · rfl
  · cases c <;> rfl
@[simp] theorem raise_draws (k : ErrorKind) (c : Option Instr) (s : State) : (raise k c s).draws = s.draws + 1 := by
  rcases c with _ | c
  · rfl
  · cases c <;> rfl
@[simp] theorem raise_inbox (k : ErrorKind) (c : Option Instr) (s : State) : (raise k c s).inbox = s.inbox := by
  rcases c with _ | c
  · rfl
  · cases c <;> rfl
@[simp] theorem raise_answers (k : ErrorKind) (c : Option Instr) (s : State) : (raise k c s).answers = s.answers := by
  rcases c with _ | c
  · rfl
  · cases c <;> rfl

/-! ### raise: a destination is invalidated by its own command alone (R157) -/

theorem raise_ft (k : ErrorKind) (c : Option Instr) (s : State) (hanalyze : c ≠ some .analyze) :
    (raise k c s).ft = s.ft := by
  rcases c with _ | c
  · rfl
  · cases c <;> first | rfl | contradiction
theorem raise_node (k : ErrorKind) (c : Option Instr) (s : State) :
    (raise k c s).node = s.node := by
  rcases c with _ | c
  · rfl
  · cases c <;> rfl
theorem raise_nnode (k : ErrorKind) (c : Option Instr) (s : State) (hbuild : c ≠ some .build) :
    (raise k c s).nnode = s.nnode := by
  rcases c with _ | c
  · rfl
  · cases c <;> first | rfl | contradiction
theorem raise_root (k : ErrorKind) (c : Option Instr) (s : State) (hbuild : c ≠ some .build) :
    (raise k c s).root = s.root := by
  rcases c with _ | c
  · rfl
  · cases c <;> first | rfl | contradiction
theorem raise_ct (k : ErrorKind) (c : Option Instr) (s : State) (hgencodes : c ≠ some .gencodes) :
    (raise k c s).ct = s.ct := by
  rcases c with _ | c
  · rfl
  · cases c <;> first | rfl | contradiction
theorem raise_obuf (k : ErrorKind) (c : Option Instr) (s : State) (hpack : c ≠ some .pack) (hunpack : c ≠ some .unpack) :
    (raise k c s).obuf = s.obuf := by
  rcases c with _ | c
  · rfl
  · cases c <;> first | rfl | contradiction
theorem raise_olen (k : ErrorKind) (c : Option Instr) (s : State) (hpack : c ≠ some .pack) (hunpack : c ≠ some .unpack) :
    (raise k c s).olen = s.olen := by
  rcases c with _ | c
  · rfl
  · cases c <;> first | rfl | contradiction
theorem raise_tbits (k : ErrorKind) (c : Option Instr) (s : State) (hpack : c ≠ some .pack) (hunpack : c ≠ some .unpack) :
    (raise k c s).tbits = s.tbits := by
  rcases c with _ | c
  · rfl
  · cases c <;> first | rfl | contradiction
theorem raise_obufDraw (k : ErrorKind) (c : Option Instr) (s : State) (hpack : c ≠ some .pack) (hunpack : c ≠ some .unpack) :
    (raise k c s).obufDraw = s.obufDraw := by
  rcases c with _ | c
  · rfl
  · cases c <;> first | rfl | contradiction

/-! ### reset (R35) -/

@[simp] theorem resetWith_ft (p : Params) (d : Nat) (acts : List HostAct) :
    (State.resetWith p d acts).ft = Vector.replicate 256 0 := rfl
@[simp] theorem resetWith_node (p : Params) (d : Nat) (acts : List HostAct) :
    (State.resetWith p d acts).node = Vector.replicate 511 (.leaf 0 0) := rfl
@[simp] theorem resetWith_nnode (p : Params) (d : Nat) (acts : List HostAct) :
    (State.resetWith p d acts).nnode = 0 := rfl
@[simp] theorem resetWith_root (p : Params) (d : Nat) (acts : List HostAct) :
    (State.resetWith p d acts).root = 0 := rfl
@[simp] theorem resetWith_ct (p : Params) (d : Nat) (acts : List HostAct) :
    (State.resetWith p d acts).ct = Vector.replicate 256 none := rfl
@[simp] theorem resetWith_ibuf (p : Params) (d : Nat) (acts : List HostAct) :
    (State.resetWith p d acts).ibuf = [] := rfl
@[simp] theorem resetWith_ilen (p : Params) (d : Nat) (acts : List HostAct) :
    (State.resetWith p d acts).ilen = 0 := rfl
@[simp] theorem resetWith_obuf (p : Params) (d : Nat) (acts : List HostAct) :
    (State.resetWith p d acts).obuf = [] := rfl
@[simp] theorem resetWith_olen (p : Params) (d : Nat) (acts : List HostAct) :
    (State.resetWith p d acts).olen = 0 := rfl
@[simp] theorem resetWith_tbits (p : Params) (d : Nat) (acts : List HostAct) :
    (State.resetWith p d acts).tbits = 0 := rfl
@[simp] theorem resetWith_err (p : Params) (d : Nat) (acts : List HostAct) :
    (State.resetWith p d acts).err = none := rfl
@[simp] theorem resetWith_busy (p : Params) (d : Nat) (acts : List HostAct) :
    (State.resetWith p d acts).busy = false := rfl
@[simp] theorem resetWith_params (p : Params) (d : Nat) (acts : List HostAct) :
    (State.resetWith p d acts).params = p := rfl
@[simp] theorem resetWith_draws (p : Params) (d : Nat) (acts : List HostAct) :
    (State.resetWith p d acts).draws = d + 1 := rfl
@[simp] theorem resetWith_obufDraw (p : Params) (d : Nat) (acts : List HostAct) :
    (State.resetWith p d acts).obufDraw = d := rfl
@[simp] theorem resetWith_inbox (p : Params) (d : Nat) (acts : List HostAct) :
    (State.resetWith p d acts).inbox = acts := rfl
@[simp] theorem resetWith_answers (p : Params) (d : Nat) (acts : List HostAct) :
    (State.resetWith p d acts).answers = [] := rfl

end Sys2Proof.Machine
end

