-- ==== Sys2Proof/Laws/Memory.lean ====
section
/-! SUPPORT. The buffers: a read after a write, and that every operation keeps the canonical form. -/

namespace Sys2Proof.Machine

@[simp] theorem memory_read_nil (i : Nat) : Memory.read [] i = none := rfl

theorem memory_read_cons (a : Nat) (b : Byte) (m : Memory) (i : Nat) :
    Memory.read ((a, b) :: m) i = if i = a then some b else Memory.read m i := rfl

/-- A read gives what the last write to the index left, and a write leaves every other index alone. -/
@[simp] theorem memory_read_write (m : Memory) (i j : Nat) (b : Byte) :
    Memory.read (Memory.write m i b) j = if j = i then some b else Memory.read m j := by
  induction m with
  | nil => rfl
  | cons x m ih =>
    obtain ⟨a, c⟩ := x
    simp only [Memory.write]
    split
    · rfl
    · split
      · next h => subst h; by_cases hj : j = i <;> simp [memory_read_cons, hj]
      · next h1 h2 =>
        rw [memory_read_cons, ih, memory_read_cons]
        by_cases hj : j = i
        · simp [hj, h2]
        · simp [hj]

theorem memory_mem_write (m : Memory) (i : Nat) (b : Byte) (x : Host.Cell) (h : x ∈ Memory.write m i b) :
    x = (i, b) ∨ x ∈ m := by
  induction m with
  | nil => simpa [Memory.write] using h
  | cons y m ih =>
    obtain ⟨a, c⟩ := y
    simp only [Memory.write] at h
    split at h
    · simpa using h
    · split at h
      · rcases List.mem_cons.mp h with h | h
        · exact .inl h
        · exact .inr (List.mem_cons_of_mem _ h)
      · rcases List.mem_cons.mp h with h | h
        · exact .inr (h ▸ List.mem_cons_self)
        · exact (ih h).imp_right (List.mem_cons_of_mem _)

theorem memory_wf_write (m : Memory) (i : Nat) (b : Byte) (h : Memory.wf m) : Memory.wf (Memory.write m i b) := by
  induction m with
  | nil => simp [Memory.wf, Memory.write]
  | cons y m ih =>
    obtain ⟨a, c⟩ := y
    obtain ⟨hy, hm⟩ := List.pairwise_cons.mp h
    simp only [Memory.write]
    split
    · next hlt =>
      refine List.pairwise_cons.mpr ⟨fun x hx => ?_, h⟩
      rcases List.mem_cons.mp hx with rfl | hx
      · exact hlt
      · exact Nat.lt_trans hlt (hy x hx)
    · split
      · next he => exact List.pairwise_cons.mpr ⟨fun x hx => he ▸ hy x hx, hm⟩
      · next h1 h2 =>
        refine List.pairwise_cons.mpr ⟨fun x hx => ?_, ih hm⟩
        rcases memory_mem_write m i b x hx with rfl | hx
        · show a < i
          omega
        · exact hy x hx

/-- The buffer of a byte sequence holds its bytes in index order and nothing else. -/
@[simp] theorem memory_read_ofBytes (bs : List Byte) (start i : Nat) :
    Memory.read (Memory.ofBytes start bs) i = if start ≤ i then bs[i - start]? else none := by
  induction bs generalizing start with
  | nil => simp [Memory.ofBytes]
  | cons b bs ih =>
    rw [Memory.ofBytes, memory_read_cons, ih]
    by_cases h : i = start
    · simp [h]
    · by_cases h2 : start + 1 ≤ i
      · have h3 : start ≤ i := by omega
        obtain ⟨k, hk⟩ : ∃ k, i - start = k + 1 := ⟨i - start - 1, by omega⟩
        have h4 : i - (start + 1) = k := by omega
        simp [h, h2, h3, hk, h4]
      · have h3 : ¬ start ≤ i := by omega
        simp [h, h2, h3]

theorem memory_mem_ofBytes (bs : List Byte) (start : Nat) (x : Host.Cell) (h : x ∈ Memory.ofBytes start bs) :
    start ≤ x.1 := by
  induction bs generalizing start with
  | nil => simp [Memory.ofBytes] at h
  | cons b bs ih =>
    rcases List.mem_cons.mp h with rfl | h
    · exact Nat.le_refl _
    · exact Nat.le_of_succ_le (ih _ h)

theorem memory_wf_ofBytes (bs : List Byte) (start : Nat) : Memory.wf (Memory.ofBytes start bs) := by
  induction bs generalizing start with
  | nil => exact List.Pairwise.nil
  | cons b bs ih => exact List.pairwise_cons.mpr ⟨fun x hx => memory_mem_ofBytes bs _ x hx, ih _⟩

/-- Every operation over the buffers keeps the canonical form. -/
theorem memory_operations_keep_wf (s : State) (hi : Memory.wf s.ibuf) (ho : Memory.wf s.obuf) :
    (∀ i b, Memory.wf (writeIbuf s i b).ibuf) ∧ (∀ bs n, Memory.wf (writeOutput s bs n).obuf) ∧
    (∀ k c, Memory.wf (raise k c s).ibuf ∧ Memory.wf (raise k c s).obuf) ∧
    Memory.wf (applyReset s).ibuf ∧ Memory.wf (applyReset s).obuf := by
  refine ⟨fun i b => memory_wf_write _ _ _ hi, fun bs n => memory_wf_ofBytes _ _, fun k c => ⟨?_, ?_⟩,
    List.Pairwise.nil, List.Pairwise.nil⟩
  · rw [raise_ibuf]; exact hi
  · rcases c with _ | c
    · exact ho
    · cases c <;> first | exact ho | exact memory_wf_ofBytes _ _

/-- Every operation leaves `OBUF` with a draw taken before the next one, so no draw of `OBUF` is taken twice (log 5). -/
theorem operations_keep_obufDraw_old (s : State) (h : s.obufDraw < s.draws) :
    (complete s).obufDraw < (complete s).draws ∧
    (∀ bs n, s.obufDraw < (complete (writeOutput s bs n)).obufDraw ∧
      (complete (writeOutput s bs n)).obufDraw < (complete (writeOutput s bs n)).draws) ∧
    (∀ k c, s.obufDraw ≤ (raise k c s).obufDraw ∧ (raise k c s).obufDraw < (raise k c s).draws) ∧
    (∀ i b, (writeIbuf s i b).obufDraw < (writeIbuf s i b).draws) ∧
    (∀ v, (writeIlen s v).obufDraw < (writeIlen s v).draws) ∧
    s.obufDraw < (applyReset s).obufDraw ∧ (applyReset s).obufDraw < (applyReset s).draws := by
  have hs : s.obufDraw < s.draws + 1 := by omega
  refine ⟨hs, fun bs n => ⟨h, Nat.lt_succ_self _⟩, fun k c => ?_, fun i b => hs, fun v => hs, hs, Nat.lt_succ_self _⟩
  rcases c with _ | c
  · exact ⟨Nat.le_refl _, hs⟩
  · cases c <;> first | exact ⟨Nat.le_refl _, hs⟩ | exact ⟨Nat.le_of_lt h, Nat.lt_succ_self _⟩

theorem reset_memory_wf : Memory.wf State.reset.ibuf ∧ Memory.wf State.reset.obuf :=
  ⟨List.Pairwise.nil, List.Pairwise.nil⟩

end Sys2Proof.Machine
end

