-- ==== Sys2Proof/Laws/Operands.lean ====
section
/-! SUPPORT. The operand forms and data encodings: one spec lemma per operation. -/

namespace Sys2Proof.Machine

/-! ### symbols and the reverse mapping -/

@[simp] theorem mem_symbols (c : Byte) : c ∈ symbols :=
  List.mem_map.mpr ⟨c.toNat, List.mem_range.mpr c.isLt, by simp⟩

@[simp] theorem symbols_length : symbols.length = 256 := by simp [symbols]

theorem symbols_pairwise : symbols.Pairwise fun c d => c.toNat < d.toNat := by
  refine List.pairwise_map.mpr (List.Pairwise.imp_of_mem ?_ List.pairwise_lt_range)
  intro a b ha hb hab
  rw [List.mem_range] at ha hb
  simp only [BitVec.toNat_ofNat]
  omega

theorem symbols_nodup : symbols.Nodup :=
  symbols_pairwise.imp fun h he => by simp [he] at h

/-- A match is exact equality of the whole candidate with a whole code (R132). -/
theorem codeOf_of_rev {ct : Vector (Option Bits) 256} {x : Bits} {c : Byte} (h : rev ct x = some c) :
    codeOf ct c = some x := by
  simpa using List.find?_some h

theorem rev_eq_none_iff {ct : Vector (Option Bits) 256} {x : Bits} :
    rev ct x = none ↔ ∀ c, codeOf ct c ≠ some x := by
  simp [rev]

/-- In a legal table the reverse mapping is the exact inverse of the forward one (R29). -/
theorem rev_eq_some_iff {ct : Vector (Option Bits) 256} (h : TableOk ct) {x : Bits} {c : Byte} :
    rev ct x = some c ↔ codeOf ct c = some x := by
  refine ⟨codeOf_of_rev, fun hc => ?_⟩
  cases hr : rev ct x with
  | none => exact absurd hc (rev_eq_none_iff.mp hr c)
  | some d => rw [h.prefixFree d c x x (codeOf_of_rev hr) hc (List.prefix_refl x)]

theorem codeBits_of_codeOf {ct : Vector (Option Bits) 256} {c : Byte} {x : Bits} (h : codeOf ct c = some x) :
    codeBits ct c = x := by
  simp [codeBits, h]

/-! ### bits and bytes (R7, R51, R74) -/

@[simp] theorem bin8_length (b : Byte) : (bin8 b).length = 8 := rfl

theorem bin8_getElem (b : Byte) (j : Nat) (h : j < 8) : (bin8 b)[j]'(by simpa using h) = b.getLsbD (7 - j) := by
  match j, h with
  | 0, _ | 1, _ | 2, _ | 3, _ | 4, _ | 5, _ | 6, _ | 7, _ => rfl

/-- `bin8` undoes `val` on eight bits. -/
theorem bin8_ofNat_val (b0 b1 b2 b3 b4 b5 b6 b7 : Bool) :
    bin8 (BitVec.ofNat 8 (val [b0, b1, b2, b3, b4, b5, b6, b7])) = [b0, b1, b2, b3, b4, b5, b6, b7] := by
  revert b0 b1 b2 b3 b4 b5 b6 b7
  decide

/-- `val(bin8(v)) = v` (R7). -/
theorem ofNat_val_bin8 (b : Byte) : BitVec.ofNat 8 (val (bin8 b)) = b := by
  refine BitVec.eq_of_getLsbD_eq fun i hi => ?_
  have h := bin8_ofNat_val (b.getLsbD 7) (b.getLsbD 6) (b.getLsbD 5) (b.getLsbD 4) (b.getLsbD 3) (b.getLsbD 2)
    (b.getLsbD 1) (b.getLsbD 0)
  simp only [bin8, List.cons.injEq, and_true] at h ⊢
  obtain ⟨h7, h6, h5, h4, h3, h2, h1, h0⟩ := h
  match i, hi with
  | 0, _ => exact h0
  | 1, _ => exact h1
  | 2, _ => exact h2
  | 3, _ => exact h3
  | 4, _ => exact h4
  | 5, _ => exact h5
  | 6, _ => exact h6
  | 7, _ => exact h7

@[simp] theorem bitsOfBytes_nil : bitsOfBytes [] = [] := rfl

@[simp] theorem bitsOfBytes_cons (b : Byte) (bs : List Byte) : bitsOfBytes (b :: bs) = bin8 b ++ bitsOfBytes bs := rfl

@[simp] theorem bitsOfBytes_length (bs : List Byte) : (bitsOfBytes bs).length = 8 * bs.length := by
  induction bs with
  | nil => rfl
  | cons b bs ih => simp [ih]; omega

/-- A bit of a byte sequence in stream order is bit 7 − (j mod 8) of byte j div 8 (R51). -/
theorem bitsOfBytes_getElem? (bs : List Byte) (j : Nat) :
    (bitsOfBytes bs)[j]? = bs[j / 8]?.map fun b => b.getLsbD (7 - j % 8) := by
  induction bs generalizing j with
  | nil => simp
  | cons b bs ih =>
    rw [bitsOfBytes_cons]
    by_cases h : j < 8
    · rw [List.getElem?_append_left (by simpa using h), List.getElem?_eq_getElem (by simpa using h),
        bin8_getElem b j h]
      simp [Nat.div_eq_of_lt h, Nat.mod_eq_of_lt h]
    · rw [List.getElem?_append_right (by simpa using h), ih]
      obtain ⟨k, rfl⟩ : ∃ k, j = k + 8 := ⟨j - 8, by omega⟩
      simp

theorem bytesOfBits_cons8 (b0 b1 b2 b3 b4 b5 b6 b7 : Bool) (rest : Bits) :
    bytesOfBits (b0 :: b1 :: b2 :: b3 :: b4 :: b5 :: b6 :: b7 :: rest) =
      BitVec.ofNat 8 (val [b0, b1, b2, b3, b4, b5, b6, b7]) :: bytesOfBits rest := rfl

/-- Slicing the bits of a byte sequence gives the bytes back. -/
@[simp] theorem bytesOfBits_bitsOfBytes (bs : List Byte) : bytesOfBits (bitsOfBytes bs) = bs := by
  induction bs with
  | nil => rfl
  | cons b bs ih =>
    have h : bytesOfBits (bin8 b ++ bitsOfBytes bs) = BitVec.ofNat 8 (val (bin8 b)) :: bytesOfBits (bitsOfBytes bs) := rfl
    rw [bitsOfBytes_cons, h, ih, ofNat_val_bin8]

/-- A bit-string of whole bytes is the bits of its bytes (R74). -/
theorem bitsOfBytes_bytesOfBits (l : Bits) (h : l.length % 8 = 0) : bitsOfBytes (bytesOfBits l) = l := by
  match l, h with
  | [], _ => rfl
  | b0 :: b1 :: b2 :: b3 :: b4 :: b5 :: b6 :: b7 :: rest, h =>
    rw [bytesOfBits_cons8, bitsOfBytes_cons, bin8_ofNat_val,
      bitsOfBytes_bytesOfBits rest (by simp only [List.length_cons] at h; omega)]
    rfl
  | [_], h | [_, _], h | [_, _, _], h | [_, _, _, _], h | [_, _, _, _, _], h | [_, _, _, _, _, _], h
  | [_, _, _, _, _, _, _], h => simp at h

@[simp] theorem bytesOfBits_length (l : Bits) : (bytesOfBits l).length = l.length / 8 := by
  match l with
  | b0 :: b1 :: b2 :: b3 :: b4 :: b5 :: b6 :: b7 :: rest =>
    rw [bytesOfBits_cons8, List.length_cons, bytesOfBits_length rest]
    simp only [List.length_cons]
    omega
  | [] | [_] | [_, _] | [_, _, _] | [_, _, _, _] | [_, _, _, _, _] | [_, _, _, _, _, _]
  | [_, _, _, _, _, _, _] => simp [bytesOfBits]

/-- Byte j of a sliced bit-string is the value of its bits 8j to 8j + 7 (R74). -/
theorem bytesOfBits_getElem? (l : Bits) (j : Nat) :
    (bytesOfBits l)[j]? =
      if 8 * j + 8 ≤ l.length then some (BitVec.ofNat 8 (val ((l.drop (8 * j)).take 8))) else none := by
  match l with
  | b0 :: b1 :: b2 :: b3 :: b4 :: b5 :: b6 :: b7 :: rest =>
    rw [bytesOfBits_cons8]
    cases j with
    | zero => simp
    | succ j =>
      rw [List.getElem?_cons_succ, bytesOfBits_getElem? rest j]
      have h : 8 * (j + 1) = 8 * j + 8 := by omega
      simp [h]
  | [] | [_] | [_, _] | [_, _, _] | [_, _, _, _] | [_, _, _, _, _] | [_, _, _, _, _, _]
  | [_, _, _, _, _, _, _] =>
    rw [if_neg (by simp only [List.length_cons, List.length_nil]; omega)]
    simp [bytesOfBits]

/-! ### the padded stream (R72, R73) -/

theorem padCount_range (n : Nat) : 1 ≤ padCount n ∧ padCount n ≤ 8 := by
  unfold padCount; omega

@[simp] theorem paddedStream_length (bits : Bits) :
    (paddedStream bits).length = 8 + bits.length + padCount bits.length := by
  simp [paddedStream, Nat.add_assoc]

theorem paddedStream_whole_bytes (bits : Bits) : (paddedStream bits).length % 8 = 0 := by
  rw [paddedStream_length]; unfold padCount; omega

/-- The byte count of a packed sequence, 2 + (L div 8) (R74). -/
theorem packed_length (bits : Bits) : (bytesOfBits (paddedStream bits)).length = 2 + bits.length / 8 := by
  rw [bytesOfBits_length, paddedStream_length]; unfold padCount; omega

/-! ### concatenated codes -/

theorem concatCodes_of_allCoded {ct : Vector (Option Bits) 256} {bs : List Byte} (h : AllCoded ct bs) :
    concatCodes ct bs = some (bs.flatMap (codeBits ct)) := by
  induction bs with
  | nil => rfl
  | cons b bs ih =>
    obtain ⟨c, hc⟩ := Option.ne_none_iff_exists'.mp (h b List.mem_cons_self)
    have hr := ih fun x hx => h x (List.mem_cons_of_mem _ hx)
    simp only [concatCodes, hc, hr, List.flatMap_cons, codeBits_of_codeOf hc]

theorem concatCodes_eq_none_iff {ct : Vector (Option Bits) 256} {bs : List Byte} :
    concatCodes ct bs = none ↔ ¬ AllCoded ct bs := by
  refine ⟨fun h ha => by simp [concatCodes_of_allCoded ha] at h, fun h => ?_⟩
  induction bs with
  | nil => exact absurd (fun _ hb => nomatch hb) h
  | cons b bs ih =>
    simp only [concatCodes]
    cases hc : codeOf ct b with
    | none => rfl
    | some c =>
      have : ¬ AllCoded ct bs := fun ha => h fun x hx => by
        rcases List.mem_cons.mp hx with rfl | hx
        · simp [hc]
        · exact ha x hx
      simp [ih this]

/-! ### input and slots -/

@[simp] theorem inputBytes_length (s : State) : (inputBytes s).length = s.ilen.toNat := by simp [inputBytes]

theorem inputBytes_getElem? (s : State) (i : Nat) :
    (inputBytes s)[i]? = if i < s.ilen.toNat then some (ibufByte s i) else none := by
  by_cases h : i < s.ilen.toNat <;> simp [inputBytes, h]

/-- A byte the host wrote is read as it was written. -/
theorem ibufByte_of_read {s : State} {i : Nat} {b : Byte} (h : Memory.read s.ibuf i = some b) : ibufByte s i = b := by
  simp [ibufByte, h]

theorem obufByte_of_read {s : State} {i : Nat} {b : Byte} (h : Memory.read s.obuf i = some b) : obufByte s i = b := by
  simp [obufByte, h]

theorem slot_some {s : State} {k : Nat} {n : TreeNode} (h : slot s k = some n) :
    k < s.nnode.toNat ∧ s.node[k]? = some n := by
  unfold slot at h
  split at h
  · exact ⟨‹_›, h⟩
  · cases h

theorem slot_of_lt {s : State} {k : Nat} (h : k < s.nnode.toNat) : slot s k = s.node[k]? := if_pos h

theorem slot_of_le {s : State} {k : Nat} (h : s.nnode.toNat ≤ k) : slot s k = none := if_neg (by omega)

/-- The slots a state shows depend on `NODE` and `NNODE` alone. -/
theorem slot_congr {s t : State} (hn : s.node = t.node) (hk : s.nnode = t.nnode) (k : Nat) : slot s k = slot t k := by
  simp only [slot, hn, hk]

end Sys2Proof.Machine
end

