-- ==== Sys2Proof/Laws/Units.lean ====
section
/-! SUPPORT. The units: one spec lemma per shared operation, and one lemma per command that says once everything it can
answer. -/

namespace Sys2Proof.Machine

/-! ### the priority queue (R101, R102) -/

theorem removedBefore_iff (tie : Tie) (x y : QueueEntry) :
    removedBefore tie x y = true ↔
      x.freq.toNat < y.freq.toNat ∨ (x.freq.toNat = y.freq.toNat ∧ tieRank tie x.idx < tieRank tie y.idx) := by
  simp [removedBefore, BitVec.toNat_inj]

theorem removedBefore_asymm {tie : Tie} {x y : QueueEntry} (h : removedBefore tie x y = true) :
    removedBefore tie y x = false := by
  rw [← Bool.not_eq_true, removedBefore_iff]
  rw [removedBefore_iff] at h
  omega

/-- Not being removed before is transitive. -/
theorem removedBefore_false_trans {tie : Tie} {x y z : QueueEntry} (hxy : removedBefore tie x y = false)
    (hyz : removedBefore tie y z = false) : removedBefore tie x z = false := by
  rw [← Bool.not_eq_true, removedBefore_iff] at *
  omega

theorem takeLeast_eq_none {tie : Tie} {q : List QueueEntry} : takeLeast tie q = none ↔ q = [] := by
  cases q with
  | nil => simp [takeLeast]
  | cons e q =>
    simp only [takeLeast, reduceCtorEq, iff_false]
    split
    · simp
    · split <;> simp

/-- Taking the least entry: it and the rest are the queue, and nothing in the rest comes before it. -/
theorem takeLeast_spec {tie : Tie} {q : List QueueEntry} {m : QueueEntry} {rest : List QueueEntry}
    (h : takeLeast tie q = some (m, rest)) :
    (m :: rest).Perm q ∧ ∀ e ∈ rest, removedBefore tie e m = false := by
  induction q generalizing m rest with
  | nil => simp [takeLeast] at h
  | cons e q ih =>
    simp only [takeLeast] at h
    split at h
    · next hn =>
      obtain ⟨rfl, rfl⟩ := Prod.mk.inj (Option.some.inj h)
      simp [takeLeast_eq_none.mp hn]
    · next m' rest' hm =>
      obtain ⟨hp, hl⟩ := ih hm
      split at h
      · next hb =>
        obtain ⟨rfl, rfl⟩ := Prod.mk.inj (Option.some.inj h)
        refine ⟨(List.Perm.swap _ _ _).trans (hp.cons e), fun x hx => ?_⟩
        rcases List.mem_cons.mp hx with rfl | hx
        · exact removedBefore_asymm hb
        · exact hl x hx
      · next hb =>
        obtain ⟨rfl, rfl⟩ := Prod.mk.inj (Option.some.inj h)
        refine ⟨List.Perm.refl _, fun x hx => ?_⟩
        have hme : removedBefore tie m' e = false := by simpa using hb
        rcases List.mem_cons.mp (hp.mem_iff.mpr hx) with rfl | hx
        · exact hme
        · exact removedBefore_false_trans (hl x hx) hme

theorem takeLeast_length {tie : Tie} {q : List QueueEntry} {m : QueueEntry} {rest : List QueueEntry}
    (h : takeLeast tie q = some (m, rest)) : q.length = rest.length + 1 := by
  simpa using (takeLeast_spec h).1.length_eq.symm

/-- The loop runs until one entry is left: it adds one node per round (R101). -/
theorem mergeLoop_lengths (tie : Tie) (fuel : Nat) (arena : List TreeNode) (q : List QueueEntry)
    (hq : 1 ≤ q.length) (hf : q.length ≤ fuel + 1) :
    (mergeLoop tie fuel arena q).1.length = arena.length + (q.length - 1) ∧
    (mergeLoop tie fuel arena q).2.length = 1 := by
  induction fuel generalizing arena q with
  | zero => simp only [mergeLoop]; omega
  | succ fuel ih =>
    simp only [mergeLoop]
    split
    · next h => simp [takeLeast_eq_none.mp h] at hq
    · next a q1 ha =>
      have hl1 := takeLeast_length ha
      split
      · next hb =>
        have : q1.length = 0 := by simp [takeLeast_eq_none.mp hb]
        simp only
        omega
      · next b q2 hb =>
        have hl2 := takeLeast_length hb
        have := ih (arena ++ [mergeNode a b]) (q2 ++ [{ idx := arena.length, freq := a.freq + b.freq }])
          (by simp) (by simp only [List.length_append, List.length_cons, List.length_nil]; omega)
        simp only [List.length_append, List.length_cons, List.length_nil] at this
        omega

/-- The loop only adds nodes: the arena it was given stays in place. -/
theorem mergeLoop_prefix (tie : Tie) (fuel : Nat) (arena : List TreeNode) (q : List QueueEntry) :
    arena <+: (mergeLoop tie fuel arena q).1 := by
  induction fuel generalizing arena q with
  | zero => exact List.prefix_refl _
  | succ fuel ih =>
    simp only [mergeLoop]
    split
    · exact List.prefix_refl _
    · split
      · exact List.prefix_refl _
      · exact (List.prefix_append _ _).trans (ih _ _)

/-! ### leaves and slots (R101, R103) -/

/-- There is one leaf per present symbol. -/
theorem leaves_length (ft : Vector Word 256) : (leaves ft).length = nsym ft := by
  unfold leaves nsym
  generalize symbols = l
  induction l with
  | nil => rfl
  | cons c l ih =>
    rw [List.filterMap_cons, List.countP_cons]
    by_cases h : ft[c.toNat] = 0
    · simp only [if_pos h]; simpa [h] using ih
    · simp only [if_neg h, List.length_cons, ih]; simpa using h

theorem nsym_le (ft : Vector Word 256) : nsym ft ≤ 256 := by
  have := List.countP_le_length (p := fun c : Byte => ft[c.toNat] != 0) (l := symbols)
  simpa [nsym] using this

/-- The empty table (R26): no symbol is present. -/
theorem nsym_eq_zero_iff (ft : Vector Word 256) : nsym ft = 0 ↔ ∀ c : Byte, ft[c.toNat] = 0 := by
  simp [nsym, List.countP_eq_zero]

theorem buildArena_lengths (tie : Tie) (ft : Vector Word 256) (h : nsym ft ≠ 0) :
    (buildArena tie ft).1.length = 2 * nsym ft - 1 ∧ (buildArena tie ft).2.length = 1 := by
  have hl := leaves_length ft
  have hq : (queueOf (leaves ft)).length = nsym ft := by simp [queueOf, hl]
  have := mergeLoop_lengths tie (leaves ft).length (leaves ft) (queueOf (leaves ft)) (by omega) (by omega)
  simp only [buildArena]
  omega

/-- Slot j after the arena is written from slot k on. -/
theorem writeSlots_getElem? (arena : List TreeNode) (v : Vector TreeNode 511) (k j : Nat)
    (h : k + arena.length ≤ 511) :
    (writeSlots k arena v)[j]? = if k ≤ j ∧ j < k + arena.length then arena[j - k]? else v[j]? := by
  induction arena generalizing k v with
  | nil =>
    simp only [writeSlots, List.length_nil]
    rw [if_neg (by omega)]
  | cons n arena ih =>
    simp only [List.length_cons] at h ⊢
    rw [writeSlots, ih _ _ (by omega)]
    by_cases h1 : k + 1 ≤ j ∧ j < k + 1 + arena.length
    · obtain ⟨i, hi⟩ : ∃ i, j - k = i + 1 := ⟨j - k - 1, by omega⟩
      have hi2 : j - (k + 1) = i := by omega
      rw [if_pos h1, if_pos (by omega), hi, hi2, List.getElem?_cons_succ]
    · rw [if_neg h1, Vector.getElem?_setIfInBounds]
      by_cases h2 : j = k
      · subst h2
        simp
        omega
      · rw [if_neg (by omega), if_neg (by omega)]

/-! ### the code table (R111) -/

theorem codeOf_set (ct : Vector (Option Bits) 256) (c d : Byte) (x : Option Bits) :
    codeOf (ct.set c.toNat x) d = if d = c then x else codeOf ct d := by
  unfold codeOf
  rw [Vector.getElem_set]
  by_cases h : d = c
  · simp [h]
  · have : ¬ c.toNat = d.toNat := fun he => h (BitVec.eq_of_toNat_eq he.symm)
    simp [h, this]

@[simp] theorem codeOf_replicate (c : Byte) : codeOf (Vector.replicate 256 none) c = none := by
  simp [codeOf]

theorem codeOf_foldl_set (codes : List (Byte × Bits)) (ct : Vector (Option Bits) 256) (c : Byte)
    (h : c ∉ codes.map Prod.fst) :
    codeOf (codes.foldl (fun ct x => ct.set x.1.toNat (some x.2)) ct) c = codeOf ct c := by
  induction codes generalizing ct with
  | nil => rfl
  | cons x codes ih =>
    rw [List.map_cons, List.mem_cons, not_or] at h
    rw [List.foldl_cons, ih _ h.2, codeOf_set, if_neg h.1]

/-- The filled table holds exactly the codes recorded, each symbol being recorded once. -/
theorem codeOf_fillTable {codes : List (Byte × Bits)} (hn : (codes.map Prod.fst).Nodup) (c : Byte) (x : Bits) :
    codeOf (fillTable codes) c = some x ↔ (c, x) ∈ codes := by
  unfold fillTable
  generalize hct : Vector.replicate 256 none = ct
  have hnone : codeOf ct c = none := by rw [← hct]; simp
  clear hct
  induction codes generalizing ct with
  | nil => simp [hnone]
  | cons y codes ih =>
    rw [List.map_cons, List.nodup_cons] at hn
    rw [List.foldl_cons, List.mem_cons]
    by_cases hc : c = y.1
    · subst hc
      rw [codeOf_foldl_set _ _ _ hn.1, codeOf_set, if_pos rfl]
      have : ¬ (y.1, x) ∈ codes := fun hm => hn.1 (List.mem_map.mpr ⟨_, hm, rfl⟩)
      constructor
      · intro h; exact .inl (by rw [← Option.some.inj h])
      · rintro (h | h)
        · rw [← h]
        · exact absurd h this
    · have hs : codeOf (ct.set y.1.toNat (some y.2)) c = none := by rw [codeOf_set, if_neg hc, hnone]
      refine (ih hn.2 _ hs).trans ?_
      constructor
      · exact .inr
      · rintro (h | h)
        · exact absurd (congrArg Prod.fst h) hc
        · exact h

/-! ### what each command can answer -/

theorem execAnalyze_cases {s t : State} (h : execAnalyze s = .next t) :
    (inputAvailable s = true ∧ t = complete { s with ft := countBytes (inputBytes s) }) ∨
    (inputAvailable s = false ∧ t = raise .inputUnavailable (some .analyze) s) := by
  unfold execAnalyze at h
  split at h
  · exact .inl ⟨‹_›, (Host.Outcome.next.inj h).symm⟩
  · exact .inr ⟨Bool.eq_false_iff.mpr ‹_›, (Host.Outcome.next.inj h).symm⟩

theorem execBuild_cases {s t : State} (h : execBuild s = .next t) :
    (nsym s.ft = 0 ∧ t = raise .emptyAlphabet (some .build) s) ∨
    (nsym s.ft ≠ 0 ∧ t = complete { s with
      node := writeSlots 0 (buildArena s.params.tie s.ft).1 s.node
      nnode := BitVec.ofNat 9 (buildArena s.params.tie s.ft).1.length
      root := BitVec.ofNat 9 (rootIndex (buildArena s.params.tie s.ft).2) }) := by
  unfold execBuild at h
  split at h
  · exact .inl ⟨‹_›, (Host.Outcome.next.inj h).symm⟩
  · exact .inr ⟨‹_›, (Host.Outcome.next.inj h).symm⟩

theorem execGencodes_cases {s t : State} (h : execGencodes s = .next t) :
    (s.nnode = 0 ∧ t = raise .noTree (some .gencodes) s) ∨
    (s.nnode ≠ 0 ∧ ∃ codes, treeCodes s = some codes ∧ t = complete { s with ct := fillTable codes }) := by
  unfold execGencodes at h
  split at h
  · exact .inl ⟨‹_›, (Host.Outcome.next.inj h).symm⟩
  · split at h
    · cases h
    · exact .inr ⟨‹_›, _, ‹_›, (Host.Outcome.next.inj h).symm⟩

theorem execPack_cases {s t : State} (h : execPack s = .next t) :
    (inputAvailable s = false ∧ t = raise .inputUnavailable (some .pack) s) ∨
    (inputAvailable s = true ∧ ¬ AllCoded s.ct (inputBytes s) ∧ t = raise .missingCode (some .pack) s) ∨
    (inputAvailable s = true ∧ AllCoded s.ct (inputBytes s) ∧ ∃ bits, bits = (inputBytes s).flatMap (codeBits s.ct) ∧
      ((2 + bits.length / 8 ≤ s.params.obufCap ∧
          t = complete (writeOutput s (bytesOfBits (paddedStream bits)) bits.length)) ∨
       (s.params.obufCap < 2 + bits.length / 8 ∧ t = raise .outputUnavailable (some .pack) s))) := by
  unfold execPack at h
  split at h
  · next ha =>
    split at h
    · next hc => exact .inr (.inl ⟨ha, concatCodes_eq_none_iff.mp hc, (Host.Outcome.next.inj h).symm⟩)
    · next bits hc =>
      have hall : AllCoded s.ct (inputBytes s) := by
        by_contra hn
        rw [concatCodes_eq_none_iff.mpr hn] at hc
        cases hc
      have hb : bits = (inputBytes s).flatMap (codeBits s.ct) := by
        rw [concatCodes_of_allCoded hall] at hc
        exact (Option.some.inj hc).symm
      rw [packed_length] at h
      refine .inr (.inr ⟨ha, hall, bits, hb, ?_⟩)
      split at h
      · exact .inl ⟨‹_›, (Host.Outcome.next.inj h).symm⟩
      · exact .inr ⟨by omega, (Host.Outcome.next.inj h).symm⟩
  · exact .inl ⟨Bool.eq_false_iff.mpr ‹_›, (Host.Outcome.next.inj h).symm⟩

theorem unpackStream_cases (s : State) (header : Byte) (rest : List Byte) :
    (8 * rest.length < header.toNat ∧ unpackStream s header rest = raise .malformedStream (some .unpack) s) ∨
    (header.toNat ≤ 8 * rest.length ∧
      ∃ n out cand, n = 8 * rest.length - header.toNat ∧ scanCodes s.ct [] ((bitsOfBytes rest).take n) = (out, cand) ∧
      ((cand ≠ [] ∧ unpackStream s header rest = raise .malformedStream (some .unpack) s) ∨
       (cand = [] ∧ s.params.obufCap < out.length ∧
          unpackStream s header rest = raise .outputUnavailable (some .unpack) s) ∨
       (cand = [] ∧ out.length ≤ s.params.obufCap ∧
          unpackStream s header rest = complete (writeOutput s out n)))) := by
  unfold unpackStream
  by_cases h : header.toNat ≤ 8 * rest.length
  · refine .inr ⟨h, 8 * rest.length - header.toNat, _, _, rfl, rfl, ?_⟩
    simp only [if_pos h]
    by_cases hc : (scanCodes s.ct [] ((bitsOfBytes rest).take (8 * rest.length - header.toNat))).2 = []
    · rw [if_pos hc]
      by_cases hl : (scanCodes s.ct [] ((bitsOfBytes rest).take (8 * rest.length - header.toNat))).1.length
          ≤ s.params.obufCap
      · exact .inr (.inr ⟨hc, hl, if_pos hl⟩)
      · exact .inr (.inl ⟨hc, by omega, if_neg hl⟩)
    · exact .inl ⟨hc, if_neg hc⟩
  · exact .inl ⟨by omega, if_neg h⟩

theorem execUnpack_cases {s t : State} (h : execUnpack s = .next t) :
    (inputAvailable s = false ∧ t = raise .inputUnavailable (some .unpack) s) ∨
    (inputAvailable s = true ∧ inputBytes s = [] ∧ t = raise .malformedStream (some .unpack) s) ∨
    (inputAvailable s = true ∧ ∃ header rest, inputBytes s = header :: rest ∧ t = unpackStream s header rest) := by
  unfold execUnpack at h
  split at h
  · next ha =>
    split at h
    · exact .inr (.inl ⟨ha, ‹_›, (Host.Outcome.next.inj h).symm⟩)
    · exact .inr (.inr ⟨ha, _, _, ‹_›, (Host.Outcome.next.inj h).symm⟩)
  · exact .inl ⟨Bool.eq_false_iff.mpr ‹_›, (Host.Outcome.next.inj h).symm⟩

/-- Every command but GENCODES answers a next state, whatever the state. -/
theorem exec_answers_next (i : Instr) (s : State) (h : i ≠ .gencodes) : ∃ t, exec i s = .next t := by
  cases i with
  | gencodes => exact absurd rfl h
  | analyze =>
    show ∃ t, execAnalyze s = .next t
    unfold execAnalyze
    split <;> exact ⟨_, rfl⟩
  | build =>
    show ∃ t, execBuild s = .next t
    unfold execBuild
    split <;> exact ⟨_, rfl⟩
  | pack =>
    show ∃ t, execPack s = .next t
    unfold execPack
    split
    · split
      · exact ⟨_, rfl⟩
      · split <;> exact ⟨_, rfl⟩
    · exact ⟨_, rfl⟩
  | unpack =>
    show ∃ t, execUnpack s = .next t
    unfold execUnpack
    split
    · split <;> exact ⟨_, rfl⟩
    · exact ⟨_, rfl⟩
  | clrerr => exact ⟨_, rfl⟩

/-- GENCODES answers a next state where there is no tree, or a tree its walk comes to the end of. -/
theorem execGencodes_answers_next {s : State} (h : s.nnode = 0 ∨ ∃ codes, treeCodes s = some codes) :
    ∃ t, execGencodes s = .next t := by
  unfold execGencodes
  split
  · exact ⟨_, rfl⟩
  · rcases h with h | ⟨codes, h⟩
    · contradiction
    · rw [h]; exact ⟨_, rfl⟩

end Sys2Proof.Machine
end

