-- ==== Sys2Proof/Laws/Step.lean ====
section
/-! SUPPORT. The port and command issue: what a step can do, said once. -/

namespace Sys2Proof.Machine

/-! ### the address map (R43) -/

@[simp] theorem locate_commandWrite (p : Params) (w : Word) : locate p (commandWrite w) = some (.reg 1) := by
  simp [locate, wordLocation, commandWrite, registerWrite]

@[simp] theorem locate_setlen (p : Params) (v : Word) : locate p (registerWrite 0x00000010 v) = some (.reg 4) := by
  simp [locate, wordLocation, registerWrite]

theorem locate_ibuf (p : Params) (t : Transfer) (i : Nat) (hw : t.word = false)
    (ha : t.addr.toNat = 0x01000000 + i) (hi : i < p.ibufCap) : locate p t = some (.ibuf i) := by
  unfold locate byteLocation
  rw [hw, ha]
  simp only [Bool.false_eq_true, if_false]
  rw [if_pos (by omega), Nat.add_sub_cancel_left]

/-- An element of `IBUF` that the map reaches lies inside the buffer. -/
theorem locate_ibuf_inside {p : Params} {t : Transfer} {i : Nat} (h : locate p t = some (.ibuf i)) : i < p.ibufCap := by
  unfold locate at h
  split at h
  · unfold wordLocation at h
    repeat (split at h; · cases h)
    cases h
  · unfold byteLocation at h
    split at h
    · next hr =>
      have := Location.ibuf.inj (Option.some.inj h)
      omega
    · split at h <;> cases h

/-! ### acceptance (R63, R186) -/

theorem serveEarly_eq (acts : List HostAct) (n : Nat) (s : State) (h : s.inbox = acts) :
    ∃ left more, left <:+ acts ∧ serveEarly acts n s = { s with inbox := left, answers := s.answers ++ more } := by
  induction acts generalizing n s with
  | nil => exact ⟨[], [], List.suffix_refl _, by cases n <;> simp [serveEarly, ← h]⟩
  | cons a acts ih =>
    have hstay : ∃ left more, left <:+ a :: acts ∧ s = { s with inbox := left, answers := s.answers ++ more } :=
      ⟨a :: acts, [], List.suffix_refl _, by simp [← h]⟩
    cases a with
    | access t => simpa [serveEarly] using hstay
    | rst => simpa [serveEarly] using hstay
    | early t =>
      cases n with
      | zero => simpa [serveEarly] using hstay
      | succ n =>
        obtain ⟨left, more, hl, he⟩ := ih n (busyAccess { s with inbox := acts } t) rfl
        refine ⟨left, busyAnswer { s with inbox := acts } t :: more, hl.trans (List.suffix_cons _ _), ?_⟩
        simp only [serveEarly, he]
        simp [busyAccess, answer]

/-- Acceptance sets `BUSY`, and takes from the host's acts some early transfers, answering each; nothing else. -/
theorem accept_eq (s : State) :
    ∃ left more, left <:+ s.inbox ∧ accept s = { s with busy := true, inbox := left, answers := s.answers ++ more } :=
  serveEarly_eq s.inbox (Config.cmdLatency s.draws) { s with busy := true } rfl

/-- Without early transfers acceptance only sets `BUSY`. -/
theorem accept_of_no_early (s : State) (h : ∀ t acts, s.inbox ≠ .early t :: acts) : accept s = { s with busy := true } := by
  unfold accept
  cases hi : s.inbox with
  | nil => simp [serveEarly]
  | cons a acts =>
    cases a with
    | early t => exact absurd hi (h t acts)
    | access t => simp [serveEarly]
    | rst => simp [serveEarly]

/-! ### command issue (R63) -/

/-- Everything a write to `REG.CMD` can come to. -/
theorem issue_cases (w : Word) (s : State) :
    (s.busy = true ∧ issue w s = .next s) ∨
    (s.busy = false ∧ s.err ≠ none ∧ w = 6 ∧ issue w s = exec .clrerr s) ∨
    (s.busy = false ∧ s.err ≠ none ∧ w ≠ 6 ∧ issue w s = .next s) ∨
    (s.busy = false ∧ s.err = none ∧ (∃ e, decode w = .error e) ∧
      issue w s = .next (raise .illegalCommand none s)) ∨
    (s.busy = false ∧ s.err = none ∧ ∃ i, decode w = .ok i ∧ issue w s = exec i (accept s)) := by
  unfold issue
  by_cases hb : s.busy = true
  · exact .inl ⟨hb, if_pos hb⟩
  · rw [if_neg hb]
    have hb : s.busy = false := Bool.eq_false_iff.mpr hb
    by_cases he : s.err = none
    · rw [if_neg (by simp [he])]
      cases hd : decode w with
      | error e => exact .inr (.inr (.inr (.inl ⟨hb, he, ⟨e, rfl⟩, rfl⟩)))
      | ok i => exact .inr (.inr (.inr (.inr ⟨hb, he, i, rfl, rfl⟩)))
    · rw [if_pos (Option.isSome_iff_ne_none.mpr he)]
      by_cases hw : w = 0x00000006
      · exact .inr (.inl ⟨hb, he, hw, if_pos hw⟩)
      · exact .inr (.inr (.inl ⟨hb, he, hw, if_neg hw⟩))

/-! ### one step (R53, R171) -/

theorem step_idle (s : State) (h : s.inbox = []) : step s = .next s := by
  simp [step, portStep, h]

theorem step_act (s : State) (a : HostAct) (acts : List HostAct) (h : s.inbox = a :: acts) :
    step s = hostAct { s with inbox := acts, answers := [] } a := by
  simp [step, portStep, h]

theorem step_rst (s : State) (acts : List HostAct) (h : s.inbox = .rst :: acts) :
    step s = .next (State.resetWith s.params (s.draws + 1) acts) := by
  rw [step_act s _ _ h]; rfl

/-- A transfer as the host's next act, met by an idle core; an early one is no different. -/
theorem step_transfer_idle (s : State) (t : Transfer) (acts : List HostAct)
    (h : s.inbox = .access t :: acts ∨ s.inbox = .early t :: acts) (hb : s.busy = false) :
    step s = idleAccess { s with inbox := acts, answers := [] } t := by
  have ha : access { s with inbox := acts, answers := [] } t = idleAccess { s with inbox := acts, answers := [] } t :=
    if_neg (by simp [hb])
  rcases h with h | h <;> rw [step_act s _ _ h] <;> exact ha

/-- A transfer as the host's next act, met by a busy core (R186). -/
theorem step_transfer_busy (s : State) (t : Transfer) (acts : List HostAct)
    (h : s.inbox = .access t :: acts ∨ s.inbox = .early t :: acts) (hb : s.busy = true) :
    step s = .next (busyAccess { s with inbox := acts, answers := [] } t) := by
  have ha : access { s with inbox := acts, answers := [] } t =
      .next (busyAccess { s with inbox := acts, answers := [] } t) := if_pos (by simp [hb])
  rcases h with h | h <;> rw [step_act s _ _ h] <;> exact ha

/-- Everything a transfer to an idle core can come to (R42): a bus error, a read, a command write, a write of `ILEN`, a write
of a byte of `IBUF`. -/
theorem idleAccess_cases (s : State) (t : Transfer) :
    (idleAccess s t = .next (answer s (busError t)) ∧
      (locate s.params t = none ∨ ∃ l, locate s.params t = some l ∧ t.write = true ∧ writable l = false)) ∨
    (t.write = false ∧ ∃ l, locate s.params t = some l ∧
      idleAccess s t = .next (answer s (readData (readLocation s l)))) ∨
    (t.write = true ∧ locate s.params t = some (.reg 1) ∧ idleAccess s t = issue t.wdata (answer s writeDone)) ∨
    (t.write = true ∧ locate s.params t = some (.reg 4) ∧
      idleAccess s t = .next (writeIlen (answer s writeDone) t.wdata)) ∨
    (t.write = true ∧ ∃ i, locate s.params t = some (.ibuf i) ∧
      idleAccess s t = .next (writeIbuf (answer s writeDone) i (t.wdata.setWidth 8))) := by
  unfold idleAccess
  cases hl : locate s.params t with
  | none => exact .inl ⟨rfl, .inl rfl⟩
  | some l =>
    by_cases hw : t.write = true
    · simp only [if_pos hw]
      cases l with
      | ibuf i => exact .inr (.inr (.inr (.inr ⟨hw, i, rfl, rfl⟩)))
      | ft c => exact .inl ⟨rfl, .inr ⟨_, rfl, hw, rfl⟩⟩
      | node k w => exact .inl ⟨rfl, .inr ⟨_, rfl, hw, rfl⟩⟩
      | ct c w => exact .inl ⟨rfl, .inr ⟨_, rfl, hw, rfl⟩⟩
      | obuf i => exact .inl ⟨rfl, .inr ⟨_, rfl, hw, rfl⟩⟩
      | reg n =>
        by_cases h1 : n = 1
        · subst h1; exact .inr (.inr (.inl ⟨hw, rfl, rfl⟩))
        · by_cases h4 : n = 4
          · subst h4; exact .inr (.inr (.inr (.inl ⟨hw, rfl, rfl⟩)))
          · refine .inl ⟨?_, .inr ⟨_, rfl, hw, by simp [writable, h1, h4]⟩⟩
            unfold writeLocation
            split
            · exact absurd (Location.reg.inj ‹_›) h1
            · exact absurd (Location.reg.inj ‹_›) h4
            · cases ‹Location.reg n = Location.ibuf _›
            · rfl
    · exact .inr (.inl ⟨Bool.eq_false_iff.mpr hw, l, rfl, if_neg hw⟩)

/-- A write to `REG.CMD` as the host's next act is command issue. -/
theorem step_command (s : State) (w : Word) (acts : List HostAct) (h : s.inbox = .access (commandWrite w) :: acts)
    (hb : s.busy = false) : step s = issue w (answered s acts writeDone) := by
  rw [step_transfer_idle s _ acts (.inl h) hb]
  unfold idleAccess
  rw [locate_commandWrite]
  rfl

end Sys2Proof.Machine
end

