-- ==== Sys2Proof/Laws/Decode.lean ====
section
/-! SUPPORT. The command word: its fields, and the word of each command. -/

namespace Sys2Proof

theorem opcField_encode (i : Instr) : opcField (encode i) = opcodeOf i := by cases i <;> decide

theorem rsvField_encode (i : Instr) : rsvField (encode i) = 0 := by cases i <;> decide

/-- A word is its two fields (R61). -/
theorem word_eq_fields (w : Word) : rsvField w ++ opcField w = w := by
  refine BitVec.eq_of_getLsbD_eq fun j hj => ?_
  rw [BitVec.getLsbD_append]
  by_cases h : j < 8
  · simp [opcField, h]
  · have h2 : j - 8 < 24 := by omega
    have h3 : 8 + (j - 8) = j := by omega
    simp [rsvField, h, h2, h3]

end Sys2Proof
end

