-- ==== Sys2Proof/Laws/PerInstr.lean ====
section
/-! SUPPORT. Statements made per command: the family Encoding, one lemma per constructor. -/

namespace Sys2Proof.Laws.Encoding

/-- A command is well formed, its word is its opcode under a zero `RSV` (R61), and the decoder reads it back. -/
def Statement (i : Instr) : Prop :=
  i.wellFormed = true ∧ rsvField (encode i) = 0 ∧ opcField (encode i) = opcodeOf i ∧ decode (encode i) = .ok i

theorem analyze : Statement .analyze := ⟨rfl, rsvField_encode _, opcField_encode _, rfl⟩

theorem build : Statement .build := ⟨rfl, rsvField_encode _, opcField_encode _, rfl⟩

theorem gencodes : Statement .gencodes := ⟨rfl, rsvField_encode _, opcField_encode _, rfl⟩

theorem pack : Statement .pack := ⟨rfl, rsvField_encode _, opcField_encode _, rfl⟩

theorem unpack : Statement .unpack := ⟨rfl, rsvField_encode _, opcField_encode _, rfl⟩

theorem clrerr : Statement .clrerr := ⟨rfl, rsvField_encode _, opcField_encode _, rfl⟩

end Sys2Proof.Laws.Encoding
end

