-- ==== Sys2Proof/Certificates/Slice0/Obligations.lean ====
section
/-! DEFINITION. The statements for the provers, in the order of the spec's files. Every one is about the machine; none is
about a program. `draws` and `obufDraw` are the model's own fields (log 4, log 5): no statement rests on their values, and one says how they
advance. -/

open Sys2Proof Sys2Proof.Machine

/-! ### Command words (30_encoding.md) -/

/-- R62: "the full command words are `0x00000001` to `0x00000006`". -/
def Obligations.CommandWordsAreOneToSix : Prop :=
  (∀ o : BitVec 8, decode ((0 : BitVec 24) ++ o) =
    if o = 0x01 then .ok .analyze
    else if o = 0x02 then .ok .build
    else if o = 0x03 then .ok .gencodes
    else if o = 0x04 then .ok .pack
    else if o = 0x05 then .ok .unpack
    else if o = 0x06 then .ok .clrerr
    else .error .noSuchOpcode) ∧
  decode 0x00000001 = .ok .analyze ∧ decode 0x00000002 = .ok .build ∧ decode 0x00000003 = .ok .gencodes ∧
  decode 0x00000004 = .ok .pack ∧ decode 0x00000005 = .ok .unpack ∧ decode 0x00000006 = .ok .clrerr

/-- R61, R62, R64: the decoder reads a command from a word exactly when the word is that command's. -/
def Obligations.DecodingInvertsEncoding : Prop :=
  ∀ (w : Word) (i : Instr), decode w = .ok i ↔ w = encode i

/-- R64: "Every word not in `0x00000001` to `0x00000006` is illegal". -/
def Obligations.EveryOtherWordIsIllegal : Prop :=
  ∀ w : Word, (∃ e, decode w = .error e) ↔ (w.toNat = 0 ∨ 6 < w.toNat)

/-! ### The step and command issue (20_memory.md, 30_encoding.md) -/

/-- R42, R60, R63: a command word written to an idle, unfaulted core is decoded and that command runs; what the step adds is the
port's answer, `BUSY`, and the early transfers that meet the busy core. -/
def Obligations.StepRunsTheDecodedCommand : Prop :=
  (∀ (s : State) (w : Word) (i : Instr) (acts : List HostAct),
    s.inbox = .access (commandWrite w) :: acts → s.busy = false → s.err = none → decode w = .ok i →
    step s = exec i (accept (answered s acts writeDone)) ∧
    ((∀ t rest, acts ≠ .early t :: rest) → step s = exec i { answered s acts writeDone with busy := true })) ∧
  (∀ (s : State) (w : Nat) (i : Instr), s.busy = false → s.err = none → decodeTableWord 32 w = some i →
    step (s.withFetchWord 32 w) = exec i (accept (answered s s.inbox writeDone)))

/-- R63, the cases of command issue. Two of them rest on the model's reading. In the fault state CLRERR runs without `BUSY`, so an
early transfer behind it meets an idle core: DEDUCED from R63's pseudocode, log 16. What `accept` does beside setting `BUSY`, the
early transfers that meet the busy core, is the model's choice, log 3. -/
def Obligations.CommandIssueFollowsItsOrder : Prop :=
  ∀ (s : State) (w : Word) (acts : List HostAct), s.inbox = .access (commandWrite w) :: acts →
    (s.busy = true → step s = .next (answered s acts writeDone)) ∧
    (s.busy = false → s.err ≠ none → w = 0x00000006 → step s = exec .clrerr (answered s acts writeDone)) ∧
    (s.busy = false → s.err ≠ none → w ≠ 0x00000006 → step s = .next (answered s acts writeDone)) ∧
    (s.busy = false → s.err = none → (w.extractLsb' 8 24 ≠ 0 ∨ w.extractLsb' 0 8 = 0 ∨ 7 ≤ (w.extractLsb' 0 8).toNat) →
      step s = .next { answered s acts writeDone with err := some .illegalCommand, draws := s.draws + 1 }) ∧
    (s.busy = false → s.err = none →
      ¬ (w.extractLsb' 8 24 ≠ 0 ∨ w.extractLsb' 0 8 = 0 ∨ 7 ≤ (w.extractLsb' 0 8).toNat) →
      ∃ i, w = encode i ∧ (accept (answered s acts writeDone)).busy = true ∧
        step s = exec i (accept (answered s acts writeDone)) ∧
        ∀ t, step s = .next t → t.busy = false)

/-- R155: IllegalCommand is raised by an idle, unfaulted core if and only if the word is not one of `0x00000001` to
`0x00000006`, and no state other than `ERR` changes; a busy or faulted core raises nothing. -/
def Obligations.IllegalCommandExactlyOnIllegalWords : Prop :=
  ∀ (s : State) (w : Word) (acts : List HostAct), s.inbox = .access (commandWrite w) :: acts →
    (s.busy = false → s.err = none → (w.toNat = 0 ∨ 6 < w.toNat) →
      step s = .next { answered s acts writeDone with err := some .illegalCommand, draws := s.draws + 1 }) ∧
    (s.busy = false → s.err = none → ¬ (w.toNat = 0 ∨ 6 < w.toNat) →
      ∀ t, step s = .next t → t.err ≠ some .illegalCommand) ∧
    (s.busy = true ∨ s.err ≠ none → ∀ t, step s = .next t → t.err = s.err ∨ t.err = none)

/-- R171: an idle core with no host act keeps all state. -/
def Obligations.IdleCoreKeepsAllState : Prop :=
  ∀ s : State, s.inbox = [] → step s = .next s

/-- R186: early transfers never change what the running command sees or does. Some of the early acts at the head meet the busy
core; each gets one answer, as R186 has it, and none changes anything else. How many there are is open (log 3). -/
def Obligations.EarlyTransfersLeaveTheCommandAlone : Prop :=
  ∀ (s : State) (w : Word) (i : Instr) (acts : List HostAct),
    s.inbox = .access (commandWrite w) :: acts → s.busy = false → s.err = none → decode w = .ok i →
    ∃ served left more, acts = served ++ left ∧
      List.Forall₂ (fun act a => ∃ t, act = .early t ∧ BusyAnswered s.params t a) served more ∧
      step s = exec i { s with inbox := left, answers := writeDone :: more, busy := true }

/-- An early transfer that no running command meets is a transfer like any other (the model's choice, log 3), so what is said of
a transfer to an idle core holds of both. -/
def Obligations.EarlyTransferOutsideACommandIsATransfer : Prop :=
  ∀ (s : State) (t : Transfer) (acts : List HostAct), s.inbox = .early t :: acts →
    step s = step { s with inbox := .access t :: acts }

/-- R186: while `BUSY` = 1 every transfer is answered and changes nothing; writes to `CMD`, `ILEN` and `IBUF` are dropped without
bus error; a read of `STATUS` shows `BUSY` = 1. -/
def Obligations.BusyCoreDropsWrites : Prop :=
  ∀ (s : State) (t : Transfer) (acts : List HostAct),
    (s.inbox = .access t :: acts ∨ s.inbox = .early t :: acts) → s.busy = true →
    ∃ a, step s = .next (answered s acts a) ∧ BusyAnswered s.params t a

/-! ### The host port (20_memory.md) -/

/-- R45: "No read has a side effect"; R46: a read answered with a bus error returns 0. -/
def Obligations.ReadsChangeNothing : Prop :=
  ∀ (s : State) (t : Transfer) (acts : List HostAct),
    (s.inbox = .access t :: acts ∨ s.inbox = .early t :: acts) → t.write = false →
    ∃ v e, step s = .next (answered s acts { err := e, rdata := some v }) ∧ (s.busy = false → e = true → v = 0)

/-- R42, R44, R46: with an idle core exactly the accesses outside the map are bus errors, and a bus error changes no state. -/
def Obligations.BusErrorExactlyOutsideTheMap : Prop :=
  ∀ (s : State) (t : Transfer) (acts : List HostAct),
    (s.inbox = .access t :: acts ∨ s.inbox = .early t :: acts) → s.busy = false →
    (¬ LegalAccess s.params t →
      step s = .next (answered s acts { err := true, rdata := if t.write then none else some 0 })) ∧
    (LegalAccess s.params t → ∀ u, step s = .next u → ∃ rd more, u.answers = { err := false, rdata := rd } :: more)

/-- R18, R41, R42: the host's writes to `ILEN` and to a byte of `IBUF`, early or not; of a byte write's data bits 31:8 are ignored;
nothing else changes. -/
def Obligations.HostWritesTakeEffect : Prop :=
  ∀ (s : State) (t : Transfer) (acts : List HostAct),
    (s.inbox = .access t :: acts ∨ s.inbox = .early t :: acts) → s.busy = false → t.write = true →
    (t.word = true → t.addr = 0x00000010 →
      step s = .next { answered s acts writeDone with ilen := t.wdata, draws := s.draws + 1 }) ∧
    (∀ i, t.word = false → t.addr.toNat = 0x01000000 + i → i < s.params.ibufCap →
      ∃ u, step s = .next u ∧ u = { answered s acts writeDone with ibuf := u.ibuf, draws := s.draws + 1 } ∧
        ibufByte u i = t.wdata.extractLsb' 0 8 ∧ (Memory.read u.ibuf i).isSome = true ∧
        (∀ j, j ≠ i → Memory.read u.ibuf j = Memory.read s.ibuf j) ∧
        (Memory.wf s.ibuf → Memory.wf u.ibuf))

/-- R11, R15 to R25, R150: what each register but `STATUS` reads. -/
def Obligations.RegistersReadAsStated : Prop :=
  ∀ (s : State) (n : Nat) (acts : List HostAct), n < 16 →
    s.inbox = .access (wordRead (BitVec.ofNat 32 (4 * n))) :: acts → s.busy = false →
    ∃ v, step s = .next (answered s acts { err := false, rdata := some v }) ∧
      (n = 0 → v = 0x48554631) ∧ (n = 1 → v = 0) ∧
      (n = 3 → v = match s.err with
        | none => 0
        | some .inputUnavailable => 1
        | some .emptyAlphabet => 2
        | some .malformedStream => 3
        | some .outputUnavailable => 4
        | some .illegalCommand => 5
        | some .noTree => 6
        | some .missingCode => 7) ∧
      (n = 4 → v = s.ilen) ∧
      (n = 5 → v = s.olen) ∧ (n = 6 → v.toNat = symbols.countP fun c => s.ft[c.toNat] ≠ 0) ∧
      (n = 7 → v.toNat = s.nnode.toNat) ∧ (n = 8 → v.toNat = if s.nnode = 0 then 0 else s.root.toNat) ∧
      (n = 9 → v = s.tbits) ∧ (n = 10 → v = BitVec.ofNat 32 s.params.ibufCap) ∧
      (n = 11 → v = BitVec.ofNat 32 s.params.obufCap) ∧ (12 ≤ n → v = 0)

/-- R14: the four fields of `STATUS`, and its reserved bits. -/
def Obligations.StatusShowsTheFourFlags : Prop :=
  ∀ (s : State) (acts : List HostAct), s.inbox = .access (wordRead 0x08) :: acts → s.busy = false →
    ∃ v, step s = .next (answered s acts { err := false, rdata := some v }) ∧
      v.getLsbD 0 = false ∧ (v.getLsbD 1 = true ↔ s.err ≠ none) ∧ (v.getLsbD 2 = true ↔ s.nnode ≠ 0) ∧
      (v.getLsbD 3 = true ↔ ∃ c, codeOf s.ct c ≠ none) ∧ ∀ j, 4 ≤ j → v.getLsbD j = false

/-- R47, R49: the windows onto `FT` and `NODE`. -/
def Obligations.TreeAndCountWindowsReadBack : Prop :=
  (∀ (s : State) (c : Byte) (acts : List HostAct),
    s.inbox = .access (wordRead (BitVec.ofNat 32 (0x1000 + 4 * c.toNat))) :: acts → s.busy = false →
    step s = .next (answered s acts { err := false, rdata := some s.ft[c.toNat] })) ∧
  (∀ (s : State) (k w : Nat) (acts : List HostAct), k < 511 → w < 2 →
    s.inbox = .access (wordRead (BitVec.ofNat 32 (0x2000 + 8 * k + 4 * w))) :: acts → s.busy = false →
    ∃ v, step s = .next (answered s acts { err := false, rdata := some v }) ∧
      (s.nnode.toNat ≤ k → v = 0) ∧
      (∀ c f, slot s k = some (.leaf c f) →
        (w = 0 → v = f) ∧
        (w = 1 → v.getLsbD 31 = true ∧ v.extractLsb' 26 5 = 0 ∧ v.extractLsb' 18 8 = c ∧ v.extractLsb' 9 9 = 0 ∧
          v.extractLsb' 0 9 = 0)) ∧
      (∀ f l r, slot s k = some (.internal f l r) →
        (w = 0 → v = f) ∧
        (w = 1 → v.getLsbD 31 = false ∧ v.extractLsb' 26 5 = 0 ∧ v.extractLsb' 18 8 = 0 ∧ v.extractLsb' 9 9 = l ∧
          v.extractLsb' 0 9 = r)))

/-- R50: the window onto `CT`. -/
def Obligations.CodeWindowReadsBack : Prop :=
  ∀ (s : State) (c : Byte) (w : Nat) (acts : List HostAct), TableOk s.ct → w < 16 →
    s.inbox = .access (wordRead (BitVec.ofNat 32 (0x4000 + 64 * c.toNat + 4 * w))) :: acts → s.busy = false →
    ∃ v, step s = .next (answered s acts { err := false, rdata := some v }) ∧
      (w = 0 → v.toNat = (codeBits s.ct c).length) ∧
      (1 ≤ w → w ≤ 8 → ∀ j, j < 32 → v.getLsbD (31 - j) = (codeBits s.ct c).getD (32 * (w - 1) + j) false) ∧
      (9 ≤ w → v = 0)

/-- R41, R42, R48: a byte read of `IBUF[i]` or `OBUF[i]` returns the byte in bits 7:0 and 0 in bits 31:8: the byte the buffer
holds at index i, or the free value of a byte that holds none (log 4, log 5). The two windows do not meet, since `IBUF_CAP` is at
most 2^24 (R43). -/
def Obligations.ByteWindowsReadBack : Prop :=
  ∀ (s : State) (t : Transfer) (acts : List HostAct) (i : Nat),
    (s.inbox = .access t :: acts ∨ s.inbox = .early t :: acts) → s.busy = false → t.write = false → t.word = false →
    (t.addr.toNat = 0x01000000 + i → i < s.params.ibufCap →
      ∃ v, step s = .next (answered s acts { err := false, rdata := some v }) ∧
        v.toNat = (ibufByte s i).toNat ∧ (∀ b, Memory.read s.ibuf i = some b → v.toNat = b.toNat)) ∧
    (t.addr.toNat = 0x02000000 + i → i < s.params.obufCap → s.params.ibufCap ≤ 2 ^ 24 →
      ∃ v, step s = .next (answered s acts { err := false, rdata := some v }) ∧
        v.toNat = (obufByte s i).toNat ∧ (∀ b, Memory.read s.obuf i = some b → v.toNat = b.toNat))

/-- R27, R49: slots at or above `NNODE` hold nothing observable: no step answers, decides or leaves anything by them. -/
def Obligations.UnusedSlotsAreUnobservable : Prop :=
  ∀ (s t u : State), SameInUse s t → step s = .next u → ∃ v, step t = .next v ∧ SameInUse u v

/-! ### ANALYZE (40_frequency_analyzer.md) -/

/-- R91: ANALYZE completes whenever the input fits, and `FT[c]` becomes the number of indices below `ILEN` holding c. -/
def Obligations.AnalyzeCountsTheInput : Prop :=
  ∀ s : State, s.ilen.toNat ≤ s.params.ibufCap →
    ∃ t, exec .analyze s = .next t ∧ t = { s with ft := t.ft, busy := false, draws := s.draws + 1 } ∧
      ∀ c : Byte, countOf t.ft c = (List.range s.ilen.toNat).countP fun i => ibufByte s i == c

/-- R92, (a) to (e). -/
def Obligations.AnalyzeResultProperties : Prop :=
  ∀ s t : State, s.ilen.toNat ≤ s.params.ibufCap → exec .analyze s = .next t →
    ftSum t.ft = s.ilen.toNat ∧
    (∀ c : Byte, t.ft[c.toNat] ≠ 0 ↔ ∃ i, i < s.ilen.toNat ∧ ibufByte s i = c) ∧
    (∀ s' t' : State, s'.ilen.toNat ≤ s'.params.ibufCap → exec .analyze s' = .next t' →
      (inputBytes s').Perm (inputBytes s) → t'.ft = t.ft) ∧
    t = { s with ft := t.ft, busy := false, draws := s.draws + 1 }

/-! ### BUILD (41_tree_builder.md) -/

/-- R101, R152, R157: EmptyAlphabet exactly on the empty table. -/
def Obligations.BuildRefusesTheEmptyTable : Prop :=
  ∀ s : State,
    ((∀ c : Byte, s.ft[c.toNat] = 0) →
      exec .build s = .next
        { s with nnode := 0, root := 0, err := some .emptyAlphabet, busy := false, draws := s.draws + 1 }) ∧
    ((∃ c : Byte, s.ft[c.toNat] ≠ 0) → ∀ t, exec .build s = .next t → t.err = s.err)

/-- R101, R103 (a) to (d): BUILD completes on every other table, and the slots it writes form one strict binary tree whose leaf k
carries the k-th smallest present symbol and its count. -/
def Obligations.BuildMakesAStrictTree : Prop :=
  ∀ s : State, (∃ c : Byte, s.ft[c.toNat] ≠ 0) →
    ∃ t, exec .build s = .next t ∧
      t = { s with node := t.node, nnode := t.nnode, root := t.root, busy := false, draws := s.draws + 1 } ∧
      TreeShape t (nsym s.ft) ∧
      (List.range (nsym s.ft)).map (slot t) =
        (symbols.filter fun c => s.ft[c.toNat] ≠ 0).map (fun c => some (.leaf c s.ft[c.toNat])) ∧
      ∀ k, t.nnode.toNat ≤ k → t.node[k]? = s.node[k]?

/-- R101, R102: every internal node is made of the two entries least by (frequency, `tie`) among those waiting when it is made,
the first removed being the left child, for every legal `tie`. -/
def Obligations.BuildMergesTheTwoLeast : Prop :=
  ∀ (s t : State) (k : Nat) (f : Word) (l r : BitVec 9), s.params.tieOk = true → (∃ c : Byte, s.ft[c.toNat] ≠ 0) →
    exec .build s = .next t → slot t k = some (.internal f l r) →
    Waiting t k l.toNat ∧ Waiting t k r.toNat ∧ l ≠ r ∧ f = slotFreq t l.toNat + slotFreq t r.toNat ∧
    (∀ j, Waiting t k j → j ≠ l.toNat → removedBefore s.params.tie (entryOf t l.toNat) (entryOf t j) = true) ∧
    (∀ j, Waiting t k j → j ≠ l.toNat → j ≠ r.toNat →
      removedBefore s.params.tie (entryOf t r.toNat) (entryOf t j) = true)

/-- R103 (c), (e), (f), R105: no sum overflows, the root's frequency is the sum of `FT`, the internal frequencies never fall. -/
def Obligations.BuildAddsFrequenciesExactly : Prop :=
  ∀ s t : State, ftSum s.ft ≤ 2 ^ 24 → (∃ c : Byte, s.ft[c.toNat] ≠ 0) → exec .build s = .next t →
    (∀ k f l r, slot t k = some (.internal f l r) →
      f.toNat = (slotFreq t l.toNat).toNat + (slotFreq t r.toNat).toNat) ∧
    (slotFreq t t.root.toNat).toNat = ftSum s.ft ∧
    (∀ j k, nsym s.ft ≤ j → j ≤ k → k < t.nnode.toNat → (slotFreq t j).toNat ≤ (slotFreq t k).toNat)

/-- R104: "a symbol with a strictly higher count is never deeper than one with a strictly lower count", read off the codes. -/
def Obligations.HigherCountNeverGetsALongerCode : Prop :=
  ∀ (s t u : State) (c d : Byte), ftSum s.ft ≤ 2 ^ 24 → exec .build s = .next t → exec .gencodes t = .next u →
    0 < countOf s.ft d → countOf s.ft d < countOf s.ft c →
    (codeBits u.ct c).length ≤ (codeBits u.ct d).length

/-! ### GENCODES (42_code_table_generator.md) -/

/-- R111, R157, R158: NoTree exactly where there is no tree. -/
def Obligations.GencodesNeedsATree : Prop :=
  ∀ s : State,
    (s.nnode = 0 →
      exec .gencodes s = .next
        { s with ct := Vector.replicate 256 none, err := some .noTree, busy := false, draws := s.draws + 1 }) ∧
    (s.nnode ≠ 0 → ∀ t, exec .gencodes s = .next t → t.err = s.err)

/-- R111, R112: GENCODES completes on every tree; a single leaf gets "0", otherwise a symbol's code is the path to its leaf, and
every symbol on no leaf gets none. -/
def Obligations.GencodesAssignsThePaths : Prop :=
  ∀ (s : State) (n : Nat), TreeShape s n →
    ∃ t, exec .gencodes s = .next t ∧ t = { s with ct := t.ct, busy := false, draws := s.draws + 1 } ∧
      (n = 1 → ∀ c f, slot s 0 = some (.leaf c f) →
        ∀ d, codeOf t.ct d = if d = c then some [false] else none) ∧
      (2 ≤ n → ∀ c p, codeOf t.ct c = some p ↔
        ∃ k f, slot s k = some (.leaf c f) ∧ Path s s.root.toNat p k)

/-- R113 (a), (b), (d): one code per leaf, 1 to 255 bits each, no code a first part of another. -/
def Obligations.CodesArePrefixFree : Prop :=
  ∀ (s t : State) (n : Nat), TreeShape s n → exec .gencodes s = .next t →
    TableOk t.ct ∧ (symbols.countP fun c => (codeOf t.ct c).isSome) = n

/-- R113 (c): for two or more leaves every infinite bit sequence begins with a code, and the Kraft sum is 1; for one leaf "1"
begins no code. -/
def Obligations.CodesAreComplete : Prop :=
  ∀ (s t : State) (n : Nat), TreeShape s n → exec .gencodes s = .next t →
    (2 ≤ n → ∀ b : Nat → Bool, ∃ c p, codeOf t.ct c = some p ∧ p = (List.range p.length).map b) ∧
    (2 ≤ n → (symbols.map fun c => if (codeOf t.ct c).isSome then 2 ^ (255 - (codeBits t.ct c).length) else 0).sum
      = 2 ^ 255) ∧
    (n = 1 → ∀ c p, codeOf t.ct c = some p → ¬ [true] <+: p)

/-- R114: only `leaf`, `sym`, `left`, `right` are read: neither the frequencies nor any other state; and the tree does not
change. -/
def Obligations.GencodesIgnoresFrequencies : Prop :=
  ∀ s s' t t' : State, s.nnode = s'.nnode → s.root = s'.root →
    (∀ k, (slot s k).map withoutFreq = (slot s' k).map withoutFreq) →
    exec .gencodes s = .next t → exec .gencodes s' = .next t' →
    t.ct = t'.ct ∧ t.node = s.node ∧ t.nnode = s.nnode ∧ t.root = s.root

/-! ### PACK (43_bit_packer.md) -/

/-- R72, R73, R74, R121: PACK completes whenever the input fits, every byte has a code and the output fits, and writes the padded
stream byte by byte. -/
def Obligations.PackWritesThePaddedStream : Prop :=
  ∀ (s : State) (bits stream : Bits), s.ilen.toNat ≤ s.params.ibufCap → AllCoded s.ct (inputBytes s) →
    bits = (inputBytes s).flatMap (codeBits s.ct) →
    stream = bin8 (BitVec.ofNat 8 (8 - bits.length % 8)) ++ bits ++ List.replicate (8 - bits.length % 8) false →
    2 + bits.length / 8 ≤ s.params.obufCap → s.params.obufCap ≤ 2 ^ 24 →
    ∃ t, exec .pack s = .next t ∧
      t = { s with
        obuf := t.obuf, obufDraw := t.obufDraw, olen := t.olen, tbits := t.tbits, busy := false, draws := s.draws + 1 } ∧
      t.olen.toNat = 2 + bits.length / 8 ∧ t.tbits.toNat = bits.length ∧
      ∀ j, Memory.read t.obuf j =
        if j < 2 + bits.length / 8 then some (BitVec.ofNat 8 (val ((stream.drop (8 * j)).take 8))) else none

/-- R51, R121: code bit j lands in bit 7 − (j mod 8) of `OBUF[1 + (j div 8)]`; every bit after the codes is 0; the header is the
padding count. -/
def Obligations.PackPlacesEveryBit : Prop :=
  ∀ (s t : State) (bits : Bits), s.params.wellFormed = true → s.err = none → exec .pack s = .next t → t.err = none →
    bits = (inputBytes s).flatMap (codeBits s.ct) →
    (obufByte t 0).toNat = 8 - bits.length % 8 ∧
    ∀ j, j < 8 * (t.olen.toNat - 1) → (obufByte t (1 + j / 8)).getLsbD (7 - j % 8) = bits.getD j false

/-- R123, (a) to (e). -/
def Obligations.PackLengths : Prop :=
  ∀ s t : State, s.params.wellFormed = true → s.err = none → exec .pack s = .next t → t.err = none →
    (t.olen.toNat = 2 + t.tbits.toNat / 8 ∧ 2 ≤ t.olen.toNat) ∧
    ((obufByte t 0).toNat = 8 - t.tbits.toNat % 8 ∧ 1 ≤ (obufByte t 0).toNat ∧ (obufByte t 0).toNat ≤ 8) ∧
    8 * t.olen.toNat = 8 + t.tbits.toNat + (obufByte t 0).toNat ∧
    (((obufByte t 0).toNat < 8 → (obufByte t (t.olen.toNat - 1)).toNat % 2 ^ (obufByte t 0).toNat = 0) ∧
      ((obufByte t 0).toNat = 8 → obufByte t (t.olen.toNat - 1) = 0)) ∧
    t.tbits.toNat = ((inputBytes s).map fun b => (codeBits s.ct b).length).sum

/-- R121, R151, R154, R159, R160: PACK's three faults in their order, and what each leaves. -/
def Obligations.PackFaultsInOrder : Prop :=
  ∀ s : State,
    (s.params.ibufCap < s.ilen.toNat → exec .pack s = .next (failedOutput s .inputUnavailable)) ∧
    (s.ilen.toNat ≤ s.params.ibufCap → ¬ AllCoded s.ct (inputBytes s) →
      exec .pack s = .next (failedOutput s .missingCode)) ∧
    (s.ilen.toNat ≤ s.params.ibufCap → AllCoded s.ct (inputBytes s) →
      s.params.obufCap < 2 + ((inputBytes s).flatMap (codeBits s.ct)).length / 8 →
      exec .pack s = .next (failedOutput s .outputUnavailable))

/-! ### UNPACK (44_bit_unpacker.md) -/

/-- R76: in a legal table a bit-string has at most one split into codes, and the greedy scan finds it. -/
def Obligations.GreedyScanFindsTheOnlyParse : Prop :=
  ∀ (ct : Vector (Option Bits) 256) (out : List Byte), TableOk ct → AllCoded ct out →
    scanCodes ct [] (out.flatMap (codeBits ct)) = (out, []) ∧
    ∀ out', AllCoded ct out' → out'.flatMap (codeBits ct) = out.flatMap (codeBits ct) → out' = out

/-- R131, R133 (c), R154, R160: past the header checks UNPACK decodes exactly the payloads that are a concatenation of codes: it
writes the symbols where they fit, faults OutputUnavailable where they do not, and MalformedStream on every other payload. -/
def Obligations.UnpackDecodesExactlyTheParsableStreams : Prop :=
  ∀ s : State, TableOk s.ct → s.params.wellFormed = true → s.ilen.toNat ≤ s.params.ibufCap → 0 < s.ilen.toNat →
    (ibufByte s 0).toNat ≤ bitsAfterHeader s →
    (∀ out, AllCoded s.ct out → payload s = out.flatMap (codeBits s.ct) → out.length ≤ s.params.obufCap →
      ∃ t, exec .unpack s = .next t ∧
        t = { s with
          obuf := t.obuf, obufDraw := t.obufDraw, olen := t.olen, tbits := t.tbits, busy := false, draws := s.draws + 1 } ∧
        t.olen.toNat = out.length ∧ t.tbits.toNat = payloadLength s ∧ ∀ j, Memory.read t.obuf j = out[j]?) ∧
    (∀ out, AllCoded s.ct out → payload s = out.flatMap (codeBits s.ct) → s.params.obufCap < out.length →
      exec .unpack s = .next (failedOutput s .outputUnavailable)) ∧
    ((∀ out, AllCoded s.ct out → payload s ≠ out.flatMap (codeBits s.ct)) →
      exec .unpack s = .next (failedOutput s .malformedStream))

/-- R133 (a), (b), R151, R160: the checks before any payload bit is scanned. -/
def Obligations.UnpackChecksLengthAndHeaderFirst : Prop :=
  ∀ s : State,
    (s.params.ibufCap < s.ilen.toNat → exec .unpack s = .next (failedOutput s .inputUnavailable)) ∧
    (s.ilen = 0 → exec .unpack s = .next (failedOutput s .malformedStream)) ∧
    (0 < s.ilen.toNat → s.ilen.toNat ≤ s.params.ibufCap → bitsAfterHeader s < (ibufByte s 0).toNat →
      exec .unpack s = .next (failedOutput s .malformedStream))

/-- R134, that the stripped bits are not examined: two inputs of one length with the same header and the same payload bits give
the same result. -/
def Obligations.StrippedBitsAreNotExamined : Prop :=
  ∀ s s' t t' : State, s.ct = s'.ct → s.params = s'.params → s.ilen = s'.ilen → ibufByte s 0 = ibufByte s' 0 →
    payload s = payload s' → s.err = s'.err → exec .unpack s = .next t → exec .unpack s' = .next t' →
    t.obuf = t'.obuf ∧ t.olen = t'.olen ∧ t.tbits = t'.tbits ∧ t.err = t'.err

/-- R135, (a) to (e). -/
def Obligations.UnpackResultProperties : Prop :=
  ∀ s t : State, s.params.wellFormed = true → s.err = none → exec .unpack s = .next t → t.err = none →
    (payload s = (outputBytes t).flatMap (codeBits s.ct) ∧ t.tbits.toNat = (payload s).length) ∧
    (t.olen.toNat ≤ t.tbits.toNat ∧ t.olen.toNat ≤ 8 * (s.ilen.toNat - 1)) ∧
    AllCoded s.ct (outputBytes t) ∧
    (∀ s' t' : State, s'.ct = s.ct → inputBytes s' = inputBytes s → s'.err = none → exec .unpack s' = .next t' →
      t'.err = none → t'.olen = t.olen ∧ t'.tbits = t.tbits ∧ outputBytes t' = outputBytes t) ∧
    (t.ibuf = s.ibuf ∧ t.ilen = s.ilen ∧ t.ft = s.ft ∧ t.node = s.node ∧ t.nnode = s.nnode ∧ t.root = s.root ∧
      t.ct = s.ct)

/-! ### CLRERR and the sequences (45_control_and_sequences.md) -/

/-- R140: `ERR <- 0` and nothing else. -/
def Obligations.ClrerrClearsErrAlone : Prop :=
  ∀ s : State, exec .clrerr s = .next { s with err := none, busy := false, draws := s.draws + 1 }

/-- R146: PACK of the empty input gives `08 00` and UNPACK of `08 00` gives the empty sequence, whatever `CT` holds. -/
def Obligations.EmptySequencePacksWithoutATable : Prop :=
  (∀ s : State, s.ilen = 0 → 2 ≤ s.params.obufCap →
    ∃ t, exec .pack s = .next t ∧ t.err = s.err ∧ t.olen = 2 ∧ t.tbits = 0 ∧ outputBytes t = [0x08, 0x00]) ∧
  (∀ s : State, s.ilen = 2 → 2 ≤ s.params.ibufCap → Memory.read s.ibuf 0 = some 0x08 → Memory.read s.ibuf 1 = some 0x00 →
    ∃ t, exec .unpack s = .next t ∧ t.err = s.err ∧ t.olen = 0 ∧ t.tbits = 0 ∧ outputBytes t = [])

/-- R145, its general form: for any table the hardware can hold and any input all of whose bytes have codes, UNPACK of PACK's
output under the same table returns the input. -/
def Obligations.UnpackReturnsWhatWasPacked : Prop :=
  ∀ s t u : State, s.params.wellFormed = true → TableOk s.ct → s.err = none → exec .pack s = .next t → t.err = none →
    u.ct = s.ct → u.params = s.params → u.ilen = t.olen → inputBytes u = outputBytes t →
    u.ilen.toNat ≤ u.params.ibufCap → s.ilen.toNat ≤ s.params.obufCap →
    ∃ v, exec .unpack u = .next v ∧ v.err = u.err ∧ v.olen = s.ilen ∧ v.tbits = t.tbits ∧ outputBytes v = inputBytes s

/-- R113 (e), R125, R142: on a written input of one byte or more COMPRESS runs to its end, the only fault it can meet is
OutputUnavailable at PACK, and total_code_bits is the sum of count times code length. -/
def Obligations.CompressNeverMissesACode : Prop :=
  ∀ s : State, s.params.wellFormed = true → s.err = none → InputWritten s → 1 ≤ s.ilen.toNat →
    s.ilen.toNat ≤ s.params.ibufCap →
    ∃ a b g p, exec .analyze s = .next a ∧ exec .build a = .next b ∧ exec .gencodes b = .next g ∧
      exec .pack g = .next p ∧ g.err = none ∧ (p.err = none ∨ p.err = some .outputUnavailable) ∧
      (p.err = none → p.tbits.toNat = (symbols.map fun c => countOf a.ft c * (codeBits g.ct c).length).sum)

/-- R125: the output of COMPRESS is at most two bytes longer than its input, so with `OBUF_CAP` ≥ `ILEN` + 2 it does not fault. -/
def Obligations.CompressAddsAtMostTwoBytes : Prop :=
  ∀ s a b g p : State, s.params.wellFormed = true → s.err = none → InputWritten s → 1 ≤ s.ilen.toNat →
    s.ilen.toNat ≤ s.params.ibufCap → s.ilen.toNat + 2 ≤ s.params.obufCap →
    exec .analyze s = .next a → exec .build a = .next b → exec .gencodes b = .next g → exec .pack g = .next p →
    p.err = none ∧ p.olen.toNat ≤ s.ilen.toNat + 2

/-- R145: COMPRESS, then MOVE, then UNPACK returns the input. -/
def Obligations.DecompressReturnsWhatWasCompressed : Prop :=
  ∀ s a b g p u : State, s.params.wellFormed = true → s.err = none → InputWritten s → 1 ≤ s.ilen.toNat →
    s.ilen.toNat ≤ s.params.ibufCap → exec .analyze s = .next a → exec .build a = .next b →
    exec .gencodes b = .next g → exec .pack g = .next p → p.err = none →
    u.ct = p.ct → u.params = p.params → u.err = none → u.ilen = p.olen → inputBytes u = outputBytes p →
    p.olen.toNat ≤ s.params.ibufCap → s.ilen.toNat ≤ s.params.obufCap →
    ∃ v, exec .unpack u = .next v ∧ v.err = none ∧ v.olen = s.ilen ∧ outputBytes v = inputBytes s

/-! ### Faults and the whole machine (60_exceptions.md, 70_reset_and_hazards.md, 10_state.md) -/

/-- R151: InputUnavailable if and only if `ILEN` > `IBUF_CAP`, for ANALYZE, PACK and UNPACK and no other command. -/
def Obligations.InputUnavailableExactlyWhenTooLong : Prop :=
  ∀ (s t : State) (i : Instr), s.err = none → exec i s = .next t →
    (t.err = some .inputUnavailable ↔
      (i = .analyze ∨ i = .pack ∨ i = .unpack) ∧ s.params.ibufCap < s.ilen.toNat)

/-- R157: a faulting command puts its own destination at its empty value and touches nothing else; R150: each command raises its
own kinds only. -/
def Obligations.FaultEmptiesItsOwnDestination : Prop :=
  (∀ (s t : State) (i : Instr) (k : ErrorKind), s.err = none → exec i s = .next t → t.err = some k →
    k ∈ raises i ∧
    (i = .analyze →
      t = { s with ft := Vector.replicate 256 0, err := some k, busy := false, draws := s.draws + 1 }) ∧
    (i = .build → t = { s with nnode := 0, root := 0, err := some k, busy := false, draws := s.draws + 1 }) ∧
    (i = .gencodes →
      t = { s with ct := Vector.replicate 256 none, err := some k, busy := false, draws := s.draws + 1 }) ∧
    (i = .pack ∨ i = .unpack → t = failedOutput s k)) ∧
  (∀ (s : State) (w : Word) (acts : List HostAct), s.inbox = .access (commandWrite w) :: acts → s.busy = false →
    s.err = none → (w.toNat = 0 ∨ 6 < w.toNat) →
    step s = .next { answered s acts writeDone with err := some .illegalCommand, draws := s.draws + 1 })

/-- R189, with R26, R28, R30, R31: the frame of every command. Each unit writes its own destination alone; every byte of `IBUF`
reads as before, and every byte of `OBUF` after a command that is neither PACK nor UNPACK. -/
def Obligations.NoUnitTouchesAnothersState : Prop :=
  ∀ (s t : State) (i : Instr), exec i s = .next t →
    (t.params = s.params ∧ t.ilen = s.ilen ∧ t.inbox = s.inbox ∧ t.answers = s.answers ∧ t.busy = false) ∧
    (∀ a, Memory.read t.ibuf a = Memory.read s.ibuf a) ∧
    (i ≠ .analyze → t.ft = s.ft) ∧
    (i ≠ .build → t.node = s.node ∧ t.nnode = s.nnode ∧ t.root = s.root) ∧
    (i ≠ .gencodes → t.ct = s.ct) ∧
    (i ≠ .pack → i ≠ .unpack →
      t.olen = s.olen ∧ t.tbits = s.tbits ∧ ∀ a, Memory.read t.obuf a = Memory.read s.obuf a ∧ obufByte t a = obufByte s a) ∧
    (i ≠ .clrerr → t.err = s.err ∨ ∃ k ∈ raises i, t.err = some k) ∧ (i = .clrerr → t.err = none)

/-- R17, R18, R26, R28, R30, R31, R140, R144, R180, R189: whatever a step changes of the architectural state or the parameters has
its one cause, a reset or the one host act that may. `OBUF` is watched through the read of each byte, specified or not. A byte of
`IBUF` that a step writes is the one the host's act addresses, with the act's byte. The `BUSY` clause, that only a reset changes it
from before a step to after it, is the model's choice (log 3): R10 and R63 have command issue set `BUSY` and the command's end clear
it, and here both lie inside the one atomic step that R8 and R63 allow, where R186's early transfers meet it. -/
def Obligations.EveryChangeHasItsCause : Prop :=
  ∀ s t : State, step s = .next t →
    t.params = s.params ∧
    (t.ft ≠ s.ft → NextReset s ∨ Issues s 0x00000001) ∧
    (t.node ≠ s.node ∨ t.nnode ≠ s.nnode ∨ t.root ≠ s.root → NextReset s ∨ Issues s 0x00000002) ∧
    (t.ct ≠ s.ct → NextReset s ∨ Issues s 0x00000003) ∧
    (t.obuf ≠ s.obuf ∨ t.olen ≠ s.olen ∨ t.tbits ≠ s.tbits ∨ (∃ a, obufByte t a ≠ obufByte s a) →
      NextReset s ∨ Issues s 0x00000004 ∨ Issues s 0x00000005) ∧
    (t.ilen ≠ s.ilen → NextReset s ∨ NextWordWrite s 0x00000010 t.ilen) ∧
    (t.ibuf ≠ s.ibuf → NextReset s ∨
      ∃ r a, NextTransfer s r ∧ r.write = true ∧ r.word = false ∧ r.addr.toNat = 0x01000000 + a ∧ a < s.params.ibufCap ∧
        locate s.params r = some (.ibuf a) ∧ Memory.read t.ibuf a = some (r.wdata.extractLsb' 0 8) ∧
        ∀ j, j ≠ a → Memory.read t.ibuf j = Memory.read s.ibuf j) ∧
    (t.err ≠ s.err → NextReset s ∨ (s.err ≠ none ∧ t.err = none ∧ Issues s 0x00000006) ∨
      (s.err = none ∧ ∃ w k, Issues s w ∧ t.err = some k ∧
        (((w.toNat = 0 ∨ 6 < w.toNat) ∧ k = .illegalCommand) ∨ ∃ i, w = encode i ∧ k ∈ raises i))) ∧
    (t.busy ≠ s.busy → NextReset s ∧ s.busy = true ∧ t.busy = false)

/-- R17, R161, R162: the first error is kept; the only ways out of the fault state are CLRERR and reset. -/
def Obligations.FirstErrorIsKept : Prop :=
  ∀ (s t : State) (k : ErrorKind), s.err = some k → step s = .next t →
    t.err = some k ∨ (t.err = none ∧ (NextReset s ∨ Issues s 0x00000006))

/-- R31, R157, R180: what is unspecified in `OBUF` after a PACK, an UNPACK or a reset is a draw never taken before, the first one
after reset among them; log 5 says how the model's own two counters do it. -/
def Obligations.UnspecifiedOutputIsANewDraw : Prop :=
  State.reset.obufDraw < State.reset.draws ∧
  (∀ s t : State, s.obufDraw < s.draws → step s = .next t →
    t.obufDraw < t.draws ∧ s.obufDraw ≤ t.obufDraw ∧ (NextReset s → s.obufDraw < t.obufDraw)) ∧
  (∀ (s t : State) (i : Instr), s.obufDraw < s.draws → i = .pack ∨ i = .unpack → exec i s = .next t →
    s.obufDraw < t.obufDraw)

/-- R35, R180: reset leaves the stated values, whatever the core was doing, and so does `State.reset`. -/
def Obligations.ResetLeavesTheStatedValues : Prop :=
  ∀ t : State, (t = State.reset ∨ ∃ s acts, s.inbox = .rst :: acts ∧ step s = .next t) →
    (∀ c : Byte, t.ft[c.toNat] = 0) ∧ t.nnode = 0 ∧ t.root = 0 ∧ (∀ k w, readNode t k w = 0) ∧
    (∀ c : Byte, codeOf t.ct c = none) ∧ t.ilen = 0 ∧ t.olen = 0 ∧ t.tbits = 0 ∧ t.err = none ∧ t.busy = false ∧
    (∀ i, Memory.read t.ibuf i = none) ∧ (∀ i, Memory.read t.obuf i = none) ∧ statusWord t = 0 ∧ nsym t.ft = 0 ∧
    readRegister t 0 = 0x48554631 ∧ readRegister t 10 = BitVec.ofNat 32 t.params.ibufCap ∧
    readRegister t 11 = BitVec.ofNat 32 t.params.obufCap

/-- R33 at reset. The default parameters and the empty inbox are the model's choice (log 1, log 2). -/
def Obligations.ResetMeetsTheInvariant : Prop := Inv State.reset

/-- R33: what holds in every reachable state is kept by every step, from every state where it holds. -/
def Obligations.StepKeepsTheInvariant : Prop :=
  ∀ s t : State, Inv s → step s = .next t → Inv t

/-- R141, R150: every command ends and nothing else in the core faults: from every state that meets the invariant the machine goes
on, whatever the host does. -/
def Obligations.CoreNeverStops : Prop :=
  ∀ s : State, Inv s → ∃ t, step s = .next t
end

