-- ==== Sys2Proof/Tests/Slice0.lean ====
section
/-! SUPPORT. The model's own tests. Every expected value is the spec's: a vector V<n>, an example E<n> or a program of
95_test_vectors.md, or a rule; none was read off the model. -/

namespace Sys2Proof.Tests

open Sys2Proof Sys2Proof.Machine

-- One theorem at a time: each waits for the kernel, and a waiting thread keeps its stack.
set_option Elab.async false

/-! ### helpers -/

/-- The next state, where there is one. -/
def nextOf (o : Host.Outcome State Fault Refusal) : Option State :=
  match o with
  | .next s => some s
  | .fault _ => none
  | .refused _ => none

/-- A next state with a given view, from the view of the outcome. -/
theorem exists_next {α : Type} {o : Host.Outcome State Fault Refusal} {f : State → α} {a : α}
    (h : (nextOf o).map f = some a) : ∃ t, o = .next t ∧ f t = a := by
  cases o <;> simp_all [nextOf]

/-- The next state by name, where there is one. -/
theorem next_getD {o : Host.Outcome State Fault Refusal} (h : ∃ t, o = .next t) : o = .next ((nextOf o).getD .reset) := by
  obtain ⟨t, rfl⟩ := h
  rfl

/-- `FT`, tree and `CT` of vector V1 ("AAAAABBBCC"). -/
def ftV1 : Vector Word 256 := (((Vector.replicate 256 0).set 0x41 5).set 0x42 3).set 0x43 2

def arenaV1 : List TreeNode :=
  [.leaf 0x41 5, .leaf 0x42 3, .leaf 0x43 2, .internal 5 2 1, .internal 10 0 3]

def codesV1 : List (Byte × Bits) := [(0x41, [false]), (0x42, [true, true]), (0x43, [true, false])]

def stateV1 : State :=
  { State.reset with
    ft := ftV1, node := writeSlots 0 arenaV1 State.reset.node, nnode := 5, root := 4, ct := fillTable codesV1 }

/-- `s` after `LOAD bs` (30_encoding.md R67). -/
def loaded (s : State) (bs : List Byte) : State :=
  { s with ibuf := Memory.ofBytes 0 bs, ilen := BitVec.ofNat 32 bs.length }

/-- What one step answers to one transfer. -/
def answersTo (s : State) (t : Transfer) : Option (List Answer) :=
  (nextOf (step { s with inbox := [.access t] })).map State.answers

/-- `ERR` after one command word. -/
def errAfter (s : State) (w : Word) : Option (Option ErrorKind) := (nextOf (step (withCommand s w))).map State.err

/-! ### WellFormed: an ill-formed term for each check (00_scope.md R5) -/

theorem test_default_params_wellFormed : defaultParams.wellFormed = true := by decide
theorem test_ibufCap_zero_refused : ({ defaultParams with ibufCap := 0 } : Params).wellFormed = false := by decide
theorem test_ibufCap_above_refused : ({ defaultParams with ibufCap := 16777217 } : Params).wellFormed = false := by decide
theorem test_obufCap_one_refused : ({ defaultParams with obufCap := 1 } : Params).wellFormed = false := by decide
theorem test_obufCap_above_refused : ({ defaultParams with obufCap := 16777217 } : Params).wellFormed = false := by decide
theorem test_short_ranks_refused : ({ defaultParams with tie := .byRank [0, 1] } : Params).wellFormed = false := by decide
theorem test_repeated_ranks_refused :
    ({ defaultParams with tie := .byRank (List.replicate 511 0) } : Params).wellFormed = false := by decide +kernel

/-! ### Decode: words written out from R61 and R62, `RSV` then `OPC` -/

theorem test_decode_analyze : decode 0b00000000000000000000000000000001 = .ok .analyze := by rfl
theorem test_decode_build : decode 0b00000000000000000000000000000010 = .ok .build := by rfl
theorem test_decode_gencodes : decode 0b00000000000000000000000000000011 = .ok .gencodes := by rfl
theorem test_decode_pack : decode 0b00000000000000000000000000000100 = .ok .pack := by rfl
theorem test_decode_unpack : decode 0b00000000000000000000000000000101 = .ok .unpack := by rfl
theorem test_decode_clrerr : decode 0b00000000000000000000000000000110 = .ok .clrerr := by rfl
/-- V90, V91, V92. -/
theorem test_decode_no_such_opcode :
    decode 0x00000000 = .error .noSuchOpcode ∧ decode 0x00000007 = .error .noSuchOpcode ∧
    decode 0x000000FF = .error .noSuchOpcode := ⟨rfl, rfl, rfl⟩
/-- V93, V94, V95. -/
theorem test_decode_reserved_bit :
    decode 0x00000101 = .error .reservedBitSet ∧ decode 0x80000004 = .error .reservedBitSet ∧
    decode 0xFFFFFFFF = .error .reservedBitSet := ⟨rfl, rfl, rfl⟩

/-! ### Commands -/

/-- E1: "aabbbcc" has counts a:2, b:3, c:2. -/
theorem test_analyze_counts :
    (nextOf (exec .analyze (loaded .reset [0x61, 0x61, 0x62, 0x62, 0x62, 0x63, 0x63]))).map
      (fun t => (t.ft[0x61], t.ft[0x62], t.ft[0x63], t.ft[0x64])) = some (2, 3, 2, 0) := by decide +kernel

/-- V22: a length above `IBUF_CAP`. -/
theorem test_analyze_too_long :
    (nextOf (exec .analyze { stateV1 with ilen := 65537 })).map (fun t => (t.err, t.ft[0x41], t.nnode)) =
      some (some .inputUnavailable, 0, 5) := by decide +kernel

/-- V1: rounds 1 and 2, the second a tie on 5. -/
theorem test_build_v1 :
    (nextOf (exec .build { State.reset with ft := ftV1 })).map
      (fun t => (t.node[0], t.node[3], t.node[4], t.nnode, t.root)) =
      some (.leaf 0x41 5, .internal 5 2 1, .internal 10 0 3, 5, 4) := by decide +kernel

/-- V17: the same table under the descending tie-break. -/
theorem test_build_v17_descending :
    (nextOf (exec .build { State.reset with ft := ftV1, params := { defaultParams with tie := .descending } })).map
      (fun t => (t.node[3], t.node[4])) = some (.internal 5 2 1, .internal 10 3 0) := by decide +kernel

/-- V1 and V43: the codes of the tree; the table is cleared before it is filled. -/
theorem test_gencodes_v1 :
    (nextOf (exec .gencodes { stateV1 with ct := fillTable [(0x61, [true])] })).map
      (fun t => (t.ct[0x41], t.ct[0x42], t.ct[0x43], t.ct[0x61])) =
      some (some [false], some [true, true], some [true, false], none) := by decide +kernel

/-- V42: a single leaf gets "0". -/
theorem test_gencodes_single_leaf :
    (nextOf (exec .gencodes { State.reset with node := State.reset.node.set 0 (.leaf 0x61 4), nnode := 1 })).map
      (fun t => (t.ct[0x61], t.ct[0x62])) = some (some [false], none) := by decide +kernel

/-- V51: "CAB" packs to `03 98`. -/
theorem test_pack_v51 :
    (nextOf (exec .pack (loaded stateV1 [0x43, 0x41, 0x42]))).map (fun t => (t.obuf, t.olen, t.tbits, t.err)) =
      some ([(0, 0x03), (1, 0x98)], 2, 5, none) := by decide +kernel

/-- V56: MissingCode comes before OutputUnavailable. -/
theorem test_pack_v56 :
    (nextOf (exec .pack { loaded stateV1 [0x41, 0x42, 0x44] with
      params := { defaultParams with obufCap := 2 } })).map (fun t => (t.obuf, t.olen, t.tbits, t.err)) =
      some ([], 0, 0, some .missingCode) := by decide +kernel

/-- V73: `03 98` unpacks to "CAB". -/
theorem test_unpack_v73 :
    (nextOf (exec .unpack (loaded stateV1 [0x03, 0x98]))).map (fun t => (t.obuf, t.olen, t.tbits, t.err)) =
      some ([(0, 0x43), (1, 0x41), (2, 0x42)], 3, 5, none) := by decide +kernel

/-- V60: an unresolved candidate. -/
theorem test_unpack_v60 :
    (nextOf (exec .unpack (loaded stateV1 [0x07, 0x80]))).map (fun t => (t.obuf, t.olen, t.tbits, t.err)) =
      some ([], 0, 0, some .malformedStream) := by decide +kernel

/-- V101: CLRERR in the fault state. -/
theorem test_clrerr_v101 : errAfter { stateV1 with err := some .malformedStream } 0x00000006 = some none := by
  decide +kernel

/-- V93 and V97, V99, V100: a reserved bit raises IllegalCommand, and a faulted core ignores every word but CLRERR's. -/
theorem test_issue :
    errAfter stateV1 0x00000101 = some (some .illegalCommand) ∧
    errAfter { stateV1 with err := some .malformedStream } 0x00000005 = some (some .malformedStream) ∧
    errAfter { stateV1 with err := some .malformedStream } 0x00000007 = some (some .malformedStream) ∧
    errAfter { stateV1 with err := some .malformedStream } 0x00000106 = some (some .malformedStream) := by
  decide +kernel

/-! ### The port -/

/-- V112, V124, V126: `STATUS`, slot 1, slot 3. -/
theorem test_read_back :
    answersTo stateV1 (wordRead 0x08) = some [readData 0x0000000C] ∧
    answersTo stateV1 (wordRead 0x200C) = some [readData 0x81080000] ∧
    answersTo stateV1 (wordRead 0x201C) = some [readData 0x00000401] := by decide +kernel

/-- V130, V132: `CT[0x42]` = "11" and `CT[0x44]` = none. -/
theorem test_read_codes :
    answersTo stateV1 (wordRead 0x5080) = some [readData 2] ∧
    answersTo stateV1 (wordRead 0x5084) = some [readData 0xC0000000] ∧
    answersTo stateV1 (wordRead 0x5100) = some [readData 0] := by decide +kernel

/-- V136, V139, V141, V143: bus errors. -/
theorem test_bus_errors :
    answersTo stateV1 (registerWrite 0x14 1) = some [{ err := true, rdata := none }] ∧
    answersTo stateV1 (byteRead 0x08) = some [{ err := true, rdata := some 0 }] ∧
    answersTo stateV1 (wordRead 0x02) = some [{ err := true, rdata := some 0 }] ∧
    answersTo stateV1 (byteWrite 0x01010000 1) = some [{ err := true, rdata := none }] := by decide +kernel

/-- R67: `LOAD` is a write of each byte of `IBUF` and then of `ILEN`. -/
theorem test_load_acts :
    directiveActs .reset (.load [0x41, 0x42]) =
      [.access (byteWrite 0x01000000 0x41), .access (byteWrite 0x01000001 0x42), .access (registerWrite 0x10 2)] := by
  decide +kernel

/-! ### Witnesses: for every statement with hypotheses a state and operands that meet them all -/

theorem slot_v1 :
    slot stateV1 0 = some (.leaf 0x41 5) ∧ slot stateV1 1 = some (.leaf 0x42 3) ∧ slot stateV1 2 = some (.leaf 0x43 2) ∧
    slot stateV1 3 = some (.internal 5 2 1) ∧ slot stateV1 4 = some (.internal 10 0 3) := by decide +kernel

/-- V1's tree is one strict binary tree of three leaves. -/
theorem witness_treeShape : TreeShape stateV1 3 := by
  obtain ⟨h0, h1, h2, h3, h4⟩ := slot_v1
  refine ⟨by decide, by decide, by decide, ?_, ?_, ?_, by decide +kernel⟩
  · intro k hk
    interval_cases k
    · exact ⟨_, _, h0⟩
    · exact ⟨_, _, h1⟩
    · exact ⟨_, _, h2⟩
  · intro j k c d f g hjk hj hk
    have hk5 : k < 5 := (slot_some hk).1
    interval_cases k <;> interval_cases j <;> simp_all
  · intro k hk hk5
    have : k = 3 ∨ k = 4 := by omega
    rcases this with rfl | rfl
    · exact ⟨_, _, _, h3, by decide, by decide⟩
    · exact ⟨_, _, _, h4, by decide, by decide⟩

/-- A single leaf is a tree. -/
def stateLeaf : State :=
  { State.reset with node := State.reset.node.set 0 (.leaf 0x61 4), nnode := 1, ct := fillTable [(0x61, [false])] }

theorem slot_leaf : slot stateLeaf 0 = some (.leaf 0x61 4) := by decide +kernel

theorem witness_treeShape_leaf : TreeShape stateLeaf 1 := by
  refine ⟨by decide, by decide, by decide, ?_, ?_, ?_, by decide +kernel⟩
  · intro k hk
    obtain rfl : k = 0 := by omega
    exact ⟨_, _, slot_leaf⟩
  · intro j k c d f g hjk hj hk
    have : k < 1 := (slot_some hk).1
    omega
  · intro k hk hk1
    omega

theorem codeOf_v1 (c : Byte) (x : Bits) :
    codeOf stateV1.ct c = some x ↔
      (c = 0x41 ∧ x = [false]) ∨ (c = 0x42 ∧ x = [true, true]) ∨ (c = 0x43 ∧ x = [true, false]) := by
  refine (codeOf_fillTable (codes := codesV1) (by decide) c x).trans ?_
  simp [codesV1]

/-- V1's table is legal. -/
theorem witness_tableOk : TableOk stateV1.ct := by
  constructor
  · intro c x h
    rcases (codeOf_v1 c x).mp h with ⟨-, rfl⟩ | ⟨-, rfl⟩ | ⟨-, rfl⟩ <;> decide
  · intro c d x y hc hd hp
    rcases (codeOf_v1 c x).mp hc with ⟨rfl, rfl⟩ | ⟨rfl, rfl⟩ | ⟨rfl, rfl⟩ <;>
      rcases (codeOf_v1 d y).mp hd with ⟨rfl, rfl⟩ | ⟨rfl, rfl⟩ | ⟨rfl, rfl⟩ <;> first | rfl | (exfalso; revert hp; decide)

/-- The state after V1 up to GENCODES meets the invariant, with any host act waiting. -/
theorem witness_inv (acts : List HostAct) : Inv { stateV1 with inbox := acts } where
  params := by show defaultParams.wellFormed = true; decide
  idle := rfl
  counts := by show ftSum ftV1 ≤ 65536; decide +kernel
  tree := .inr ⟨3, witness_treeShape.1, witness_treeShape.2, witness_treeShape.3, witness_treeShape.4,
    witness_treeShape.5, witness_treeShape.6, witness_treeShape.7⟩
  table := witness_tableOk
  ibufWf := List.Pairwise.nil
  ibufInside := fun i h => by simp [stateV1, State.reset] at h
  obufWf := List.Pairwise.nil
  obufHolds := fun i => by simp [stateV1, State.reset]
  olen := by show 0 ≤ 65538; decide

/-- StepRunsTheDecodedCommand, IllegalCommandExactlyOnIllegalWords, EarlyTransfersLeaveTheCommandAlone: an idle, unfaulted core
with a command word as the next act, with and without an early transfer behind it. -/
theorem witness_command_waiting (w : Word) (acts : List HostAct) :
    ({ stateV1 with inbox := .access (commandWrite w) :: acts } : State).inbox = .access (commandWrite w) :: acts ∧
    stateV1.busy = false ∧ stateV1.err = none ∧ decode 0x00000006 = .ok .clrerr ∧ decodeTableWord 32 6 = some .clrerr ∧
    ((7 : Word).toNat = 0 ∨ 6 < (7 : Word).toNat) ∧ ¬ ((6 : Word).toNat = 0 ∨ 6 < (6 : Word).toNat) ∧
    (∀ t rest, ([] : List HostAct) ≠ .early t :: rest) :=
  ⟨rfl, rfl, rfl, rfl, rfl, .inr (by decide), by decide, fun _ _ h => nomatch h⟩

/-- CommandIssueFollowsItsOrder: busy; faulted with CLRERR's word, an early transfer behind it (log 16), and with another word;
idle with the illegal words 0 and 7 and the last legal word. -/
theorem witness_command_issue :
    ({ stateV1 with busy := true } : State).busy = true ∧
    ({ stateV1 with err := some .noTree } : State).err ≠ none ∧ (0x00000006 : Word) = 0x00000006 ∧
    ({ stateV1 with err := some .noTree, inbox := [.access (commandWrite 6), .early (wordRead 8)] } : State).inbox =
      .access (commandWrite 6) :: [.early (wordRead 8)] ∧
    (0x00000106 : Word) ≠ 0x00000006 ∧ (0x00000000 : Word).extractLsb' 0 8 = 0 ∧
    (7 : Nat) ≤ ((0x00000007 : Word).extractLsb' 0 8).toNat ∧
    ¬ ((0x00000006 : Word).extractLsb' 8 24 ≠ 0 ∨ (0x00000006 : Word).extractLsb' 0 8 = 0 ∨
      7 ≤ ((0x00000006 : Word).extractLsb' 0 8).toNat) := by decide

/-- IdleCoreKeepsAllState. -/
theorem witness_idle : stateV1.inbox = [] := rfl

/-- BusyCoreDropsWrites: writes of `CMD` and `ILEN`, of the first and last byte of `IBUF`, a read of `STATUS`. -/
theorem witness_busy :
    ({ stateV1 with busy := true } : State).busy = true ∧
    (commandWrite 1).write = true ∧ (commandWrite 1).word = true ∧ (commandWrite 1).addr = 0x04 ∧
    (registerWrite 0x10 1).addr = 0x10 ∧
    (byteWrite 0x01000000 1).write = true ∧ (byteWrite 0x01000000 1).word = false ∧
    0x01000000 ≤ (byteWrite 0x01000000 1).addr.toNat ∧
    (byteWrite 0x0100FFFF 1).addr.toNat < 0x01000000 + stateV1.params.ibufCap ∧
    (wordRead 0x08).write = false ∧ (wordRead 0x08).word = true ∧ (wordRead 0x08).addr = 0x08 := by decide

/-- ReadsChangeNothing, BusErrorExactlyOutsideTheMap: a read inside and accesses outside the map, at the edges of the windows. -/
theorem witness_accesses (acts : List HostAct) (t : Transfer) :
    ({ stateV1 with inbox := .access t :: acts } : State).inbox = .access t :: acts ∧ (wordRead 0x3C).write = false ∧
    LegalAccess stateV1.params (wordRead 0x3C) ∧ ¬ LegalAccess stateV1.params (wordRead 0x40) ∧
    LegalAccess stateV1.params (wordRead 0x2FF4) ∧ ¬ LegalAccess stateV1.params (wordRead 0x2FF8) ∧
    LegalAccess stateV1.params (byteWrite 0x0100FFFF 0) ∧ ¬ LegalAccess stateV1.params (byteWrite 0x01010000 0) ∧
    LegalAccess stateV1.params (byteRead 0x02010001) ∧ ¬ LegalAccess stateV1.params (byteWrite 0x02010001 0) := by
  refine ⟨rfl, rfl, ?_, ?_, ?_, ?_, ?_, ?_, ?_, ?_⟩ <;> unfold LegalAccess <;> decide

/-- HostWritesTakeEffect: `ILEN`, and the last byte of the default `IBUF` with bits set above the byte, early and not. -/
theorem witness_host_writes (acts : List HostAct) (t : Transfer) :
    ({ stateV1 with inbox := .access t :: acts } : State).inbox = .access t :: acts ∧
    ({ stateV1 with inbox := .early t :: acts } : State).inbox = .early t :: acts ∧
    stateV1.busy = false ∧ (registerWrite 0x10 7).write = true ∧ (registerWrite 0x10 7).word = true ∧
    (registerWrite 0x10 7).addr = 0x00000010 ∧
    ({ byteWrite 0x0100FFFF 0 with wdata := 0xFFFFFF41 } : Transfer).write = true ∧
    ({ byteWrite 0x0100FFFF 0 with wdata := 0xFFFFFF41 } : Transfer).word = false ∧
    ({ byteWrite 0x0100FFFF 0 with wdata := 0xFFFFFF41 } : Transfer).addr.toNat = 0x01000000 + 65535 ∧
    65535 < stateV1.params.ibufCap ∧ Memory.wf stateV1.ibuf :=
  ⟨rfl, rfl, rfl, rfl, rfl, rfl, rfl, rfl, by decide, by decide, List.Pairwise.nil⟩

/-- R41: bits 31:8 of a byte write's data are ignored. -/
theorem test_byte_write_ignores_upper_bits :
    (nextOf (step { stateV1 with inbox := [.early { byteWrite 0x01000002 0 with wdata := 0xFFFFFF41 }] })).map
      (fun t => t.ibuf) = some [(2, 0x41)] := by decide +kernel

/-- ByteWindowsReadBack: the first byte of `IBUF`, written; the last byte of `OBUF`, holding none; after V51 the first of `OBUF`. -/
theorem witness_byte_windows (acts : List HostAct) (a : Word) :
    ({ stateV1 with inbox := .early (byteRead a) :: acts } : State).inbox = .early (byteRead a) :: acts ∧
    stateV1.busy = false ∧ (byteRead a).write = false ∧ (byteRead a).word = false ∧
    (byteRead 0x01000000).addr.toNat = 0x01000000 + 0 ∧ 0 < stateV1.params.ibufCap ∧
    (byteRead 0x02010001).addr.toNat = 0x02000000 + 65537 ∧ 65537 < stateV1.params.obufCap ∧
    stateV1.params.ibufCap ≤ 2 ^ 24 ∧ Memory.read (loaded stateV1 [0x43]).ibuf 0 = some 0x43 ∧
    Memory.read ({ stateV1 with obuf := [(0, 0x03), (1, 0x98)] } : State).obuf 0 = some 0x03 :=
  ⟨rfl, rfl, rfl, rfl, by decide, by decide, by decide, by decide, by decide, by decide, by decide⟩

/-- EarlyTransferOutsideACommandIsATransfer. -/
theorem witness_early_transfer (t : Transfer) (acts : List HostAct) :
    ({ stateV1 with inbox := .early t :: acts } : State).inbox = .early t :: acts := rfl

/-- RegistersReadAsStated, StatusShowsTheFourFlags, TreeAndCountWindowsReadBack, CodeWindowReadsBack: the first and last elements
of the windows. -/
theorem witness_windows (acts : List HostAct) (a : Word) :
    ({ stateV1 with inbox := .access (wordRead a) :: acts } : State).inbox = .access (wordRead a) :: acts ∧
    stateV1.busy = false ∧ 15 < 16 ∧ 510 < 511 ∧ 1 < 2 ∧ stateV1.nnode.toNat ≤ 5 ∧
    slot stateV1 2 = some (.leaf 0x43 2) ∧ slot stateV1 4 = some (.internal 10 0 3) ∧ TableOk stateV1.ct :=
  ⟨rfl, rfl, by decide, by decide, by decide, by decide, slot_v1.2.2.1, slot_v1.2.2.2.2, witness_tableOk⟩

/-- UnusedSlotsAreUnobservable: two states that differ in slot 5, which is out of use. -/
theorem witness_sameInUse :
    SameInUse stateV1 { stateV1 with node := stateV1.node.set 5 (.leaf 1 1) } ∧
    stateV1 ≠ { stateV1 with node := stateV1.node.set 5 (.leaf 1 1) } ∧ step stateV1 = .next stateV1 := by
  refine ⟨⟨rfl, ?_⟩, fun h => ?_, rfl⟩
  on_goal 2 => exact absurd (congrArg (fun s => s.node[5]) h) (by decide +kernel)
  intro k hk
  have hk5 : k < 5 := hk
  rw [Vector.getElem?_set]
  exact (if_neg (by omega)).symm

/-- AnalyzeCountsTheInput, AnalyzeResultProperties. -/
theorem witness_analyze :
    (loaded .reset [0x61]).ilen.toNat ≤ (loaded .reset [0x61]).params.ibufCap ∧
    ∃ t, exec .analyze (loaded .reset [0x61]) = .next t :=
  ⟨by decide, exec_answers_next _ _ (by decide)⟩

/-- BuildRefusesTheEmptyTable and the statements about a successful BUILD. -/
theorem witness_build :
    (∀ c : Byte, State.reset.ft[c.toNat] = 0) ∧ (∃ c : Byte, stateV1.ft[c.toNat] ≠ 0) ∧ stateV1.params.tieOk = true ∧
    ftSum stateV1.ft ≤ 2 ^ 24 ∧ ∃ t, exec .build stateV1 = .next t ∧ slot t 3 = some (.internal 5 2 1) := by
  refine ⟨fun c => by simp [State.reset], ⟨0x41, by decide +kernel⟩, by decide, by decide +kernel, ?_⟩
  exact exists_next (f := fun t => slot t 3) (by decide +kernel)

theorem gencodes_v1 : ∃ t, exec .gencodes stateV1 = .next t := by
  obtain ⟨t, ht, -⟩ := exists_next (f := State.err) (a := none) (o := exec .gencodes stateV1) (by decide +kernel)
  exact ⟨t, ht⟩

/-- V1's `FT` and the tree BUILD makes of it. -/
def builtV1 : State := (nextOf (exec .build stateV1)).getD .reset

/-- HigherCountNeverGetsALongerCode. -/
theorem witness_counts :
    ftSum stateV1.ft ≤ 2 ^ 24 ∧ 0 < countOf stateV1.ft 0x42 ∧ countOf stateV1.ft 0x42 < countOf stateV1.ft 0x41 ∧
    exec .build stateV1 = .next builtV1 ∧ ∃ u, exec .gencodes builtV1 = .next u := by
  refine ⟨by decide +kernel, by decide +kernel, by decide +kernel, next_getD (exec_answers_next _ _ (by decide)), ?_⟩
  obtain ⟨t, ht, -⟩ := exists_next (f := State.err) (a := none) (o := exec .gencodes builtV1) (by decide +kernel)
  exact ⟨t, ht⟩

/-- GencodesNeedsATree and the statements about a successful GENCODES, for one leaf and for three. -/
theorem witness_gencodes :
    State.reset.nnode = 0 ∧ stateV1.nnode ≠ 0 ∧ TreeShape stateV1 3 ∧ TreeShape stateLeaf 1 ∧
    slot stateLeaf 0 = some (.leaf 0x61 4) ∧ (∃ t, exec .gencodes stateV1 = .next t) ∧
    ∃ t, exec .gencodes stateLeaf = .next t := by
  refine ⟨rfl, by decide, witness_treeShape, witness_treeShape_leaf, slot_leaf, gencodes_v1, ?_⟩
  obtain ⟨t, ht, -⟩ := exists_next (f := State.err) (a := none) (o := exec .gencodes stateLeaf) (by decide +kernel)
  exact ⟨t, ht⟩

/-- GencodesIgnoresFrequencies: V1's tree with another frequency in slot 0. -/
theorem witness_frequencies :
    (∀ k, (slot stateV1 k).map withoutFreq =
      (slot { stateV1 with node := stateV1.node.set 0 (.leaf 0x41 9) } k).map withoutFreq) ∧
    slot stateV1 0 ≠ slot { stateV1 with node := stateV1.node.set 0 (.leaf 0x41 9) } 0 ∧
    (∃ t, exec .gencodes stateV1 = .next t) ∧
    ∃ t, exec .gencodes { stateV1 with node := stateV1.node.set 0 (.leaf 0x41 9) } = .next t ∧ t.err = none := by
  refine ⟨fun k => ?_, by decide +kernel, gencodes_v1, exists_next (f := State.err) (by decide +kernel)⟩
  by_cases hk : k = 0
  · subst hk; decide +kernel
  · have : (stateV1.node.set 0 (.leaf 0x41 9))[k]? = stateV1.node[k]? := by
      rw [Vector.getElem?_set]
      exact if_neg (by omega)
    simp only [slot, this]

theorem allCoded_v1 : AllCoded stateV1.ct [0x43, 0x41, 0x42] := by unfold AllCoded; decide +kernel

/-- PackWritesThePaddedStream, and the statements about a successful PACK. -/
theorem witness_pack :
    (loaded stateV1 [0x43, 0x41, 0x42]).ilen.toNat ≤ stateV1.params.ibufCap ∧
    inputBytes (loaded stateV1 [0x43, 0x41, 0x42]) = [0x43, 0x41, 0x42] ∧ AllCoded stateV1.ct [0x43, 0x41, 0x42] ∧
    ([0x43, 0x41, 0x42] : List Byte).flatMap (codeBits stateV1.ct) = [true, false, false, true, true] ∧
    2 + 5 / 8 ≤ stateV1.params.obufCap ∧ stateV1.params.wellFormed = true ∧ stateV1.err = none ∧
    ∃ t, exec .pack (loaded stateV1 [0x43, 0x41, 0x42]) = .next t ∧ t.err = none := by
  refine ⟨by decide, by decide +kernel, allCoded_v1, by decide +kernel, by decide, by decide, rfl, ?_⟩
  exact exists_next (f := State.err) (by decide +kernel)

/-- PackFaultsInOrder: one byte too long (V54), a byte without a code (V53), an output of 3 bytes for a buffer of 2 (V55). -/
theorem witness_pack_faults :
    ({ stateV1 with ilen := 65537 } : State).params.ibufCap < ({ stateV1 with ilen := 65537 } : State).ilen.toNat ∧
    ¬ AllCoded stateV1.ct (inputBytes (loaded stateV1 [0x44])) ∧
    ({ stateV1 with params := { defaultParams with obufCap := 2 } } : State).params.obufCap <
      2 + ((List.replicate 8 (0x41 : Byte)).flatMap (codeBits stateV1.ct)).length / 8 ∧
    AllCoded stateV1.ct (List.replicate 8 0x41) := by
  unfold AllCoded
  decide +kernel

/-- UnpackDecodesExactlyTheParsableStreams: `03 98` holds "CAB" (V73), for a large and for a small output buffer; `07 80` holds
no whole sequence of codes (V60). -/
theorem witness_unpack :
    TableOk stateV1.ct ∧ stateV1.params.wellFormed = true ∧
    0 < (loaded stateV1 [0x03, 0x98]).ilen.toNat ∧ (loaded stateV1 [0x03, 0x98]).ilen.toNat ≤ stateV1.params.ibufCap ∧
    (ibufByte (loaded stateV1 [0x03, 0x98]) 0).toNat ≤ bitsAfterHeader (loaded stateV1 [0x03, 0x98]) ∧
    AllCoded stateV1.ct [0x43, 0x41, 0x42] ∧
    payload (loaded stateV1 [0x03, 0x98]) = ([0x43, 0x41, 0x42] : List Byte).flatMap (codeBits stateV1.ct) ∧
    3 ≤ stateV1.params.obufCap ∧ ({ defaultParams with obufCap := 2 } : Params).wellFormed = true ∧
    ({ defaultParams with obufCap := 2 } : Params).obufCap < 3 :=
  ⟨witness_tableOk, by decide, by decide, by decide, by decide +kernel, allCoded_v1, by decide +kernel, by decide,
    by decide, by decide⟩

theorem witness_unpack_malformed :
    payload (loaded stateV1 [0x07, 0x80]) = [true] ∧
    ∀ out, AllCoded stateV1.ct out → payload (loaded stateV1 [0x07, 0x80]) ≠ out.flatMap (codeBits stateV1.ct) := by
  have hp : payload (loaded stateV1 [0x07, 0x80]) = [true] := by decide +kernel
  refine ⟨hp, fun out ha he => ?_⟩
  rw [hp] at he
  cases out with
  | nil => simp at he
  | cons b out =>
    obtain ⟨x, hx⟩ := Option.ne_none_iff_exists'.mp (ha b List.mem_cons_self)
    rw [List.flatMap_cons, codeBits_of_codeOf hx] at he
    rcases (codeOf_v1 b x).mp hx with ⟨-, rfl⟩ | ⟨-, rfl⟩ | ⟨-, rfl⟩ <;> simp at he

/-- UnpackChecksLengthAndHeaderFirst: V81, V64, and V62's `09 00`, one more than the bits there are. -/
theorem witness_unpack_header :
    ({ stateV1 with ilen := 65537 } : State).params.ibufCap < ({ stateV1 with ilen := 65537 } : State).ilen.toNat ∧
    stateV1.ilen = 0 ∧ 0 < (loaded stateV1 [0x09, 0x00]).ilen.toNat ∧
    (loaded stateV1 [0x09, 0x00]).ilen.toNat ≤ stateV1.params.ibufCap ∧
    bitsAfterHeader (loaded stateV1 [0x09, 0x00]) < (ibufByte (loaded stateV1 [0x09, 0x00]) 0).toNat := by decide +kernel

/-- StrippedBitsAreNotExamined: V65 and V66 differ in a stripped bit. -/
theorem witness_stripped :
    ibufByte (loaded stateV1 [0x01, 0x07, 0xF4]) 0 = ibufByte (loaded stateV1 [0x01, 0x07, 0xF5]) 0 ∧
    payload (loaded stateV1 [0x01, 0x07, 0xF4]) = payload (loaded stateV1 [0x01, 0x07, 0xF5]) ∧
    inputBytes (loaded stateV1 [0x01, 0x07, 0xF4]) ≠ inputBytes (loaded stateV1 [0x01, 0x07, 0xF5]) ∧
    (∃ t, exec .unpack (loaded stateV1 [0x01, 0x07, 0xF4]) = .next t) ∧
    ∃ t, exec .unpack (loaded stateV1 [0x01, 0x07, 0xF5]) = .next t :=
  ⟨by decide +kernel, by decide +kernel, by decide +kernel, exec_answers_next _ _ (by decide),
    exec_answers_next _ _ (by decide)⟩

/-- UnpackResultProperties. -/
theorem witness_unpack_result :
    stateV1.params.wellFormed = true ∧ stateV1.err = none ∧
    ∃ t, exec .unpack (loaded stateV1 [0x03, 0x98]) = .next t ∧ t.err = none :=
  ⟨by decide, rfl, exists_next (f := State.err) (by decide +kernel)⟩

/-- EmptySequencePacksWithoutATable: no table, `ILEN` = 0; and `08 00`. -/
theorem witness_empty :
    State.reset.ilen = 0 ∧ 2 ≤ State.reset.params.obufCap ∧ (loaded .reset [0x08, 0x00]).ilen = 2 ∧
    2 ≤ (loaded .reset [0x08, 0x00]).params.ibufCap ∧ Memory.read (loaded .reset [0x08, 0x00]).ibuf 0 = some 0x08 ∧
    Memory.read (loaded .reset [0x08, 0x00]).ibuf 1 = some 0x00 := by decide

/-- UnpackReturnsWhatWasPacked: "CAB" packed to `03 98` (V51), and `03 98` moved into `IBUF`. -/
theorem witness_round_trip :
    ∃ t, exec .pack (loaded stateV1 [0x43, 0x41, 0x42]) = .next t ∧ t.err = none ∧
      (loaded stateV1 [0x03, 0x98]).ilen = t.olen ∧ inputBytes (loaded stateV1 [0x03, 0x98]) = outputBytes t ∧
      (loaded stateV1 [0x03, 0x98]).ilen.toNat ≤ stateV1.params.ibufCap ∧
      (loaded stateV1 [0x43, 0x41, 0x42]).ilen.toNat ≤ stateV1.params.obufCap := by
  obtain ⟨t, ht, hf⟩ := exists_next (f := fun t => (t.err, t.olen, outputBytes t)) (a := (none, 2, [0x03, 0x98]))
    (o := exec .pack (loaded stateV1 [0x43, 0x41, 0x42])) (by decide +kernel)
  simp only [Prod.mk.injEq] at hf
  refine ⟨t, ht, hf.1, ?_, ?_, by decide, by decide⟩
  · rw [hf.2.1]; rfl
  · rw [hf.2.2]; decide +kernel

/-- The one-byte input `00` (V15), and the four states COMPRESS goes through. -/
def input15 : State := loaded .reset [0x00]
def analyzed15 : State := (nextOf (exec .analyze input15)).getD .reset
def built15 : State := (nextOf (exec .build analyzed15)).getD .reset
def coded15 : State := (nextOf (exec .gencodes built15)).getD .reset
def packed15 : State := (nextOf (exec .pack coded15)).getD .reset

theorem next15 :
    exec .analyze input15 = .next analyzed15 ∧ exec .build analyzed15 = .next built15 ∧
    exec .gencodes built15 = .next coded15 ∧ exec .pack coded15 = .next packed15 := by
  refine ⟨next_getD (exec_answers_next _ _ (by decide)), next_getD (exec_answers_next _ _ (by decide)), next_getD ?_,
    next_getD (exec_answers_next _ _ (by decide))⟩
  obtain ⟨t, ht, -⟩ := exists_next (f := State.err) (a := none) (o := exec .gencodes built15) (by decide +kernel)
  exact ⟨t, ht⟩

/-- CompressNeverMissesACode, CompressAddsAtMostTwoBytes, DecompressReturnsWhatWasCompressed: V15 packs to `07 00`; with
`next15`. -/
theorem witness_compress :
    input15.params.wellFormed = true ∧ input15.err = none ∧ InputWritten input15 ∧ 1 ≤ input15.ilen.toNat ∧
    input15.ilen.toNat ≤ input15.params.ibufCap ∧ input15.ilen.toNat + 2 ≤ input15.params.obufCap ∧
    packed15.err = none ∧
    (loaded packed15 [0x07, 0x00]).ilen = packed15.olen ∧ inputBytes (loaded packed15 [0x07, 0x00]) = outputBytes packed15 ∧
    packed15.olen.toNat ≤ input15.params.ibufCap := by
  have h : (packed15.err, packed15.olen, outputBytes packed15) = (none, 2, [0x07, 0x00]) := by decide +kernel
  simp only [Prod.mk.injEq] at h
  refine ⟨by decide, rfl, ?_, by decide, by decide, by decide, h.1, ?_, ?_, ?_⟩
  · intro i hi
    have : i < 1 := hi
    obtain rfl : i = 0 := by omega
    decide
  · rw [h.2.1]; rfl
  · rw [h.2.2]; decide +kernel
  · rw [h.2.1]; decide

/-- InputUnavailableExactlyWhenTooLong, FaultEmptiesItsOwnDestination: each command's fault (V22, V30, V40, V53, V60). -/
theorem witness_faults :
    stateV1.err = none ∧
    (nextOf (exec .analyze { stateV1 with ilen := 65537 })).map State.err = some (some .inputUnavailable) ∧
    (nextOf (exec .build .reset)).map State.err = some (some .emptyAlphabet) ∧
    (nextOf (exec .gencodes .reset)).map State.err = some (some .noTree) ∧
    (nextOf (exec .pack (loaded stateV1 [0x44]))).map State.err = some (some .missingCode) ∧
    (nextOf (exec .unpack (loaded stateV1 [0x07, 0x80]))).map State.err = some (some .malformedStream) := by
  decide +kernel

/-- NoUnitTouchesAnothersState: every command has a next state from V1's. -/
theorem witness_every_command (i : Instr) : ∃ t, exec i stateV1 = .next t := by
  cases i with
  | gencodes => exact witness_gencodes.2.2.2.2.2.1
  | analyze | build | pack | unpack | clrerr => exact exec_answers_next _ _ (by decide)

/-- EveryChangeHasItsCause: each kind of state is changed by its one cause: `FT` and the tree and `CT` by commands 1 to 3, the
output by commands 4 and 5, `ILEN` and `IBUF` by their writes, `ERR` by a fault and by CLRERR, `BUSY` by reset. -/
theorem witness_changes :
    ((nextOf (step (withCommand (loaded stateV1 [0x44]) 1))).map fun t => decide (t.ft ≠ stateV1.ft)) = some true ∧
    ((nextOf (step (withCommand { State.reset with ft := ftV1 } 2))).map fun t => t.nnode) = some 5 ∧
    ((nextOf (step (withCommand { stateLeaf with ct := Vector.replicate 256 none } 3))).map fun t => t.ct[0x61]) =
      some (some [false]) ∧
    ((nextOf (step (withCommand stateV1 4))).map fun t => t.olen) = some 2 ∧
    ((nextOf (step (withCommand (loaded stateV1 [0x03, 0x98]) 5))).map fun t => t.olen) = some 3 ∧
    ((nextOf (step { stateV1 with inbox := [.early (registerWrite 0x10 7)] })).map fun t => t.ilen) = some 7 ∧
    ((nextOf (step { stateV1 with inbox := [.access (byteWrite 0x01000002 9)] })).map fun t => t.ibuf) = some [(2, 9)] ∧
    errAfter State.reset 3 = some (some .noTree) ∧ errAfter State.reset 0 = some (some .illegalCommand) ∧
    errAfter { stateV1 with err := some .noTree } 6 = some none ∧
    ((nextOf (step { stateV1 with busy := true, inbox := [.rst] })).map fun t => t.busy) = some false := by
  decide +kernel

/-- UnspecifiedOutputIsANewDraw, with R157: a PACK with nothing but reset before it takes a draw that reset did not take. -/
theorem witness_new_draw :
    State.reset.obufDraw < State.reset.draws ∧ (∃ t, step { State.reset with inbox := [.rst] } = .next t) ∧
    (nextOf (exec .pack State.reset)).map (fun t => decide (t.obufDraw = State.reset.obufDraw)) = some false ∧
    (nextOf (exec .unpack State.reset)).map (fun t => (t.err, decide (t.obufDraw = State.reset.obufDraw))) =
      some (some .malformedStream, false) :=
  ⟨by decide, ⟨_, rfl⟩, by decide, by decide⟩

/-- FirstErrorIsKept: a faulted core with a step. -/
theorem witness_fault_state :
    ({ stateV1 with err := some .noTree } : State).err = some .noTree ∧
    errAfter { stateV1 with err := some .noTree } 0x00000001 = some (some .noTree) := by decide +kernel

/-- ResetLeavesTheStatedValues: a step that resets V1's state. -/
theorem witness_reset : ∃ t, step { stateV1 with inbox := [.rst] } = .next t := ⟨_, rfl⟩

/-- StepKeepsTheInvariant, CoreNeverStops: a state that meets the invariant and its step. -/
theorem witness_invariant_step :
    Inv { stateV1 with inbox := [.rst] } ∧ ∃ t, step { stateV1 with inbox := [.rst] } = .next t :=
  ⟨witness_inv _, _, rfl⟩

/-- GreedyScanFindsTheOnlyParse. -/
theorem witness_parse : TableOk stateV1.ct ∧ AllCoded stateV1.ct [0x43, 0x41, 0x42] := ⟨witness_tableOk, allCoded_v1⟩

end Sys2Proof.Tests
end

section
/-! What a step can do and by which cause: the inversions of the decoder and of the address map, what each command may change,
and the inversion of one step. -/

namespace Sys2Proof.Machine

/-! ### inversions of the decoder (R61, R62, R64) -/

theorem eq_encode_of_decode {w : Word} {i : Instr} (h : decode w = .ok i) : w = encode i := by
  unfold decode at h
  split at h
  · cases h
  · next hrsv =>
    split at h
    · next j hj =>
      cases h
      obtain ⟨l₁, l₂, hmap, -⟩ := List.lookup_eq_some_iff.mp hj
      have hmem : (opcField w, i) ∈ opcodeMap := by simp [hmap]
      have hopc : opcField w = opcodeOf i := by
        simp only [opcodeMap, List.mem_cons, Prod.mk.injEq, List.not_mem_nil, or_false] at hmem
        rcases hmem with ⟨ho, rfl⟩ | ⟨ho, rfl⟩ | ⟨ho, rfl⟩ | ⟨ho, rfl⟩ | ⟨ho, rfl⟩ | ⟨ho, rfl⟩ <;> exact ho
      rw [← word_eq_fields w, not_not.mp hrsv, hopc, encode]
    · cases h

theorem decode_encode (i : Instr) : decode (encode i) = .ok i := by cases i <;> rfl

/-- The words 1 to 6 are the words of the commands. -/
theorem exists_eq_encode_of_toNat {w : Word} (hpos : w.toNat ≠ 0) (hle : w.toNat ≤ 6) : ∃ i, w = encode i := by
  have hw : w = BitVec.ofNat 32 w.toNat := by simp
  generalize w.toNat = n at *
  match n, hpos, hle with
  | 1, _, _ => exact ⟨.analyze, hw⟩
  | 2, _, _ => exact ⟨.build, hw⟩
  | 3, _, _ => exact ⟨.gencodes, hw⟩
  | 4, _, _ => exact ⟨.pack, hw⟩
  | 5, _, _ => exact ⟨.unpack, hw⟩
  | 6, _, _ => exact ⟨.clrerr, hw⟩

theorem toNat_of_decode_error {w : Word} {e : Illegal} (h : decode w = .error e) : w.toNat = 0 ∨ 6 < w.toNat := by
  by_contra hn
  obtain ⟨i, rfl⟩ := exists_eq_encode_of_toNat (w := w) (by omega) (by omega)
  rw [decode_encode] at h
  cases h

/-! ### inversions of the address map (R43, R44) -/

theorem locate_eq_reg {p : Params} {t : Transfer} {n : Nat} (h : locate p t = some (.reg n)) :
    t.word = true ∧ t.addr.toNat = 4 * n := by
  unfold locate at h
  split at h
  · next hword =>
    refine ⟨hword, ?_⟩
    unfold wordLocation at h
    split at h
    · cases h
    · split at h
      · have := Location.reg.inj (Option.some.inj h)
        omega
      · repeat (split at h; · cases h)
        cases h
  · unfold byteLocation at h
    repeat (split at h; · cases h)
    cases h

theorem locate_eq_ibuf {p : Params} {t : Transfer} {a : Nat} (h : locate p t = some (.ibuf a)) :
    t.word = false ∧ t.addr.toNat = 0x01000000 + a := by
  unfold locate at h
  split at h
  · unfold wordLocation at h
    repeat (split at h; · cases h)
    cases h
  · next hword =>
    refine ⟨Bool.eq_false_iff.mpr hword, ?_⟩
    unfold byteLocation at h
    split at h
    · have := Location.ibuf.inj (Option.some.inj h)
      omega
    · split at h <;> cases h

/-- A write that reaches register n is a write of its data at byte address 4n. -/
theorem nextWordWrite_of_locate {s : State} {t : Transfer} {n : Nat} {addr : Word} (hnext : NextTransfer s t)
    (hwrite : t.write = true) (hl : locate s.params t = some (.reg n)) (haddr : addr.toNat = 4 * n) :
    NextWordWrite s addr t.wdata := by
  obtain ⟨hword, ha⟩ := locate_eq_reg hl
  exact ⟨t, hnext, hwrite, hword, BitVec.eq_of_toNat_eq (ha.trans haddr.symm), rfl⟩

/-! ### what a command may change (R144, R157) -/

/-- What a command that raises nothing has written when it comes to its end: its own destination, with some values. -/
inductive Writes : Instr → State → State → Prop where
  | analyze (s : State) (ft : Vector Word 256) : Writes .analyze s { s with ft := ft }
  | build (s : State) (node : Vector TreeNode 511) (nnode root : BitVec 9) :
      Writes .build s { s with node := node, nnode := nnode, root := root }
  | gencodes (s : State) (ct : Vector (Option Bits) 256) : Writes .gencodes s { s with ct := ct }
  | pack (s : State) (bytes : List Byte) (bits : Nat) : Writes .pack s (writeOutput s bytes bits)
  | unpack (s : State) (bytes : List Byte) (bits : Nat) : Writes .unpack s (writeOutput s bytes bits)
  | clrerr (s : State) : Writes .clrerr s (clearError s)

/-- A command raises a kind of its own, or writes its own destination and ends. -/
theorem exec_raises_or_writes {i : Instr} {s t : State} (h : exec i s = .next t) :
    (∃ k ∈ raises i, t = raise k (some i) s) ∨ ∃ u, Writes i s u ∧ t = complete u := by
  cases i with
  | analyze =>
    obtain ⟨-, ht⟩ | ⟨-, ht⟩ := execAnalyze_cases h
    · exact .inr ⟨_, .analyze s _, ht⟩
    · exact .inl ⟨_, by simp [raises], ht⟩
  | build =>
    obtain ⟨-, ht⟩ | ⟨-, ht⟩ := execBuild_cases h
    · exact .inl ⟨_, by simp [raises], ht⟩
    · exact .inr ⟨_, .build s _ _ _, ht⟩
  | gencodes =>
    obtain ⟨-, ht⟩ | ⟨-, codes, -, ht⟩ := execGencodes_cases h
    · exact .inl ⟨_, by simp [raises], ht⟩
    · exact .inr ⟨_, .gencodes s _, ht⟩
  | pack =>
    obtain ⟨-, ht⟩ | ⟨-, -, ht⟩ | ⟨-, -, bits, -, ⟨-, ht⟩ | ⟨-, ht⟩⟩ := execPack_cases h
    · exact .inl ⟨_, by simp [raises], ht⟩
    · exact .inl ⟨_, by simp [raises], ht⟩
    · exact .inr ⟨_, .pack s _ _, ht⟩
    · exact .inl ⟨_, by simp [raises], ht⟩
  | unpack =>
    obtain ⟨-, ht⟩ | ⟨-, -, ht⟩ | ⟨-, header, rest, -, rfl⟩ := execUnpack_cases h
    · exact .inl ⟨_, by simp [raises], ht⟩
    · exact .inl ⟨_, by simp [raises], ht⟩
    · obtain ⟨-, ht⟩ | ⟨-, n, out, cand, -, -, ⟨-, ht⟩ | ⟨-, -, ht⟩ | ⟨-, -, ht⟩⟩ := unpackStream_cases s header rest
      · exact .inl ⟨_, by simp [raises], ht⟩
      · exact .inl ⟨_, by simp [raises], ht⟩
      · exact .inl ⟨_, by simp [raises], ht⟩
      · exact .inr ⟨_, .unpack s _ _, ht⟩
  | clrerr => exact .inr ⟨_, .clrerr s, (Host.Outcome.next.inj h).symm⟩

/-- What command `i` leaves as it was, and what it does to `ERR` and `BUSY`. -/
structure ExecFrame (i : Instr) (s t : State) : Prop where
  params : t.params = s.params
  ibuf : t.ibuf = s.ibuf
  ilen : t.ilen = s.ilen
  busy : t.busy = false
  ft : i ≠ .analyze → t.ft = s.ft
  tree : i ≠ .build → t.node = s.node ∧ t.nnode = s.nnode ∧ t.root = s.root
  ct : i ≠ .gencodes → t.ct = s.ct
  output : i ≠ .pack → i ≠ .unpack →
    t.obuf = s.obuf ∧ t.obufDraw = s.obufDraw ∧ t.olen = s.olen ∧ t.tbits = s.tbits
  err : (∃ k ∈ raises i, t.err = some k) ∨ (i = .clrerr ∧ t.err = none) ∨ t.err = s.err

theorem raise_frame {i : Instr} {k : ErrorKind} (s : State) (hk : k ∈ raises i) :
    ExecFrame i s (raise k (some i) s) where
  params := raise_params ..
  ibuf := raise_ibuf ..
  ilen := raise_ilen ..
  busy := raise_busy ..
  ft hi := raise_ft _ _ _ (by simpa using hi)
  tree hi := ⟨raise_node .., raise_nnode _ _ _ (by simpa using hi), raise_root _ _ _ (by simpa using hi)⟩
  ct hi := raise_ct _ _ _ (by simpa using hi)
  output hp hu :=
    have hp' : some i ≠ some .pack := by simpa using hp
    have hu' : some i ≠ some .unpack := by simpa using hu
    ⟨raise_obuf _ _ _ hp' hu', raise_obufDraw _ _ _ hp' hu', raise_olen _ _ _ hp' hu', raise_tbits _ _ _ hp' hu'⟩
  err := .inl ⟨k, hk, rfl⟩

theorem complete_writes_frame {i : Instr} {s u : State} (h : Writes i s u) : ExecFrame i s (complete u) := by
  cases h <;> constructor <;> simp

theorem exec_frame {i : Instr} {s t : State} (h : exec i s = .next t) : ExecFrame i s t := by
  obtain ⟨k, hk, rfl⟩ | ⟨u, hu, rfl⟩ := exec_raises_or_writes h
  · exact raise_frame s hk
  · exact complete_writes_frame hu

/-! ### the inversion of one step (R42, R53, R63, R180) -/

/-- What the step from `s` to `t` was. In every case but reset the port's record, the inbox and the answers, is what the step
left. -/
inductive StepCause (s t : State) : Prop where
  /-- Nothing but the port's record changed: no act, a read, a bus error, a command ignored. -/
  | quiet (acts : List HostAct) (ans : List Answer) (ht : t = { s with inbox := acts, answers := ans })
  /-- A reset (R180). -/
  | reset (acts : List HostAct) (hnext : NextReset s) (ht : t = State.resetWith s.params (s.draws + 1) acts)
  /-- The host's write of `ILEN` (R18). -/
  | lengthWrite (acts : List HostAct) (ans : List Answer) (v : Word) (hidle : s.busy = false)
      (hnext : NextWordWrite s 0x00000010 v) (ht : t = writeIlen { s with inbox := acts, answers := ans } v)
  /-- The host's write of a byte of `IBUF` (R30). -/
  | byteWrite (acts : List HostAct) (ans : List Answer) (r : Transfer) (a : Nat) (hidle : s.busy = false)
      (hnext : NextTransfer s r) (hwrite : r.write = true) (hl : locate s.params r = some (.ibuf a))
      (ht : t = writeIbuf { s with inbox := acts, answers := ans } a (r.wdata.setWidth 8))
  /-- An illegal word written to `CMD` (R155). -/
  | illegal (acts : List HostAct) (ans : List Answer) (w : Word) (e : Illegal) (hidle : s.busy = false)
      (herr : s.err = none) (hissue : Issues s w) (hdec : decode w = .error e)
      (ht : t = raise .illegalCommand none { s with inbox := acts, answers := ans })
  /-- A command that ran to its end (R63): any command of an unfaulted core, CLRERR of a faulted one. -/
  | command (acts : List HostAct) (ans : List Answer) (busy : Bool) (i : Instr) (hidle : s.busy = false)
      (herr : s.err = none ∨ i = .clrerr) (hissue : Issues s (encode i))
      (hexec : exec i { s with inbox := acts, answers := ans, busy := busy } = .next t)

/-- A word written to `CMD` of an idle core. -/
theorem issue_cause {s t : State} {w : Word} {acts : List HostAct} {ans : List Answer} (hidle : s.busy = false)
    (hissue : Issues s w) (h : issue w { s with inbox := acts, answers := ans } = .next t) : StepCause s t := by
  obtain ⟨hbusy, -⟩ | ⟨-, -, rfl, he⟩ | ⟨-, -, -, he⟩ | ⟨-, herr, ⟨e, hd⟩, he⟩ | ⟨-, herr, i, hd, he⟩ :=
    issue_cases w { s with inbox := acts, answers := ans }
  · exact absurd hbusy (by simp [hidle])
  · exact .command acts ans s.busy .clrerr hidle (.inr rfl) hissue (he.symm.trans h)
  · exact .quiet acts ans (Host.Outcome.next.inj (h.symm.trans he))
  · exact .illegal acts ans w e hidle herr hissue hd (Host.Outcome.next.inj (h.symm.trans he))
  · obtain ⟨left, more, -, ha⟩ := accept_eq { s with inbox := acts, answers := ans }
    rw [eq_encode_of_decode hd] at hissue
    exact .command left (ans ++ more) true i hidle (.inl herr) hissue (by rw [← h, he, ha])

/-- A transfer met by an idle core. -/
theorem idleAccess_cause {s t : State} {r : Transfer} {acts : List HostAct} (hidle : s.busy = false)
    (hnext : NextTransfer s r) (h : idleAccess { s with inbox := acts, answers := [] } r = .next t) :
    StepCause s t := by
  obtain ⟨he, -⟩ | ⟨-, l, -, he⟩ | ⟨hw, hl, he⟩ | ⟨hw, hl, he⟩ | ⟨hw, a, hl, he⟩ :=
    idleAccess_cases { s with inbox := acts, answers := [] } r <;> rw [he] at h
  · exact .quiet acts _ (Host.Outcome.next.inj h).symm
  · exact .quiet acts _ (Host.Outcome.next.inj h).symm
  · exact issue_cause hidle (nextWordWrite_of_locate hnext hw hl rfl) h
  · exact .lengthWrite acts _ _ hidle (nextWordWrite_of_locate hnext hw hl rfl) (Host.Outcome.next.inj h).symm
  · exact .byteWrite acts _ r a hidle hnext hw hl (Host.Outcome.next.inj h).symm

/-- A transfer as the host's next act. -/
theorem transfer_cause {s t : State} {r : Transfer} (hnext : NextTransfer s r) (h : step s = .next t) :
    StepCause s t := by
  obtain ⟨acts, hin⟩ := hnext
  by_cases hb : s.busy = true
  · rw [step_transfer_busy s r acts hin hb] at h
    exact .quiet acts _ (Host.Outcome.next.inj h).symm
  · have hidle : s.busy = false := Bool.eq_false_iff.mpr hb
    rw [step_transfer_idle s r acts hin hidle] at h
    exact idleAccess_cause hidle ⟨acts, hin⟩ h

theorem step_cause {s t : State} (h : step s = .next t) : StepCause s t := by
  cases hin : s.inbox with
  | nil =>
    rw [step_idle s hin] at h
    exact .quiet s.inbox s.answers (Host.Outcome.next.inj h).symm
  | cons act acts =>
    cases act with
    | access r => exact transfer_cause ⟨acts, .inl hin⟩ h
    | early r => exact transfer_cause ⟨acts, .inr hin⟩ h
    | rst =>
      rw [step_rst s acts hin] at h
      exact .reset acts ⟨acts, hin⟩ (Host.Outcome.next.inj h).symm

/-! ### every change has its cause -/

/-- Settles O48: the inversion of one step names the cause, and in each case only the cause's own clause has anything to say;
for a command that clause follows from what the command leaves as it was. -/
theorem everyChangeHasItsCause : Obligations.EveryChangeHasItsCause := by
  intro s t h
  cases step_cause h with
  | quiet acts ans ht => subst ht; simp [obufByte]
  | reset acts hnext ht => subst ht; cases hb : s.busy <;> simp [hnext]
  | lengthWrite acts ans v hidle hnext ht =>
    subst ht
    exact ⟨rfl, by simp, by simp, by simp, by simp [obufByte], fun _ => .inr hnext, by simp, by simp, by simp⟩
  | byteWrite acts ans r a hidle hnext hwrite hl ht =>
    subst ht
    obtain ⟨hword, haddr⟩ := locate_eq_ibuf hl
    have hdata : r.wdata.setWidth 8 = r.wdata.extractLsb' 0 8 := BitVec.setWidth_eq_extractLsb' (by omega)
    refine ⟨rfl, by simp, by simp, by simp, by simp [obufByte], by simp, fun _ => .inr ?_, by simp, by simp⟩
    exact ⟨r, a, hnext, hwrite, hword, haddr, locate_ibuf_inside hl, hl, by simp [hdata], fun j hj => by simp [hj]⟩
  | illegal acts ans w e hidle herr hissue hdec ht =>
    subst ht
    refine ⟨rfl, by simp [raise_ft], by simp [raise_node, raise_nnode, raise_root], by simp [raise_ct],
      by simp [obufByte, raise_obuf, raise_olen, raise_tbits, raise_obufDraw], by simp, by simp,
      fun _ => .inr (.inr ?_), by simp [hidle]⟩
    exact ⟨herr, w, .illegalCommand, hissue, rfl, .inl ⟨toNat_of_decode_error hdec, rfl⟩⟩
  | command acts ans busy i hidle herr hissue hexec =>
    have hf := exec_frame hexec
    have hissues : ∀ j, i = j → Issues s (encode j) := fun j hj => hj ▸ hissue
    refine ⟨hf.params, fun hne => .inr (hissues .analyze ?_), fun hne => .inr (hissues .build ?_),
      fun hne => .inr (hissues .gencodes ?_), fun hne => .inr ?_, fun hne => absurd hf.ilen hne,
      fun hne => absurd hf.ibuf hne, fun hne => .inr ?_, fun hne => absurd (hf.busy.trans hidle.symm) hne⟩
    · exact by_contra fun hi => hne (hf.ft hi)
    · by_contra hi
      obtain ⟨hnode, hnnode, hroot⟩ := hf.tree hi
      simp [hnode, hnnode, hroot] at hne
    · exact by_contra fun hi => hne (hf.ct hi)
    · by_cases hp : i = .pack
      · exact .inl (hissues .pack hp)
      · refine .inr (hissues .unpack (by_contra fun hu => ?_))
        obtain ⟨hobuf, hdraw, holen, htbits⟩ := hf.output hp hu
        simp [obufByte, hobuf, hdraw, holen, htbits] at hne
    · rcases hf.err with ⟨k, hk, herr'⟩ | ⟨rfl, herr'⟩ | herr'
      · have hcmd : i ≠ .clrerr := by
          rintro rfl
          simp [raises] at hk
        exact .inr ⟨herr.resolve_right hcmd, encode i, k, hissue, herr', .inr ⟨i, rfl, hk⟩⟩
      · exact .inl ⟨fun hs => hne (herr'.trans hs.symm), herr', hissue⟩
      · exact absurd herr' hne

end Sys2Proof.Machine
end

section
/-! The paths of a strict binary tree, and the code table GENCODES makes of them (30 R71, 41 R103, 42 R111 to R113). -/

namespace Sys2Proof.Machine

/-! ### the children of a slot -/

/-- The children of a TreeNode, left before right. -/
def nodeChildren : TreeNode → List Nat
  | .leaf _ _ => []
  | .internal _ l r => [l.toNat, r.toNat]

theorem childrenBelow_eq_flatMap (s : State) (n : Nat) :
    childrenBelow s n = (List.range n).flatMap fun k => (slot s k).elim [] nodeChildren := by
  unfold childrenBelow
  congr 1
  funext k
  cases slot s k with
  | none => rfl
  | some node => cases node <;> rfl

/-- Slot j is the child of slot k on side `b`, `false` for left. -/
def Edge (s : State) (k : Nat) (b : Bool) (j : Nat) : Prop :=
  ∃ f l r, slot s k = some (.internal f l r) ∧ j = (if b then r else l).toNat

theorem edge_unique {s : State} {k i j : Nat} {b : Bool} (hi : Edge s k b i) (hj : Edge s k b j) : i = j := by
  obtain ⟨f, l, r, hs, rfl⟩ := hi
  obtain ⟨f', l', r', hs', rfl⟩ := hj
  rw [hs] at hs'
  cases hs'
  rfl

theorem edge_of_mem_children {s : State} {k j : Nat} (h : j ∈ (slot s k).elim [] nodeChildren) :
    ∃ b, Edge s k b j := by
  cases hs : slot s k with
  | none => simp [hs] at h
  | some node =>
    cases node with
    | leaf c f => simp [hs, nodeChildren] at h
    | internal f l r =>
      simp only [hs, Option.elim_some, nodeChildren, List.mem_cons, List.not_mem_nil, or_false] at h
      rcases h with h | h
      · exact ⟨false, f, l, r, hs, h⟩
      · exact ⟨true, f, l, r, hs, h⟩

theorem Edge.mem_children {s : State} {k j : Nat} {b : Bool} (h : Edge s k b j) :
    j ∈ (slot s k).elim [] nodeChildren := by
  obtain ⟨f, l, r, hs, rfl⟩ := h
  cases b <;> simp [hs, nodeChildren]

/-! ### paths (R71) -/

theorem path_nil_iff {s : State} {k j : Nat} : Path s k [] j ↔ k = j := by
  constructor
  · intro h; cases h; rfl
  · rintro rfl; exact .here k

theorem path_cons_iff {s : State} {k j : Nat} {b : Bool} {p : Bits} :
    Path s k (b :: p) j ↔ ∃ m, Edge s k b m ∧ Path s m p j := by
  constructor
  · intro h
    cases h with
    | left _ _ f l r _ hs hp => exact ⟨_, ⟨f, l, r, hs, rfl⟩, hp⟩
    | right _ _ f l r _ hs hp => exact ⟨_, ⟨f, l, r, hs, rfl⟩, hp⟩
  · rintro ⟨m, ⟨f, l, r, hs, rfl⟩, hp⟩
    cases b with
    | false => exact .left k j f l r p hs hp
    | true => exact .right k j f l r p hs hp

theorem path_append_iff {s : State} {k j : Nat} {p q : Bits} :
    Path s k (p ++ q) j ↔ ∃ m, Path s k p m ∧ Path s m q j := by
  induction p generalizing k with
  | nil => simp [path_nil_iff]
  | cons b p ih =>
    simp only [List.cons_append, path_cons_iff, ih]
    constructor
    · rintro ⟨i, he, m, hp, hq⟩; exact ⟨m, ⟨i, he, hp⟩, hq⟩
    · rintro ⟨m, ⟨i, he, hp⟩, hq⟩; exact ⟨i, he, m, hp, hq⟩

theorem path_snoc_iff {s : State} {k j : Nat} {b : Bool} {p : Bits} :
    Path s k (p ++ [b]) j ↔ ∃ m, Path s k p m ∧ Edge s m b j := by
  simp [path_append_iff, path_cons_iff, path_nil_iff]

/-- A path from a slot leads to one slot. -/
theorem path_end_unique {s : State} {k i j : Nat} {p : Bits} (hi : Path s k p i) (hj : Path s k p j) : i = j := by
  induction p generalizing k with
  | nil => rw [← path_nil_iff.mp hi, ← path_nil_iff.mp hj]
  | cons b p ih =>
    obtain ⟨m, he, hp⟩ := path_cons_iff.mp hi
    obtain ⟨m', he', hp'⟩ := path_cons_iff.mp hj
    cases edge_unique he he'
    exact ih hp hp'

/-- No path leads on from a leaf. -/
theorem path_from_leaf {s : State} {k j : Nat} {c : Byte} {f : Word} {p : Bits} (hs : slot s k = some (.leaf c f))
    (h : Path s k p j) : p = [] ∧ j = k := by
  cases h with
  | here => exact ⟨rfl, rfl⟩
  | left _ _ _ _ _ _ hi => simp [hs] at hi
  | right _ _ _ _ _ _ hi => simp [hs] at hi

/-! ### the paths of a strict binary tree (R103) -/

namespace TreeShape

variable {s : State} {n : Nat} (h : TreeShape s n)
include h

theorem edge_range {k j : Nat} {b : Bool} (he : Edge s k b j) : n ≤ k ∧ k < 2 * n - 1 ∧ j < k := by
  obtain ⟨f, l, r, hs, rfl⟩ := he
  have hlt : k < 2 * n - 1 := h.nnode ▸ (slot_some hs).1
  have hle : n ≤ k := by
    by_contra hk
    obtain ⟨c, g, hl⟩ := h.leaf k (by omega)
    simp [hs] at hl
  obtain ⟨f', l', r', hs', hl, hr⟩ := h.internal k hle hlt
  rw [hs] at hs'
  cases hs'
  cases b
  · exact ⟨hle, hlt, hl⟩
  · exact ⟨hle, hlt, hr⟩

/-- Every slot but the root is a child of some slot. -/
theorem exists_parent {j : Nat} (hj : j < 2 * n - 2) : ∃ k b, Edge s k b j := by
  have hm : j ∈ childrenBelow s (2 * n - 1) := h.owned.mem_iff.mpr (List.mem_range.mpr hj)
  rw [childrenBelow_eq_flatMap, List.mem_flatMap] at hm
  obtain ⟨k, -, hk⟩ := hm
  exact ⟨k, edge_of_mem_children hk⟩

/-- A slot is the child of one slot, on one side. -/
theorem parent_unique {i k j : Nat} {a b : Bool} (hi : Edge s i a j) (hk : Edge s k b j) : i = k ∧ a = b := by
  have hnodup : (childrenBelow s (2 * n - 1)).Nodup := h.owned.nodup_iff.mpr List.nodup_range
  rw [childrenBelow_eq_flatMap, List.nodup_flatMap] at hnodup
  obtain ⟨hone, hdisjoint⟩ := hnodup
  have hsymm : Std.Symm (Function.onFun List.Disjoint fun k => (slot s k).elim [] nodeChildren) :=
    ⟨fun _ _ hd => hd.symm⟩
  have hmem : ∀ {m c}, Edge s m c j → m ∈ List.range (2 * n - 1) :=
    fun he => List.mem_range.mpr (h.edge_range he).2.1
  have hik : i = k := by
    by_contra hne
    exact hdisjoint.forall (hmem hi) (hmem hk) hne hi.mem_children hk.mem_children
  subst hik
  have hchildren := hone i (hmem hi)
  obtain ⟨f, l, r, hs, hj⟩ := hi
  obtain ⟨f', l', r', hs', rfl⟩ := hk
  rw [hs] at hs'
  cases hs'
  have hlr : l.toNat ≠ r.toNat := by simpa [hs, nodeChildren] using hchildren
  refine ⟨rfl, ?_⟩
  match a, b with
  | false, false | true, true => rfl
  | false, true => exact absurd hj.symm hlr
  | true, false => exact absurd hj hlr

theorem root_reaches {j : Nat} (hj : j < 2 * n - 1) : ∃ p, Path s s.root.toNat p j := by
  obtain ⟨d, hd⟩ : ∃ d, 2 * n - 2 - j = d := ⟨_, rfl⟩
  induction d using Nat.strong_induction_on generalizing j with
  | _ d ih =>
    by_cases hroot : j = 2 * n - 2
    · exact ⟨[], path_nil_iff.mpr (by rw [h.root, hroot])⟩
    · obtain ⟨k, b, he⟩ := h.exists_parent (j := j) (by omega)
      obtain ⟨-, hk, hlt⟩ := h.edge_range he
      obtain ⟨p, hp⟩ := ih (2 * n - 2 - k) (by omega) hk rfl
      exact ⟨p ++ [b], path_snoc_iff.mpr ⟨k, hp, he⟩⟩

/-- The root is no child. -/
theorem not_edge_root {k : Nat} {b : Bool} : ¬ Edge s k b s.root.toNat := by
  intro he
  obtain ⟨-, hk, hlt⟩ := h.edge_range he
  rw [h.root] at hlt
  omega

theorem root_path_unique {j : Nat} {p q : Bits} (hp : Path s s.root.toNat p j) (hq : Path s s.root.toNat q j) :
    p = q := by
  induction p using List.reverseRecOn generalizing j q with
  | nil =>
    obtain rfl := path_nil_iff.mp hp
    rcases List.eq_nil_or_concat q with rfl | ⟨q, b, rfl⟩
    · rfl
    · obtain ⟨m, -, he⟩ := path_snoc_iff.mp (List.concat_eq_append ▸ hq)
      exact absurd he h.not_edge_root
  | append_singleton p a ih =>
    obtain ⟨i, hi, hei⟩ := path_snoc_iff.mp hp
    rcases List.eq_nil_or_concat q with rfl | ⟨q, b, rfl⟩
    · obtain rfl := path_nil_iff.mp hq
      exact absurd hei h.not_edge_root
    · obtain ⟨k, hk, hek⟩ := path_snoc_iff.mp (List.concat_eq_append ▸ hq)
      obtain ⟨rfl, rfl⟩ := h.parent_unique hei hek
      rw [ih hi hk, List.concat_eq_append]

/-- A path runs down through internal nodes of falling index, so it is no longer than there are such nodes up to its start. -/
theorem path_length_le {k j : Nat} {p : Bits} (hp : Path s k p j) : p.length ≤ k + 1 - n := by
  induction p generalizing k with
  | nil => simp
  | cons b p ih =>
    obtain ⟨m, he, hm⟩ := path_cons_iff.mp hp
    obtain ⟨hle, -, hlt⟩ := h.edge_range he
    have := ih hm
    rw [List.length_cons]
    omega

theorem leaf_index_lt {k : Nat} {c : Byte} {f : Word} (hs : slot s k = some (.leaf c f)) : k < n := by
  by_contra hk
  have hlt : k < 2 * n - 1 := h.nnode ▸ (slot_some hs).1
  obtain ⟨g, l, r, hi, -⟩ := h.internal k (by omega) hlt
  simp [hs] at hi

/-- A symbol stands in one leaf. -/
theorem leaf_unique {j k : Nat} {c : Byte} {f g : Word} (hj : slot s j = some (.leaf c f))
    (hk : slot s k = some (.leaf c g)) : j = k := by
  by_contra hne
  rcases Nat.lt_or_gt_of_ne hne with hlt | hlt
  · exact absurd (h.ascending _ _ _ _ _ _ hlt hj hk) (by omega)
  · exact absurd (h.ascending _ _ _ _ _ _ hlt hk hj) (by omega)

end TreeShape

/-! ### the walk of GENCODES (R111) -/

/-- The walk from slot k records the leaves below it, each under the path to it. -/
theorem mem_walk {s : State} {fuel k : Nat} {p : Bits} {xs : List (Byte × Bits)} (hw : walk s fuel k p = some xs)
    {c : Byte} {q : Bits} :
    (c, q) ∈ xs ↔ ∃ r j f, q = p ++ r ∧ Path s k r j ∧ slot s j = some (.leaf c f) := by
  induction fuel generalizing k p xs with
  | zero => simp [walk] at hw
  | succ fuel ih =>
    rw [walk] at hw
    split at hw
    · cases hw
    · next d g hs =>
      cases hw
      rw [List.mem_singleton, Prod.mk.injEq]
      constructor
      · rintro ⟨rfl, rfl⟩
        exact ⟨[], k, g, by simp, .here k, hs⟩
      · rintro ⟨r, j, f, rfl, hp, hj⟩
        obtain ⟨rfl, rfl⟩ := path_from_leaf hs hp
        rw [hs] at hj
        cases hj
        simp
    · next g l r hs =>
      split at hw
      · next xs ys hx hy =>
        cases hw
        rw [List.mem_append, ih hx, ih hy]
        constructor
        · rintro (⟨t, j, f, rfl, hp, hj⟩ | ⟨t, j, f, rfl, hp, hj⟩)
          · exact ⟨false :: t, j, f, by simp, .left _ _ _ _ _ _ hs hp, hj⟩
          · exact ⟨true :: t, j, f, by simp, .right _ _ _ _ _ _ hs hp, hj⟩
        · rintro ⟨t, j, f, rfl, hp, hj⟩
          cases hp with
          | here => simp [hs] at hj
          | left _ _ _ _ _ t hs' hp =>
            rw [hs] at hs'
            cases hs'
            exact .inl ⟨t, j, f, by simp, hp, hj⟩
          | right _ _ _ _ _ t hs' hp =>
            rw [hs] at hs'
            cases hs'
            exact .inr ⟨t, j, f, by simp, hp, hj⟩
      · cases hw

/-- The walk records no code twice: the codes found on the left go on with "0", those on the right with "1". -/
theorem walk_nodup {s : State} {fuel k : Nat} {p : Bits} {xs : List (Byte × Bits)} (hw : walk s fuel k p = some xs) :
    xs.Nodup := by
  induction fuel generalizing k p xs with
  | zero => simp [walk] at hw
  | succ fuel ih =>
    rw [walk] at hw
    split at hw
    · cases hw
    · cases hw; simp
    · split at hw
      · next xs ys hx hy =>
        cases hw
        refine (ih hx).append (ih hy) ?_
        rintro ⟨c, q⟩ hl hr
        obtain ⟨t, -, -, rfl, -⟩ := (mem_walk hx).mp hl
        obtain ⟨t', -, -, ht, -⟩ := (mem_walk hy).mp hr
        simp at ht
      · cases hw

/-- In a tree the walk comes to its end (R111). -/
theorem TreeShape.walk_ends {s : State} {n : Nat} (h : TreeShape s n) {fuel k : Nat} (hk : k < 2 * n - 1)
    (hf : k < fuel) (p : Bits) : ∃ xs, walk s fuel k p = some xs := by
  induction fuel generalizing k p with
  | zero => omega
  | succ fuel ih =>
    by_cases hn : k < n
    · obtain ⟨c, f, hs⟩ := h.leaf k hn
      exact ⟨[(c, p)], by simp [walk, hs]⟩
    · obtain ⟨f, l, r, hs, hl, hr⟩ := h.internal k (by omega) hk
      obtain ⟨xs, hx⟩ := ih (k := l.toNat) (by omega) (by omega) (p ++ [false])
      obtain ⟨ys, hy⟩ := ih (k := r.toNat) (by omega) (by omega) (p ++ [true])
      exact ⟨xs ++ ys, by simp [walk, hs, hx, hy]⟩

/-! ### the codes of a tree (R112, R113) -/

namespace TreeShape

variable {s : State} {n : Nat} (h : TreeShape s n)
include h

theorem nnode_ne_zero : s.nnode ≠ 0 := by
  intro h0
  have hn := h.nnode
  have hc := h.count.1
  rw [h0] at hn
  simp at hn
  omega

theorem treeCodes_of_one (h1 : n = 1) : ∃ c f, slot s 0 = some (.leaf c f) ∧ treeCodes s = some [(c, [false])] := by
  obtain ⟨c, f, hs⟩ := h.leaf 0 (by omega)
  have hroot : s.root.toNat = 0 := by rw [h.root, h1]
  exact ⟨c, f, hs, by simp [treeCodes, hroot, hs]⟩

theorem treeCodes_of_two_le (h2 : 2 ≤ n) : treeCodes s = walk s 511 s.root.toNat [] := by
  obtain ⟨f, l, r, hs, -⟩ := h.internal (2 * n - 2) (by omega) (by omega)
  rw [← h.root] at hs
  simp [treeCodes, hs]

theorem treeCodes_ends : ∃ codes, treeCodes s = some codes := by
  have hcount := h.count
  by_cases h1 : n = 1
  · obtain ⟨c, -, -, hc⟩ := h.treeCodes_of_one h1
    exact ⟨_, hc⟩
  · rw [h.treeCodes_of_two_le (by omega)]
    have hroot := h.root
    exact h.walk_ends (by omega) (by omega) []

/-- With two or more leaves a symbol's code is the path to its leaf (R111). -/
theorem codeOf_treeCodes (h2 : 2 ≤ n) {codes : List (Byte × Bits)} (hc : treeCodes s = some codes) {c : Byte} {p : Bits} :
    codeOf (fillTable codes) c = some p ↔ ∃ k f, slot s k = some (.leaf c f) ∧ Path s s.root.toNat p k := by
  rw [h.treeCodes_of_two_le h2] at hc
  have hmem : ∀ d q, (d, q) ∈ codes ↔ ∃ k f, slot s k = some (.leaf d f) ∧ Path s s.root.toNat q k := by
    intro d q
    rw [mem_walk hc]
    constructor
    · rintro ⟨r, j, f, rfl, hp, hj⟩; exact ⟨j, f, hj, hp⟩
    · rintro ⟨k, f, hk, hp⟩; exact ⟨q, k, f, rfl, hp, hk⟩
  have hnodup : (codes.map Prod.fst).Nodup := by
    refine (walk_nodup hc).map_on ?_
    rintro ⟨d, q⟩ hq ⟨d', q'⟩ hq' hd
    obtain rfl : d = d' := hd
    obtain ⟨k, f, hk, hp⟩ := (hmem d q).mp hq
    obtain ⟨k', f', hk', hp'⟩ := (hmem d q').mp hq'
    obtain rfl := h.leaf_unique hk hk'
    rw [h.root_path_unique hp hp']
  rw [codeOf_fillTable hnodup, hmem]

/-- With one leaf the code "0" is the only one (R112). -/
theorem codeOf_treeCodes_one (h1 : n = 1) {codes : List (Byte × Bits)} (hc : treeCodes s = some codes) {c : Byte}
    {p : Bits} : codeOf (fillTable codes) c = some p ↔ (∃ f, slot s 0 = some (.leaf c f)) ∧ p = [false] := by
  obtain ⟨d, f, hs, hd⟩ := h.treeCodes_of_one h1
  rw [hd] at hc
  cases hc
  rw [codeOf_fillTable (by simp), List.mem_singleton, Prod.mk.injEq, hs]
  simp [eq_comm]

/-- A code is no first part of another one, since the path to a leaf ends there. -/
theorem tableOk_treeCodes {codes : List (Byte × Bits)} (hc : treeCodes s = some codes) : TableOk (fillTable codes) := by
  have hcount := h.count
  by_cases h1 : n = 1
  · have hcode := fun c p => h.codeOf_treeCodes_one h1 hc (c := c) (p := p)
    constructor
    · intro c x hx
      simp [((hcode c x).mp hx).2]
    · intro c d x y hx hy _
      obtain ⟨⟨f, hf⟩, -⟩ := (hcode c x).mp hx
      obtain ⟨⟨g, hg⟩, -⟩ := (hcode d y).mp hy
      rw [hf] at hg
      cases hg
      rfl
  · have hcode := fun c p => h.codeOf_treeCodes (by omega) hc (c := c) (p := p)
    constructor
    · intro c x hx
      obtain ⟨k, f, hk, hp⟩ := (hcode c x).mp hx
      have hlen := h.path_length_le hp
      have hlt := h.leaf_index_lt hk
      have hroot := h.root
      refine ⟨List.length_pos_iff.mpr ?_, by omega⟩
      rintro rfl
      have := path_nil_iff.mp hp
      omega
    · intro c d x y hx hy hxy
      obtain ⟨z, rfl⟩ := hxy
      obtain ⟨k, f, hk, hp⟩ := (hcode c x).mp hx
      obtain ⟨j, g, hj, hq⟩ := (hcode d _).mp hy
      obtain ⟨m, hm, hz⟩ := path_append_iff.mp hq
      obtain rfl := path_end_unique hp hm
      obtain ⟨-, rfl⟩ := path_from_leaf hk hz
      rw [hk] at hj
      cases hj
      rfl

theorem codeOf_treeCodes_isSome {codes : List (Byte × Bits)} (hc : treeCodes s = some codes) (c : Byte) :
    (codeOf (fillTable codes) c).isSome = true ↔ ∃ k f, slot s k = some (.leaf c f) := by
  rw [Option.isSome_iff_exists]
  have hcount := h.count
  by_cases h1 : n = 1
  · simp only [h.codeOf_treeCodes_one h1 hc]
    constructor
    · rintro ⟨-, ⟨f, hf⟩, -⟩; exact ⟨0, f, hf⟩
    · rintro ⟨k, f, hf⟩
      obtain rfl : k = 0 := by
        have := h.leaf_index_lt hf
        omega
      exact ⟨[false], ⟨f, hf⟩, rfl⟩
  · simp only [h.codeOf_treeCodes (by omega) hc]
    constructor
    · rintro ⟨-, k, f, hf, -⟩; exact ⟨k, f, hf⟩
    · rintro ⟨k, f, hf⟩
      obtain ⟨p, hp⟩ := h.root_reaches (h.nnode ▸ (slot_some hf).1)
      exact ⟨p, k, f, hf, hp⟩

end TreeShape

/-- The symbol of the leaf in slot k, 0 where there is none. -/
def leafSymbol (s : State) (k : Nat) : Byte :=
  match slot s k with
  | some (.leaf c _) => c
  | _ => 0

theorem leafSymbol_of_leaf {s : State} {k : Nat} {c : Byte} {f : Word} (hs : slot s k = some (.leaf c f)) :
    leafSymbol s k = c := by
  simp [leafSymbol, hs]

/-- A tree of n leaves holds n symbols. -/
theorem TreeShape.countP_leaf_symbols {s : State} {n : Nat} (h : TreeShape s n) {p : Byte → Bool}
    (hp : ∀ c, p c = true ↔ ∃ k f, slot s k = some (.leaf c f)) : symbols.countP p = n := by
  have hperm : (symbols.filter p).Perm ((List.range n).map (leafSymbol s)) := by
    refine (List.perm_ext_iff_of_nodup (symbols_nodup.filter _) (List.nodup_range.map_on ?_)).mpr fun c => ?_
    · intro j hj k hk he
      obtain ⟨c, f, hc⟩ := h.leaf j (List.mem_range.mp hj)
      obtain ⟨d, g, hd⟩ := h.leaf k (List.mem_range.mp hk)
      rw [leafSymbol_of_leaf hc, leafSymbol_of_leaf hd] at he
      subst he
      exact h.leaf_unique hc hd
    · rw [List.mem_filter, hp, List.mem_map]
      constructor
      · rintro ⟨-, k, f, hk⟩
        exact ⟨k, List.mem_range.mpr (h.leaf_index_lt hk), leafSymbol_of_leaf hk⟩
      · rintro ⟨k, hk, rfl⟩
        obtain ⟨c, f, hc⟩ := h.leaf k (List.mem_range.mp hk)
        exact ⟨mem_symbols _, k, f, by rw [leafSymbol_of_leaf hc, hc]⟩
  simpa [List.countP_eq_length_filter] using hperm.length_eq

/-- Settles O27: a code is the path from the root to its symbol's leaf, and a path to a leaf goes no further. -/
theorem codesArePrefixFree : Obligations.CodesArePrefixFree := by
  intro s t n h hexec
  obtain ⟨h0, -⟩ | ⟨-, codes, hc, rfl⟩ := execGencodes_cases hexec
  · exact absurd h0 h.nnode_ne_zero
  · exact ⟨h.tableOk_treeCodes hc, h.countP_leaf_symbols (h.codeOf_treeCodes_isSome hc)⟩

end Sys2Proof.Machine
end

section
/-! The tables ANALYZE and BUILD make: ANALYZE counts its input exactly (40 R91, R92), and BUILD's slots form one strict binary
tree (41 R101 to R103). -/

namespace Sys2Proof.Machine

/-! ### counting (R91, R92) -/

theorem countOf_countByte (ft : Vector Word 256) (b c : Byte) (hb : countOf ft b + 1 < 2 ^ 32) :
    countOf (countByte ft b) c = if c = b then countOf ft c + 1 else countOf ft c := by
  unfold countOf countByte
  rw [Vector.getElem_set]
  by_cases hc : c = b
  · subst hc
    rw [if_pos rfl, if_pos rfl, BitVec.toNat_add]
    exact Nat.mod_eq_of_lt hb
  · rw [if_neg hc, if_neg fun he => hc (BitVec.eq_of_toNat_eq he.symm)]

/-- No counter wraps where the sequence is shorter than 2^32 (R93). -/
theorem countOf_countBytes (bs : List Byte) (hlen : bs.length < 2 ^ 32) (c : Byte) :
    countOf (countBytes bs) c = bs.count c := by
  induction bs using List.reverseRecOn generalizing c with
  | nil => simp [countBytes, countOf]
  | append_singleton bs b ih =>
    rw [List.length_append, List.length_singleton] at hlen
    have hbs := ih (by omega)
    have hstep : countBytes (bs ++ [b]) = countByte (countBytes bs) b := by simp [countBytes]
    have hle := List.count_le_length (a := b) (l := bs)
    rw [hstep, countOf_countByte _ _ _ (by rw [hbs]; omega), hbs, List.count_append, List.count_singleton]
    by_cases hc : c = b
    · simp [hc]
    · simp [hc, Ne.symm hc]

/-- Every byte of a sequence is counted at one symbol. -/
theorem sum_count_symbols (bs : List Byte) : (symbols.map fun c => bs.count c).sum = bs.length := by
  have hmem := mem_symbols
  have hnodup := symbols_nodup
  generalize symbols = l at *
  rw [← List.sum_toFinset (fun c => bs.count c) hnodup]
  simpa using Multiset.sum_count_eq_card (m := (bs : Multiset Byte)) fun c _ => List.mem_toFinset.mpr (hmem c)

theorem ftSum_countBytes (bs : List Byte) (hlen : bs.length < 2 ^ 32) : ftSum (countBytes bs) = bs.length := by
  rw [ftSum, funext (countOf_countBytes bs hlen)]
  exact sum_count_symbols bs

@[simp] theorem ftSum_replicate_zero : ftSum (Vector.replicate 256 0) = 0 :=
  ftSum_countBytes [] (by decide)

/-! ### the merge loop (R101) -/

/-- What holds at the start of the merge loop and is kept by every merge holds at its end. -/
theorem mergeLoop_induction {tie : Tie} {P : List TreeNode → List QueueEntry → Prop}
    (hmerge : ∀ arena q a q1 b q2, P arena q → takeLeast tie q = some (a, q1) → takeLeast tie q1 = some (b, q2) →
      P (arena ++ [mergeNode a b]) (q2 ++ [{ idx := arena.length, freq := a.freq + b.freq }]))
    (fuel : Nat) (arena : List TreeNode) (q : List QueueEntry) (h : P arena q) :
    P (mergeLoop tie fuel arena q).1 (mergeLoop tie fuel arena q).2 := by
  induction fuel generalizing arena q with
  | zero => exact h
  | succ fuel ih =>
    rw [mergeLoop]
    split
    · exact h
    · next a q1 ha =>
      split
      · exact h
      · next b q2 hb => exact ih _ _ (hmerge arena q a q1 b q2 h ha hb)

/-- A merge takes two entries from the queue. -/
theorem perm_of_takeLeast_twice {tie : Tie} {q q1 q2 : List QueueEntry} {a b : QueueEntry}
    (ha : takeLeast tie q = some (a, q1)) (hb : takeLeast tie q1 = some (b, q2)) : (a :: b :: q2).Perm q :=
  ((takeLeast_spec hb).1.cons a).trans (takeLeast_spec ha).1

/-- What every merge keeps, for n leaves: each merge makes one node of two entries, every entry of the arena is a child of one
node or waits in the queue, the last one waiting, and the nodes from the n-th on are internal ones over earlier entries (R103). -/
structure MergeShape (n : Nat) (arena : List TreeNode) (q : List QueueEntry) : Prop where
  size : arena.length + q.length = 2 * n
  last : arena.length - 1 ∈ q.map QueueEntry.idx
  owned : (arena.flatMap nodeChildren ++ q.map QueueEntry.idx).Perm (List.range arena.length)
  internal : ∀ k, n ≤ k → k < arena.length →
    ∃ f l r, arena[k]? = some (.internal f l r) ∧ l.toNat < k ∧ r.toNat < k

theorem MergeShape.idx_lt {n : Nat} {arena : List TreeNode} {q : List QueueEntry} (h : MergeShape n arena q)
    {e : QueueEntry} (he : e ∈ q) : e.idx < arena.length :=
  List.mem_range.mp (h.owned.mem_iff.mp (List.mem_append_right _ (List.mem_map_of_mem he)))

theorem MergeShape.merge {n : Nat} {arena : List TreeNode} {q q2 : List QueueEntry} {a b : QueueEntry} {freq : Word}
    (hn : n ≤ 256) (h : MergeShape n arena q) (hq : (a :: b :: q2).Perm q) :
    MergeShape n (arena ++ [mergeNode a b]) (q2 ++ [{ idx := arena.length, freq := freq }]) := by
  have hlen := hq.length_eq
  have hsize := h.size
  have ha := h.idx_lt (hq.mem_iff.mp List.mem_cons_self)
  have hb := h.idx_lt (hq.mem_iff.mp (List.mem_cons_of_mem _ List.mem_cons_self))
  simp only [List.length_cons] at hlen
  have ha9 : (BitVec.ofNat 9 a.idx).toNat = a.idx := by rw [BitVec.toNat_ofNat]; omega
  have hb9 : (BitVec.ofNat 9 b.idx).toNat = b.idx := by rw [BitVec.toNat_ofNat]; omega
  constructor
  · simp only [List.length_append, List.length_singleton]; omega
  · simp
  · have howned : (arena.flatMap nodeChildren ++ a.idx :: b.idx :: q2.map QueueEntry.idx).Perm
        (List.range arena.length) :=
      ((hq.map QueueEntry.idx).append_left _).trans h.owned
    simpa [nodeChildren, mergeNode, ha9, hb9, List.range_succ] using howned.append_right [arena.length]
  · intro k hk hlt
    rw [List.length_append, List.length_singleton] at hlt
    by_cases hlast : k = arena.length
    · subst hlast
      exact ⟨_, _, _, List.getElem?_concat_length .., ha9.symm ▸ ha, hb9.symm ▸ hb⟩
    · rw [List.getElem?_append_left (by omega)]
      exact h.internal k hk (by omega)

/-! ### the leaves (R101, R102) -/

theorem leaves_eq_map (ft : Vector Word 256) :
    leaves ft = (symbols.filter fun c => ft[c.toNat] ≠ 0).map fun c => .leaf c ft[c.toNat] := by
  unfold leaves
  generalize symbols = l
  induction l with
  | nil => rfl
  | cons c l ih =>
    rw [List.filterMap_cons, List.filter_cons, ih]
    by_cases h : ft[c.toNat] = 0
    · rw [if_pos h, if_neg (by simpa using h)]
    · rw [if_neg h, if_pos (by simpa using h), List.map_cons]

theorem eq_leaf_of_mem_leaves {ft : Vector Word 256} {node : TreeNode} (h : node ∈ leaves ft) :
    ∃ c, node = .leaf c ft[c.toNat] := by
  rw [leaves_eq_map, List.mem_map] at h
  obtain ⟨c, -, rfl⟩ := h
  exact ⟨c, rfl⟩

theorem leaves_ascending {ft : Vector Word 256} {j k : Nat} {c d : Byte} {f g : Word} (hjk : j < k)
    (hj : (leaves ft)[j]? = some (.leaf c f)) (hk : (leaves ft)[k]? = some (.leaf d g)) : c.toNat < d.toNat := by
  have hsorted : (leaves ft).Pairwise fun x y => ∀ c f d g, x = .leaf c f → y = .leaf d g → c.toNat < d.toNat := by
    rw [leaves_eq_map, List.pairwise_map]
    refine (symbols_pairwise.filter _).imp ?_
    rintro a b hab c f d g ⟨rfl, -⟩ ⟨rfl, -⟩
    exact hab
  obtain ⟨hj', hje⟩ := List.getElem?_eq_some_iff.mp hj
  obtain ⟨hk', hke⟩ := List.getElem?_eq_some_iff.mp hk
  exact List.pairwise_iff_getElem.mp hsorted j k hj' hk' hjk _ _ _ _ hje hke

theorem queueOf_map_idx (arena : List TreeNode) : (queueOf arena).map QueueEntry.idx = List.range arena.length := by
  simp [queueOf, List.range_eq_range', Function.comp_def]

/-- At the start nothing is merged: the leaves have no children and each waits in the queue. -/
theorem MergeShape.start (ft : Vector Word 256) (h : nsym ft ≠ 0) :
    MergeShape (nsym ft) (leaves ft) (queueOf (leaves ft)) := by
  have hlen := leaves_length ft
  constructor
  · simp only [queueOf, List.length_map, List.length_zipIdx]; omega
  · rw [queueOf_map_idx, List.mem_range]; omega
  · have hchildren : (leaves ft).flatMap nodeChildren = [] := by
      refine List.flatMap_eq_nil_iff.mpr fun node hnode => ?_
      obtain ⟨c, rfl⟩ := eq_leaf_of_mem_leaves hnode
      rfl
    rw [hchildren, queueOf_map_idx, List.nil_append]
  · intro k hk hlt; omega

/-! ### BUILD makes a strict binary tree (R101, R103) -/

theorem buildArena_mergeShape (tie : Tie) (ft : Vector Word 256) (h : nsym ft ≠ 0) :
    MergeShape (nsym ft) (buildArena tie ft).1 (buildArena tie ft).2 :=
  mergeLoop_induction (fun _ _ _ _ _ _ hshape ha hb => hshape.merge (nsym_le ft) (perm_of_takeLeast_twice ha hb)) _ _ _
    (.start ft h)

theorem buildArena_getElem?_of_lt (tie : Tie) (ft : Vector Word 256) {k : Nat} (hk : k < nsym ft) :
    (buildArena tie ft).1[k]? = (leaves ft)[k]? := by
  obtain ⟨rest, hrest⟩ := mergeLoop_prefix tie (leaves ft).length (leaves ft) (queueOf (leaves ft))
  rw [buildArena, ← hrest, List.getElem?_append_left (by rw [leaves_length]; exact hk)]

/-- The one entry left in the queue is the node made last. -/
theorem buildArena_queue (tie : Tie) (ft : Vector Word 256) (h : nsym ft ≠ 0) :
    ∃ e, (buildArena tie ft).2 = [e] ∧ e.idx = 2 * nsym ft - 2 := by
  have hlast := (buildArena_mergeShape tie ft h).last
  obtain ⟨hlen, hq⟩ := buildArena_lengths tie ft h
  obtain ⟨e, he⟩ := List.length_eq_one_iff.mp hq
  rw [he, hlen, List.map_singleton, List.mem_singleton] at hlast
  exact ⟨e, he, by omega⟩

/-- Every entry but the last is the child of one node. -/
theorem buildArena_children (tie : Tie) (ft : Vector Word 256) (h : nsym ft ≠ 0) :
    ((buildArena tie ft).1.flatMap nodeChildren).Perm (List.range (2 * nsym ft - 2)) := by
  obtain ⟨e, hq, he⟩ := buildArena_queue tie ft h
  have howned := (buildArena_mergeShape tie ft h).owned
  have hsucc : 2 * nsym ft - 1 = (2 * nsym ft - 2) + 1 := by omega
  rw [(buildArena_lengths tie ft h).1, hq, List.map_singleton, he, hsucc, List.range_succ] at howned
  exact (List.perm_append_right_iff _).mp howned

/-- Going through the indices of a list is going through the list. -/
theorem flatMap_range_getElem? {α β : Type} (l : List α) (f : α → List β) :
    ((List.range l.length).flatMap fun k => l[k]?.elim [] f) = l.flatMap f := by
  induction l with
  | nil => rfl
  | cons a l ih => simp [List.range_succ_eq_map, List.flatMap_map, ih]

/-- BUILD's slots are the arena. -/
theorem slot_build {s t : State} (h : nsym s.ft ≠ 0) (hexec : execBuild s = .next t) (k : Nat) :
    slot t k = (buildArena s.params.tie s.ft).1[k]? := by
  obtain ⟨h0, -⟩ | ⟨-, rfl⟩ := execBuild_cases hexec
  · exact absurd h0 h
  · obtain ⟨hlen, -⟩ := buildArena_lengths s.params.tie s.ft h
    have hle := nsym_le s.ft
    generalize (buildArena s.params.tie s.ft).1 = arena at *
    have hn : (BitVec.ofNat 9 arena.length).toNat = arena.length := by rw [BitVec.toNat_ofNat]; omega
    by_cases hk : k < arena.length
    · rw [slot_of_lt (by simpa [hn] using hk)]
      simp [writeSlots_getElem? arena s.node 0 k (by omega), hk]
    · rw [slot_of_le (by simpa [hn] using hk), List.getElem?_eq_none (by omega)]

theorem build_nnode_root {s t : State} (h : nsym s.ft ≠ 0) (hexec : execBuild s = .next t) :
    t.nnode.toNat = 2 * nsym s.ft - 1 ∧ t.root.toNat = 2 * nsym s.ft - 2 := by
  have hle := nsym_le s.ft
  obtain ⟨hlen, -⟩ := buildArena_lengths s.params.tie s.ft h
  obtain ⟨e, hq, he⟩ := buildArena_queue s.params.tie s.ft h
  obtain ⟨h0, -⟩ | ⟨-, rfl⟩ := execBuild_cases hexec
  · exact absurd h0 h
  · simp only [complete_nnode, complete_root, hlen, hq, rootIndex, he, BitVec.toNat_ofNat]
    omega

/-- BUILD makes one strict binary tree, with a leaf for each present symbol (R103). -/
theorem treeShape_build {s t : State} (h : nsym s.ft ≠ 0) (hexec : execBuild s = .next t) :
    TreeShape t (nsym s.ft) := by
  have hslot := slot_build h hexec
  have hle := nsym_le s.ft
  have hleaf : ∀ k, k < nsym s.ft → slot t k = (leaves s.ft)[k]? := fun k hk => by
    rw [hslot, buildArena_getElem?_of_lt _ _ hk]
  obtain ⟨hlen, -⟩ := buildArena_lengths s.params.tie s.ft h
  have hshape := buildArena_mergeShape s.params.tie s.ft h
  have hinternal : ∀ k, nsym s.ft ≤ k → k < 2 * nsym s.ft - 1 →
      ∃ f l r, slot t k = some (.internal f l r) ∧ l.toNat < k ∧ r.toNat < k := fun k hk hlt => by
    rw [hslot]; exact hshape.internal k hk (hlen ▸ hlt)
  obtain ⟨hnnode, hroot⟩ := build_nnode_root h hexec
  constructor
  · omega
  · exact hnnode
  · exact hroot
  · intro k hk
    obtain ⟨c, hc⟩ := eq_leaf_of_mem_leaves (List.getElem_mem (leaves_length s.ft ▸ hk))
    exact ⟨c, _, by rw [hleaf k hk, List.getElem?_eq_getElem (leaves_length s.ft ▸ hk), hc]⟩
  · intro j k c d f g hjk hj hk
    have hkn : k < nsym s.ft := by
      by_contra hkn
      obtain ⟨_, _, _, hi, -⟩ := hinternal k (by omega) (hnnode ▸ (slot_some hk).1)
      simp [hk] at hi
    exact leaves_ascending hjk (hleaf j (by omega) ▸ hj) (hleaf k hkn ▸ hk)
  · exact hinternal
  · have hchildren : childrenBelow t (2 * nsym s.ft - 1) = (buildArena s.params.tie s.ft).1.flatMap nodeChildren := by
      rw [childrenBelow_eq_flatMap, funext hslot, ← hlen]
      exact flatMap_range_getElem? _ _
    exact hchildren ▸ buildArena_children s.params.tie s.ft h

end Sys2Proof.Machine
end

section
/-! The invariant of reachable states (10_state.md R33): it holds at reset, every step keeps it, and from where it holds every
step goes on. -/

namespace Sys2Proof.Machine

/-! ### the invariant's parts -/

/-- A tree is a fact about `NODE`, `NNODE` and `ROOT` alone. -/
theorem treeOk_congr {s t : State} (hs : TreeOk s) (hnode : t.node = s.node) (hnnode : t.nnode = s.nnode)
    (hroot : t.root = s.root) : TreeOk t := by
  have hslot : slot t = slot s := funext (slot_congr hnode hnnode)
  rcases hs with ⟨hn, hr⟩ | ⟨n, h⟩
  · exact .inl ⟨hnnode.trans hn, hroot.trans hr⟩
  · refine .inr ⟨n, ⟨h.count, hnnode ▸ h.nnode, hroot ▸ h.root, ?_, ?_, ?_, ?_⟩⟩
    · rw [hslot]; exact h.leaf
    · rw [hslot]; exact h.ascending
    · rw [hslot]; exact h.internal
    · rw [childrenBelow_eq_flatMap, hslot, ← childrenBelow_eq_flatMap]; exact h.owned

/-- The invariant's clauses on the output: `OBUF` holds exactly the bytes below `OLEN`, inside its capacity. -/
structure OutputOk (p : Params) (obuf : Memory) (olen : Word) : Prop where
  wf : Memory.wf obuf
  holds : ∀ i, (Memory.read obuf i).isSome = true ↔ i < olen.toNat
  fits : olen.toNat ≤ p.obufCap

theorem obufCap_le_of_wellFormed {p : Params} (h : p.wellFormed = true) : p.obufCap ≤ 2 ^ 24 := by
  simp only [Params.wellFormed, Params.obufCapOk, Bool.and_eq_true, decide_eq_true_eq] at h
  omega

theorem writeOutput_ok {s : State} {bytes : List Byte} (bits : Nat) (hcap : s.params.obufCap ≤ 2 ^ 24)
    (hfits : bytes.length ≤ s.params.obufCap) :
    OutputOk s.params (writeOutput s bytes bits).obuf (writeOutput s bytes bits).olen := by
  have holen : (writeOutput s bytes bits).olen.toNat = bytes.length := by
    rw [writeOutput_olen, BitVec.toNat_ofNat]; omega
  refine ⟨memory_wf_ofBytes _ _, fun i => ?_, holen ▸ hfits⟩
  rw [holen]
  simp

theorem clearOutput_ok (s : State) : OutputOk s.params (clearOutput s).obuf (clearOutput s).olen :=
  ⟨.nil, by simp, by simp⟩

/-! ### each command makes its own destination legal -/

theorem analyze_ftSum_le {s t : State} (h : exec .analyze s = .next t) : ftSum t.ft ≤ s.params.ibufCap := by
  obtain ⟨ha, rfl⟩ | ⟨-, rfl⟩ := execAnalyze_cases h
  · have hlen : s.ilen.toNat ≤ s.params.ibufCap := by simpa [inputAvailable] using ha
    rw [complete_ft, ftSum_countBytes _ (by simpa using s.ilen.isLt)]
    simpa using hlen
  · exact ftSum_replicate_zero.trans_le (Nat.zero_le _)

theorem build_treeOk {s t : State} (h : exec .build s = .next t) : TreeOk t := by
  by_cases h0 : nsym s.ft = 0
  · obtain ⟨-, rfl⟩ | ⟨hne, -⟩ := execBuild_cases h
    · exact .inl ⟨rfl, rfl⟩
    · exact absurd h0 hne
  · exact .inr ⟨_, treeShape_build h0 h⟩

theorem tableOk_replicate_none : TableOk (Vector.replicate 256 none) := by
  constructor <;> simp

theorem gencodes_tableOk {s t : State} (hs : TreeOk s) (h : exec .gencodes s = .next t) : TableOk t.ct := by
  obtain ⟨-, rfl⟩ | ⟨hn, codes, hc, rfl⟩ := execGencodes_cases h
  · exact tableOk_replicate_none
  · rcases hs with ⟨h0, -⟩ | ⟨n, htree⟩
    · exact absurd h0 hn
    · exact htree.tableOk_treeCodes hc

theorem pack_outputOk {s t : State} (hcap : s.params.obufCap ≤ 2 ^ 24) (h : exec .pack s = .next t) :
    OutputOk s.params t.obuf t.olen := by
  obtain ⟨-, rfl⟩ | ⟨-, -, rfl⟩ | ⟨-, -, bits, -, ⟨hfits, rfl⟩ | ⟨-, rfl⟩⟩ := execPack_cases h
  · exact clearOutput_ok s
  · exact clearOutput_ok s
  · exact writeOutput_ok bits.length hcap (by rwa [packed_length])
  · exact clearOutput_ok s

theorem unpack_outputOk {s t : State} (hcap : s.params.obufCap ≤ 2 ^ 24) (h : exec .unpack s = .next t) :
    OutputOk s.params t.obuf t.olen := by
  obtain ⟨-, rfl⟩ | ⟨-, -, rfl⟩ | ⟨-, header, rest, -, rfl⟩ := execUnpack_cases h
  · exact clearOutput_ok s
  · exact clearOutput_ok s
  · obtain ⟨-, ht⟩ | ⟨-, n, out, cand, -, -, ⟨-, ht⟩ | ⟨-, -, ht⟩ | ⟨-, hfits, ht⟩⟩ := unpackStream_cases s header rest <;>
      rw [ht]
    · exact clearOutput_ok s
    · exact clearOutput_ok s
    · exact clearOutput_ok s
    · exact writeOutput_ok n hcap hfits

/-! ### the invariant at reset and over a step -/

theorem inv_resetWith {p : Params} (hp : p.wellFormed = true) (d : Nat) (acts : List HostAct) :
    Inv (State.resetWith p d acts) where
  params := hp
  idle := rfl
  counts := ftSum_replicate_zero.trans_le (Nat.zero_le _)
  tree := .inl ⟨rfl, rfl⟩
  table := tableOk_replicate_none
  ibufWf := .nil
  ibufInside := by simp
  obufWf := .nil
  obufHolds := by simp
  olen := by simp

/-- Settles O51: reset leaves empty tables and empty buffers, and the default parameters are legal. -/
theorem resetMeetsTheInvariant : Obligations.ResetMeetsTheInvariant :=
  inv_resetWith (by decide) 0 []

theorem Inv.outputOk {s : State} (h : Inv s) : OutputOk s.params s.obuf s.olen := ⟨h.obufWf, h.obufHolds, h.olen⟩

/-- A command leaves every part of the invariant but its own destination's as it was, and makes that part hold anew. -/
theorem exec_keeps_inv {i : Instr} {s t : State} (h : Inv { s with busy := false }) (hexec : exec i s = .next t) :
    Inv t := by
  have hframe := exec_frame hexec
  have hparams : t.params = s.params := hframe.params
  have hibuf : t.ibuf = s.ibuf := hframe.ibuf
  have hcap : s.params.obufCap ≤ 2 ^ 24 := obufCap_le_of_wellFormed h.params
  have htree₀ : TreeOk s := treeOk_congr h.tree rfl rfl rfl
  have hcounts : ftSum t.ft ≤ s.params.ibufCap := by
    by_cases hi : i = .analyze
    · subst hi; exact analyze_ftSum_le hexec
    · rw [hframe.ft hi]; exact h.counts
  have htree : TreeOk t := by
    by_cases hi : i = .build
    · subst hi; exact build_treeOk hexec
    · obtain ⟨hnode, hnnode, hroot⟩ := hframe.tree hi
      exact treeOk_congr htree₀ hnode hnnode hroot
  have htable : TableOk t.ct := by
    by_cases hi : i = .gencodes
    · subst hi; exact gencodes_tableOk htree₀ hexec
    · rw [hframe.ct hi]; exact h.table
  have houtput : OutputOk s.params t.obuf t.olen := by
    by_cases hpack : i = .pack
    · subst hpack; exact pack_outputOk hcap hexec
    · by_cases hunpack : i = .unpack
      · subst hunpack; exact unpack_outputOk hcap hexec
      · obtain ⟨hobuf, -, holen, -⟩ := hframe.output hpack hunpack
        rw [hobuf, holen]; exact h.outputOk
  exact {
    params := hparams ▸ h.params
    idle := hframe.busy
    counts := hparams ▸ hcounts
    tree := htree
    table := htable
    ibufWf := hibuf ▸ h.ibufWf
    ibufInside := by rw [hibuf, hparams]; exact h.ibufInside
    obufWf := houtput.wf
    obufHolds := houtput.holds
    olen := hparams ▸ houtput.fits }

/-- `ILEN`, `ERR`, the next draw and the port's record are free in the invariant. -/
theorem Inv.with_free_fields {s : State} (h : Inv s) (ilen : Word) (err : Option ErrorKind) (draws : Nat)
    (acts : List HostAct) (ans : List Answer) :
    Inv { s with ilen := ilen, err := err, busy := false, draws := draws, inbox := acts, answers := ans } where
  params := h.params
  idle := rfl
  counts := h.counts
  tree := treeOk_congr h.tree rfl rfl rfl
  table := h.table
  ibufWf := h.ibufWf
  ibufInside := h.ibufInside
  obufWf := h.obufWf
  obufHolds := h.obufHolds
  olen := h.olen

theorem Inv.write_ibuf {s : State} (h : Inv s) {i : Nat} (hi : i < s.params.ibufCap) (b : Byte) :
    Inv { s with ibuf := Memory.write s.ibuf i b } where
  params := h.params
  idle := h.idle
  counts := h.counts
  tree := treeOk_congr h.tree rfl rfl rfl
  table := h.table
  ibufWf := memory_wf_write _ _ _ h.ibufWf
  ibufInside j hj := by
    by_cases hji : j = i
    · exact hji ▸ hi
    · exact h.ibufInside j (by simpa [hji] using hj)
  obufWf := h.obufWf
  obufHolds := h.obufHolds
  olen := h.olen

/-- Settles O52: reset and the host's writes keep the invariant outright, and a command makes its own destination legal. -/
theorem stepKeepsTheInvariant : Obligations.StepKeepsTheInvariant := by
  intro s t h hstep
  have hidle : s = { s with busy := false } := by rw [← h.idle]
  cases step_cause hstep with
  | quiet acts ans ht => rw [ht, hidle]; exact h.with_free_fields ..
  | reset acts _ ht => rw [ht]; exact inv_resetWith h.params ..
  | lengthWrite acts ans v _ _ ht => rw [ht, hidle]; exact h.with_free_fields ..
  | byteWrite acts ans r a _ _ _ hl ht =>
    rw [ht, hidle]; exact (h.write_ibuf (locate_ibuf_inside hl) _).with_free_fields ..
  | illegal acts ans w e _ _ _ _ ht => rw [ht]; exact h.with_free_fields ..
  | command acts ans busy i _ _ _ hexec =>
    refine exec_keeps_inv ?_ hexec
    exact h.with_free_fields ..

/-! ### every step goes on (R141, R150) -/

theorem exec_ends {s : State} (h : TreeOk s) (i : Instr) : ∃ t, exec i s = .next t := by
  by_cases hi : i = .gencodes
  · subst hi
    refine execGencodes_answers_next ?_
    rcases h with ⟨h0, -⟩ | ⟨n, htree⟩
    · exact .inl h0
    · exact .inr htree.treeCodes_ends
  · exact exec_answers_next i s hi

theorem issue_ends {s : State} (h : TreeOk s) (w : Word) : ∃ t, issue w s = .next t := by
  obtain ⟨-, he⟩ | ⟨-, -, -, he⟩ | ⟨-, -, -, he⟩ | ⟨-, -, -, he⟩ | ⟨-, -, i, -, he⟩ := issue_cases w s <;> rw [he]
  · exact ⟨_, rfl⟩
  · exact exec_ends h .clrerr
  · exact ⟨_, rfl⟩
  · exact ⟨_, rfl⟩
  · obtain ⟨left, more, -, ha⟩ := accept_eq s
    exact exec_ends (ha ▸ treeOk_congr h rfl rfl rfl) i

theorem access_ends {s : State} (h : TreeOk s) (t : Transfer) : ∃ u, access s t = .next u := by
  unfold access
  split
  · exact ⟨_, rfl⟩
  · obtain ⟨he, -⟩ | ⟨-, l, -, he⟩ | ⟨-, -, he⟩ | ⟨-, -, he⟩ | ⟨-, i, -, he⟩ := idleAccess_cases s t <;> rw [he]
    · exact ⟨_, rfl⟩
    · exact ⟨_, rfl⟩
    · exact issue_ends (s := answer s writeDone) (treeOk_congr h rfl rfl rfl) t.wdata
    · exact ⟨_, rfl⟩
    · exact ⟨_, rfl⟩

/-- Settles O53: only GENCODES can stop, and where the slots in use form a tree its walk comes to its end. -/
theorem coreNeverStops : Obligations.CoreNeverStops := by
  intro s h
  cases hin : s.inbox with
  | nil => exact ⟨s, step_idle s hin⟩
  | cons act acts =>
    rw [step_act s act acts hin]
    have htree : TreeOk { s with inbox := acts, answers := [] } := treeOk_congr h.tree rfl rfl rfl
    cases act with
    | access t => exact access_ends htree t
    | early t => exact access_ends htree t
    | rst => exact ⟨_, rfl⟩

end Sys2Proof.Machine
end

section
/-! The frame of every command, the error that is kept, and the draws of `OBUF` (10_state.md R17, R31, 60 R157, 70 R189). -/

namespace Sys2Proof.Machine

/-! ### the frame of every command (R189) -/

theorem exec_keeps_port {i : Instr} {s t : State} (h : exec i s = .next t) :
    t.inbox = s.inbox ∧ t.answers = s.answers := by
  obtain ⟨k, -, rfl⟩ | ⟨u, hu, rfl⟩ := exec_raises_or_writes h
  · exact ⟨raise_inbox .., raise_answers ..⟩
  · cases hu <;> exact ⟨rfl, rfl⟩

/-- Settles O47: the frame of every command, with what CLRERR does to `ERR`. -/
theorem noUnitTouchesAnothersState : Obligations.NoUnitTouchesAnothersState := by
  intro s t i h
  have hf := exec_frame h
  obtain ⟨hinbox, hanswers⟩ := exec_keeps_port h
  refine ⟨⟨hf.params, hf.ilen, hinbox, hanswers, hf.busy⟩, fun a => by rw [hf.ibuf], hf.ft, hf.tree, hf.ct, ?_, ?_, ?_⟩
  · intro hpack hunpack
    obtain ⟨hobuf, hdraw, holen, htbits⟩ := hf.output hpack hunpack
    exact ⟨holen, htbits, fun a => ⟨by rw [hobuf], by simp only [obufByte, hobuf, hdraw]⟩⟩
  · intro hi
    rcases hf.err with hk | ⟨hc, -⟩ | herr
    · exact .inr hk
    · exact absurd hc hi
    · exact .inl herr
  · rintro rfl
    cases h
    rfl

/-! ### the first error is kept (R17, R161, R162) -/

/-- Settles O49: an unfaulted core's causes are out, and of a faulted core's only reset and CLRERR touch `ERR`. -/
theorem firstErrorIsKept : Obligations.FirstErrorIsKept := by
  intro s t k herr hstep
  cases step_cause hstep with
  | quiet acts ans ht => subst ht; exact .inl herr
  | reset acts hnext ht => subst ht; exact .inr ⟨rfl, .inl hnext⟩
  | lengthWrite acts ans v _ _ ht => subst ht; exact .inl herr
  | byteWrite acts ans r a _ _ _ _ ht => subst ht; exact .inl herr
  | illegal acts ans w e _ hnone _ _ _ => simp [herr] at hnone
  | command acts ans busy i _ hcause hissue hexec =>
    rcases hcause with hnone | rfl
    · simp [herr] at hnone
    · cases hexec
      exact .inr ⟨rfl, .inr hissue⟩

/-! ### the draws of OBUF (R31, R157, R180) -/

/-- A command takes the next draw for `OBUF` or none; PACK and UNPACK take it. -/
theorem exec_obufDraw {i : Instr} {s t : State} (hold : s.obufDraw < s.draws) (h : exec i s = .next t) :
    s.obufDraw ≤ t.obufDraw ∧ t.obufDraw < t.draws ∧ (i = .pack ∨ i = .unpack → s.obufDraw < t.obufDraw) := by
  have hnext : t.draws = s.draws + 1 := by
    obtain ⟨k, -, rfl⟩ | ⟨u, hu, rfl⟩ := exec_raises_or_writes h
    · exact raise_draws ..
    · cases hu <;> rfl
  by_cases hi : i = .pack ∨ i = .unpack
  · have hdraw : t.obufDraw = s.draws := by
      obtain ⟨k, -, rfl⟩ | ⟨u, hu, rfl⟩ := exec_raises_or_writes h
      · rcases hi with rfl | rfl <;> rfl
      · rcases hi with rfl | rfl <;> cases hu <;> rfl
    omega
  · obtain ⟨hpack, hunpack⟩ := not_or.mp hi
    obtain ⟨-, hdraw, -⟩ := (exec_frame h).output hpack hunpack
    exact ⟨hdraw.ge, by omega, fun h => absurd h hi⟩

theorem step_obufDraw {s t : State} (hold : s.obufDraw < s.draws) (hstep : step s = .next t) :
    s.obufDraw ≤ t.obufDraw ∧ t.obufDraw < t.draws := by
  have hnext : s.obufDraw < s.draws + 1 := by omega
  cases step_cause hstep with
  | quiet acts ans ht => subst ht; exact ⟨le_rfl, hold⟩
  | reset acts _ ht => subst ht; simp only [resetWith_obufDraw, resetWith_draws]; omega
  | lengthWrite acts ans v _ _ ht => subst ht; exact ⟨le_rfl, hnext⟩
  | byteWrite acts ans r a _ _ _ _ ht => subst ht; exact ⟨le_rfl, hnext⟩
  | illegal acts ans w e _ _ _ _ ht => subst ht; exact ⟨le_rfl, hnext⟩
  | command acts ans busy i _ _ _ hexec =>
    obtain ⟨hle, hlt, -⟩ := exec_obufDraw (s := { s with inbox := acts, answers := ans, busy := busy }) hold hexec
    exact ⟨hle, hlt⟩

/-- Settles O56: a command takes the next draw or none, and a reset skips one draw and takes the one after it. -/
theorem unspecifiedOutputIsANewDraw : Obligations.UnspecifiedOutputIsANewDraw := by
  refine ⟨by decide, fun s t hold hstep => ?_, fun s t i hold hi h => (exec_obufDraw hold h).2.2 hi⟩
  obtain ⟨hle, hlt⟩ := step_obufDraw hold hstep
  refine ⟨hlt, hle, ?_⟩
  rintro ⟨acts, hin⟩
  rw [step_rst s acts hin] at hstep
  cases hstep
  rw [resetWith_obufDraw]
  omega

end Sys2Proof.Machine
end

section
/-! The registers, the host's writes, and the values reset leaves (10_state.md R11 to R25, R35, 20 R41, R42). -/

namespace Sys2Proof.Machine

/-! ### the host's reads of registers (R11) -/

theorem readLocation_port (s : State) (acts : List HostAct) (ans : List Answer) (l : Location) :
    readLocation { s with inbox := acts, answers := ans } l = readLocation s l := by
  cases l <;> rfl

/-- A read of an element the map reaches, as the host's next act, answers the element's value and changes nothing. -/
theorem step_read {s : State} {t : Transfer} {acts : List HostAct} {l : Location}
    (hin : s.inbox = .access t :: acts ∨ s.inbox = .early t :: acts) (hidle : s.busy = false) (hread : t.write = false)
    (hl : locate s.params t = some l) : step s = .next (answered s acts (readData (readLocation s l))) := by
  rw [step_transfer_idle s t acts hin hidle, idleAccess, hl]
  simp only [hread, Bool.false_eq_true, if_false, readLocation_port]
  rfl

theorem locate_wordRead_register (p : Params) {n : Nat} (hn : n < 16) :
    locate p (wordRead (BitVec.ofNat 32 (4 * n))) = some (.reg n) := by
  have haddr : (BitVec.ofNat 32 (4 * n)).toNat = 4 * n := by rw [BitVec.toNat_ofNat]; omega
  show wordLocation (BitVec.ofNat 32 (4 * n)).toNat = _
  rw [haddr, wordLocation, if_neg (by omega), if_pos (by omega), Nat.mul_div_cancel_left n (by decide)]

theorem step_readRegister {s : State} {n : Nat} {acts : List HostAct} (hn : n < 16)
    (hin : s.inbox = .access (wordRead (BitVec.ofNat 32 (4 * n))) :: acts) (hidle : s.busy = false) :
    step s = .next (answered s acts { err := false, rdata := some (readRegister s n) }) :=
  step_read (.inl hin) hidle rfl (locate_wordRead_register s.params hn)

theorem readRegister_err (s : State) :
    readRegister s 3 = match s.err with
      | none => 0
      | some .inputUnavailable => 1
      | some .emptyAlphabet => 2
      | some .malformedStream => 3
      | some .outputUnavailable => 4
      | some .illegalCommand => 5
      | some .noTree => 6
      | some .missingCode => 7 := by
  show (errField s).setWidth 32 = _
  unfold errField
  cases s.err with
  | none => rfl
  | some k => cases k <;> rfl

theorem readRegister_nsym (s : State) : (readRegister s 6).toNat = nsym s.ft := by
  have hle := nsym_le s.ft
  show (BitVec.ofNat 32 (nsym s.ft)).toNat = nsym s.ft
  rw [BitVec.toNat_ofNat]
  omega

theorem readRegister_nnode (s : State) : (readRegister s 7).toNat = s.nnode.toNat :=
  BitVec.toNat_setWidth_of_le (by decide)

theorem readRegister_root (s : State) :
    (readRegister s 8).toNat = if s.nnode = 0 then 0 else s.root.toNat := by
  show (if s.nnode = 0 then 0 else s.root.setWidth 32 : Word).toNat = _
  split
  · rfl
  · exact BitVec.toNat_setWidth_of_le (by decide)

/-- Settles O13: a word read at 4n reads register n, and each register's value is its row of R11. -/
theorem registersReadAsStated : Obligations.RegistersReadAsStated := by
  intro s n acts hn hin hidle
  refine ⟨readRegister s n, step_readRegister hn hin hidle, ?id, ?cmd, ?err, ?ilen, ?olen, ?nsym, ?nnode, ?root, ?tbits,
    ?icap, ?ocap, ?reserved⟩
  case err => rintro rfl; exact readRegister_err s
  case nsym => rintro rfl; exact (readRegister_nsym s).trans (List.countP_congr fun c _ => by simp)
  case nnode => rintro rfl; exact readRegister_nnode s
  case root => rintro rfl; exact readRegister_root s
  case reserved =>
    intro h12
    obtain rfl | rfl | rfl | rfl : n = 12 ∨ n = 13 ∨ n = 14 ∨ n = 15 := by omega
    all_goals rfl
  all_goals rintro rfl; rfl

/-! ### STATUS (R14) -/

theorem statusWord_getLsbD (s : State) (j : Nat) :
    (statusWord s).getLsbD j =
      match j with
      | 0 => s.busy
      | 1 => faultFlag s
      | 2 => treeFlag s
      | 3 => codesFlag s
      | _ => false := by
  have hbits : (statusWord s).getLsbD j = ((0 : BitVec 28) ++ BitVec.ofBool (codesFlag s) ++ BitVec.ofBool (treeFlag s) ++
      BitVec.ofBool (faultFlag s) ++ BitVec.ofBool s.busy).getLsbD j := rfl
  simp only [hbits, BitVec.getLsbD_append]
  match j with
  | 0 | 1 | 2 | 3 => simp
  | j + 4 => simp

theorem codesFlag_eq_true_iff (s : State) : codesFlag s = true ↔ ∃ c, codeOf s.ct c ≠ none := by
  simp [codesFlag, Option.isSome_iff_ne_none]

/-- Settles O14: bit by bit, with an idle core. -/
theorem statusShowsTheFourFlags : Obligations.StatusShowsTheFourFlags := by
  intro s acts hin hidle
  refine ⟨statusWord s, step_readRegister (n := 2) (by decide) hin hidle, ?_, ?_, ?_, ?_, ?_⟩
  · rw [statusWord_getLsbD]; exact hidle
  · rw [statusWord_getLsbD]; exact Option.isSome_iff_ne_none
  · rw [statusWord_getLsbD]; exact bne_iff_ne
  · rw [statusWord_getLsbD]; exact codesFlag_eq_true_iff s
  · intro j hj
    obtain ⟨k, rfl⟩ := Nat.exists_eq_add_of_le' hj
    exact statusWord_getLsbD s (k + 4)

/-! ### the host's writes (R18, R41, R42) -/

theorem locate_ilen {p : Params} {t : Transfer} (hword : t.word = true) (haddr : t.addr = 0x00000010) :
    locate p t = some (.reg 4) := by
  simp [locate, wordLocation, hword, haddr]

/-- A write to an element the map reaches, as the host's next act. -/
theorem step_write {s : State} {t : Transfer} {acts : List HostAct} {l : Location}
    (hin : s.inbox = .access t :: acts ∨ s.inbox = .early t :: acts) (hidle : s.busy = false) (hwrite : t.write = true)
    (hl : locate s.params t = some l) : step s = writeLocation { s with inbox := acts, answers := [] } t l := by
  rw [step_transfer_idle s t acts hin hidle, idleAccess, hl]
  exact if_pos hwrite

/-- Settles O12: the map takes the write to `ILEN` or to byte i of `IBUF`, and a write of one byte leaves the others. -/
theorem hostWritesTakeEffect : Obligations.HostWritesTakeEffect := by
  intro s t acts hin hidle hwrite
  refine ⟨fun hword haddr => step_write hin hidle hwrite (locate_ilen hword haddr), fun i hword haddr hi => ?_⟩
  have hdata : t.wdata.setWidth 8 = t.wdata.extractLsb' 0 8 := BitVec.setWidth_eq_extractLsb' (by omega)
  refine ⟨_, step_write hin hidle hwrite (locate_ibuf _ t i hword haddr hi), rfl, ?_, ?_, fun j hj => ?_,
    memory_wf_write _ _ _⟩
  · exact ibufByte_of_read (by simp [hdata])
  · simp
  · simp [hj]

/-! ### reset (R35, R180) -/

/-- With no tree every node word reads 0 (R49). -/
theorem readNode_of_no_tree {s : State} (h : s.nnode = 0) (k w : Nat) : readNode s k w = 0 := by
  rw [readNode, slot_of_le (by simp [h])]

theorem statusWord_resetWith (p : Params) (d : Nat) (acts : List HostAct) : statusWord (State.resetWith p d acts) = 0 := by
  have hcodes : codesFlag (State.resetWith p d acts) = false := by
    rw [← Bool.not_eq_true, codesFlag_eq_true_iff]
    simp
  simp [statusWord, hcodes, treeFlag, faultFlag]

/-- Settles O50: both ways of the statement to the state after reset are `State.resetWith`, whose fields R35 states. -/
theorem resetLeavesTheStatedValues : Obligations.ResetLeavesTheStatedValues := by
  intro t ht
  obtain ⟨p, d, acts, rfl⟩ : ∃ p d acts, t = State.resetWith p d acts := by
    rcases ht with rfl | ⟨s, acts, hin, hstep⟩
    · exact ⟨_, _, _, rfl⟩
    · rw [step_rst s acts hin] at hstep
      cases hstep
      exact ⟨_, _, _, rfl⟩
  have hft : ∀ c : Byte, (State.resetWith p d acts).ft[c.toNat] = 0 := fun c => by simp
  exact ⟨hft, rfl, rfl, readNode_of_no_tree rfl, codeOf_replicate, rfl, rfl, rfl, rfl, rfl, memory_read_nil,
    memory_read_nil, statusWord_resetWith p d acts, (nsym_eq_zero_iff _).mpr hft, rfl, rfl, rfl⟩

end Sys2Proof.Machine
end

section
/-! Slots out of use are unobservable (10_state.md R27, 20_memory.md R49): whatever a step does commutes with another content of
those slots. -/

namespace Sys2Proof.Machine

/-- `s` with another content of `NODE`. -/
def withNode (s : State) (node : Vector TreeNode 511) : State := { s with node := node }

/-- An outcome with another content of `NODE` in the next state. -/
def nextWithNode (node : Vector TreeNode 511) :
    Host.Outcome State Fault Refusal → Host.Outcome State Fault Refusal
  | .next s => .next (withNode s node)
  | .fault r => .fault r
  | .refused r => .refused r

/-- Where one outcome is a next state so is the other, and the two differ only in slots out of use. -/
def SameNext (o p : Host.Outcome State Fault Refusal) : Prop :=
  ∀ u, o = .next u → ∃ v, p = .next v ∧ SameInUse u v

theorem SameInUse.next {u v : State} (h : SameInUse u v) : SameNext (.next u) (.next v) := by
  intro w hw
  cases hw
  exact ⟨v, rfl, h⟩

theorem SameInUse.eq_withNode {s t : State} (h : SameInUse s t) : t = withNode s t.node := h.1.symm

/-- An operation that commutes with the content of `NODE` and leaves the tree keeps two states alike. -/
theorem SameInUse.map {s t : State} {f : State → State} (h : SameInUse s t)
    (hf : ∀ node, f (withNode s node) = withNode (f s) node) (hnode : (f s).node = s.node)
    (hnnode : (f s).nnode = s.nnode) : SameInUse (f s) (f t) := by
  have ht : f t = withNode (f s) t.node := (congrArg f h.eq_withNode).trans (hf t.node)
  rw [ht]
  refine ⟨rfl, fun k hk => ?_⟩
  rw [hnode]
  exact h.2 k (hnnode ▸ hk)

theorem SameInUse.answer {s t : State} (h : SameInUse s t) (a : Answer) :
    SameInUse (Machine.answer s a) (Machine.answer t a) :=
  h.map (f := fun s => Machine.answer s a) (fun _ => rfl) rfl rfl

/-! ### what reads NODE reads the slots in use -/

theorem SameInUse.slot_eq {s t : State} (h : SameInUse s t) (k : Nat) : slot t k = slot s k := by
  have hn : t.nnode = s.nnode := by rw [h.eq_withNode]; rfl
  by_cases hk : k < s.nnode.toNat
  · rw [slot_of_lt hk, slot_of_lt (hn.symm ▸ hk), h.2 k hk]
  · have hle : s.nnode.toNat ≤ k := by omega
    rw [slot_of_le hle, slot_of_le (hn.symm ▸ hle)]

theorem SameInUse.walk_eq {s t : State} (h : SameInUse s t) (fuel k : Nat) (p : Bits) :
    walk t fuel k p = walk s fuel k p := by
  induction fuel generalizing k p with
  | zero => rfl
  | succ fuel ih => simp only [walk, h.slot_eq, ih]

theorem SameInUse.treeCodes_eq {s t : State} (h : SameInUse s t) : treeCodes t = treeCodes s := by
  have hroot : t.root = s.root := by rw [h.eq_withNode]; rfl
  simp only [treeCodes, h.slot_eq, h.walk_eq, hroot]

theorem SameInUse.readLocation_eq {s t : State} (h : SameInUse s t) (l : Location) :
    readLocation t l = readLocation s l := by
  cases l with
  | node k w => simp only [readLocation, readNode, h.slot_eq]
  | reg n | ft c | ct c w | ibuf i | obuf i => rw [h.eq_withNode]; rfl

/-! ### commands -/

theorem serveEarly_withNode (acts : List HostAct) (n : Nat) (s : State) (node : Vector TreeNode 511) :
    serveEarly acts n (withNode s node) = withNode (serveEarly acts n s) node := by
  induction acts generalizing n s with
  | nil => rfl
  | cons a acts ih =>
    cases a with
    | access t => rfl
    | rst => rfl
    | early t =>
      cases n with
      | zero => rfl
      | succ n => exact ih n (busyAccess { s with inbox := acts } t)

theorem SameInUse.accept {s t : State} (h : SameInUse s t) : SameInUse (accept s) (accept t) := by
  obtain ⟨left, more, -, ha⟩ := accept_eq s
  refine h.map (f := Machine.accept) (fun node => serveEarly_withNode s.inbox _ { s with busy := true } node) ?_ ?_ <;> rw [ha]

theorem execAnalyze_withNode (s : State) (node : Vector TreeNode 511) :
    execAnalyze (withNode s node) = nextWithNode node (execAnalyze s) := by
  unfold execAnalyze
  rw [apply_ite (nextWithNode node)]
  rfl

theorem execPack_withNode (s : State) (node : Vector TreeNode 511) :
    execPack (withNode s node) = nextWithNode node (execPack s) := by
  have hcodes : concatCodes (withNode s node).ct (inputBytes (withNode s node)) = concatCodes s.ct (inputBytes s) := rfl
  unfold execPack
  rw [hcodes, apply_ite (nextWithNode node)]
  cases concatCodes s.ct (inputBytes s) with
  | none => rfl
  | some bits => simp only [apply_ite (nextWithNode node)]; rfl

theorem unpackStream_withNode (s : State) (node : Vector TreeNode 511) (header : Byte) (rest : List Byte) :
    unpackStream (withNode s node) header rest = withNode (unpackStream s header rest) node := by
  simp only [unpackStream, apply_ite (withNode · node)]
  rfl

theorem execUnpack_withNode (s : State) (node : Vector TreeNode 511) :
    execUnpack (withNode s node) = nextWithNode node (execUnpack s) := by
  have hbytes : inputBytes (withNode s node) = inputBytes s := rfl
  unfold execUnpack
  rw [hbytes, apply_ite (nextWithNode node)]
  cases inputBytes s with
  | nil => rfl
  | cons header rest => simp only [unpackStream_withNode]; rfl

theorem execGencodes_withNode {s t : State} (h : SameInUse s t) :
    execGencodes t = nextWithNode t.node (execGencodes s) := by
  have hnnode : t.nnode = s.nnode := by rw [h.eq_withNode]; rfl
  unfold execGencodes
  rw [hnnode, h.treeCodes_eq, apply_ite (nextWithNode t.node)]
  generalize ht : t.node = node
  obtain rfl : t = withNode s node := ht ▸ h.eq_withNode
  cases treeCodes s <;> rfl

/-- Every command but BUILD leaves `NODE` as it was, and only GENCODES looks at it, at the slots in use. -/
theorem exec_withNode {i : Instr} {s t : State} (h : SameInUse s t) (hi : i ≠ .build) :
    exec i t = nextWithNode t.node (exec i s) := by
  cases i with
  | build => exact absurd rfl hi
  | gencodes => exact execGencodes_withNode h
  | analyze => rw [h.eq_withNode]; exact execAnalyze_withNode s t.node
  | pack => rw [h.eq_withNode]; exact execPack_withNode s t.node
  | unpack => rw [h.eq_withNode]; exact execUnpack_withNode s t.node
  | clrerr => rw [h.eq_withNode]; rfl

/-- BUILD writes every slot it takes into use. -/
theorem build_sameNext {s t : State} (h : SameInUse s t) : SameNext (exec .build s) (exec .build t) := by
  intro u hu
  obtain ⟨node, rfl⟩ : ∃ node, t = withNode s node := ⟨_, h.eq_withNode⟩
  by_cases h0 : nsym s.ft = 0
  · obtain rfl := Host.Outcome.next.inj ((if_pos h0).symm.trans hu)
    exact ⟨_, if_pos h0, rfl, fun k hk => absurd hk (Nat.not_lt_zero k)⟩
  · obtain ⟨v, hv⟩ := exec_answers_next .build (withNode s node) (by decide)
    have hrest : { u with node := v.node } = v := by
      obtain rfl := Host.Outcome.next.inj ((if_neg h0).symm.trans hu)
      obtain rfl := Host.Outcome.next.inj ((if_neg h0).symm.trans hv)
      rfl
    have hnnode : u.nnode = v.nnode := by rw [← hrest]
    refine ⟨v, hv, hrest, fun k hk => ?_⟩
    rw [← slot_of_lt hk, ← slot_of_lt (hnnode ▸ hk), slot_build h0 hu]
    exact (slot_build (s := withNode s node) h0 hv k).symm

theorem exec_sameNext {s t : State} (h : SameInUse s t) (i : Instr) : SameNext (exec i s) (exec i t) := by
  by_cases hi : i = .build
  · subst hi; exact build_sameNext h
  · intro u hu
    obtain ⟨hnode, hnnode, -⟩ := (exec_frame hu).tree hi
    rw [exec_withNode h hi, hu]
    refine ⟨_, rfl, rfl, fun k hk => ?_⟩
    rw [hnode]
    exact h.2 k (hnnode ▸ hk)

/-! ### the port -/

theorem issue_sameNext {s t : State} (h : SameInUse s t) (w : Word) : SameNext (issue w s) (issue w t) := by
  have hbusy : t.busy = s.busy := by rw [h.eq_withNode]; rfl
  have herr : t.err = s.err := by rw [h.eq_withNode]; rfl
  unfold issue
  rw [hbusy, herr]
  split_ifs
  · exact h.next
  · exact exec_sameNext h .clrerr
  · exact h.next
  · cases decode w with
    | error e => exact (h.map (f := raise .illegalCommand none) (fun _ => rfl) rfl rfl).next
    | ok i => exact exec_sameNext h.accept i

theorem writeLocation_sameNext {s t : State} (h : SameInUse s t) (r : Transfer) (l : Location) :
    SameNext (writeLocation s r l) (writeLocation t r l) := by
  have hdone := h.answer writeDone
  unfold writeLocation
  split
  · exact issue_sameNext hdone r.wdata
  · exact (hdone.map (f := fun s => writeIlen s r.wdata) (fun _ => rfl) rfl rfl).next
  · next i => exact (hdone.map (f := fun s => writeIbuf s i (r.wdata.setWidth 8)) (fun _ => rfl) rfl rfl).next
  · exact (h.answer _).next

theorem idleAccess_sameNext {s t : State} (h : SameInUse s t) (r : Transfer) :
    SameNext (idleAccess s r) (idleAccess t r) := by
  have hparams : t.params = s.params := by rw [h.eq_withNode]; rfl
  unfold idleAccess
  rw [hparams]
  cases locate s.params r with
  | none => exact (h.answer _).next
  | some l =>
    simp only [h.readLocation_eq]
    split
    · exact writeLocation_sameNext h r l
    · exact (h.answer _).next

theorem access_sameNext {s t : State} (h : SameInUse s t) (r : Transfer) : SameNext (access s r) (access t r) := by
  have hbusy : t.busy = s.busy := by rw [h.eq_withNode]; rfl
  unfold access
  rw [hbusy]
  split
  · exact (h.map (f := fun s => busyAccess s r) (fun _ => rfl) rfl rfl).next
  · exact idleAccess_sameNext h r

/-- Settles O17: what reads `NODE` reads the slots in use, BUILD writes the slots it takes into use, and the rest of a step
carries `NODE` along. -/
theorem unusedSlotsAreUnobservable : Obligations.UnusedSlotsAreUnobservable := by
  intro s t u h hstep
  have hinbox : t.inbox = s.inbox := by rw [h.eq_withNode]; rfl
  revert u
  change SameNext (step s) (step t)
  cases hin : s.inbox with
  | nil =>
    rw [step_idle s hin, step_idle t (hinbox.trans hin)]
    exact h.next
  | cons a acts =>
    rw [step_act s a acts hin, step_act t a acts (hinbox.trans hin)]
    have hpopped : SameInUse { s with inbox := acts, answers := [] } { t with inbox := acts, answers := [] } :=
      h.map (f := fun s => { s with inbox := acts, answers := [] }) (fun _ => rfl) rfl rfl
    cases a with
    | access r => exact access_sameNext hpopped r
    | early r => exact access_sameNext hpopped r
    | rst =>
      rw [h.eq_withNode]
      exact SameInUse.next ⟨rfl, fun _ _ => rfl⟩

end Sys2Proof.Machine
end

section
/-! The host port: the address map in byte addresses, bus errors, reads, and the step that runs a command (20_memory.md R42 to R46,
30_encoding.md R60, R63). -/

namespace Sys2Proof.Machine

/-! ### the address map in byte addresses (R42, R43, R44) -/

theorem exists_wordLocation_iff (a : Nat) :
    (∃ l, wordLocation a = some l) ↔ a % 4 = 0 ∧
      (a < 0x40 ∨ (0x1000 ≤ a ∧ a < 0x1400) ∨ (0x2000 ≤ a ∧ a < 0x2FF8) ∨ (0x4000 ≤ a ∧ a < 0x8000)) := by
  rw [← Option.isSome_iff_exists, wordLocation]
  split_ifs <;> simp only [Option.isSome_none, Option.isSome_some, Bool.false_eq_true, false_iff, true_iff] <;> omega

theorem exists_writable_wordLocation_iff (a : Nat) :
    (∃ l, wordLocation a = some l ∧ writable l = true) ↔ a = 0x04 ∨ a = 0x10 := by
  constructor
  · rintro ⟨l, hl, hw⟩
    unfold wordLocation at hl
    split_ifs at hl <;> cases hl
    case pos.refl =>
      simp only [writable, Bool.or_eq_true, beq_iff_eq] at hw
      omega
    all_goals cases hw
  · rintro (rfl | rfl)
    · exact ⟨.reg 1, rfl, rfl⟩
    · exact ⟨.reg 4, rfl, rfl⟩

theorem exists_byteLocation_iff (p : Params) (a : Nat) :
    (∃ l, byteLocation p a = some l) ↔
      (0x01000000 ≤ a ∧ a < 0x01000000 + p.ibufCap) ∨ (0x02000000 ≤ a ∧ a < 0x02000000 + p.obufCap) := by
  rw [← Option.isSome_iff_exists, byteLocation]
  split_ifs <;> simp only [Option.isSome_none, Option.isSome_some, Bool.false_eq_true, false_iff, true_iff] <;> omega

theorem exists_writable_byteLocation_iff (p : Params) (a : Nat) :
    (∃ l, byteLocation p a = some l ∧ writable l = true) ↔ 0x01000000 ≤ a ∧ a < 0x01000000 + p.ibufCap := by
  unfold byteLocation
  split_ifs <;> simp_all [writable]

/-- The legal accesses are those that reach an element, a write one that the host may write (R42). -/
theorem legalAccess_iff (p : Params) (t : Transfer) :
    LegalAccess p t ↔ ∃ l, locate p t = some l ∧ (t.write = true → writable l = true) := by
  obtain ⟨write, word, addr, wdata⟩ := t
  cases word <;> cases write
  case false.false => simp [LegalAccess, locate, exists_byteLocation_iff]
  case false.true => simp [LegalAccess, locate, exists_writable_byteLocation_iff]
  case true.false =>
    simp only [LegalAccess, locate, reduceCtorEq, false_implies, and_true, true_and, false_and, or_false, if_true,
      exists_wordLocation_iff]
    omega
  case true.true => simp [LegalAccess, locate, exists_writable_wordLocation_iff]

/-! ### bus errors (R46) -/

/-- Whatever a write to `CMD` comes to, the answers given before it stand first. -/
theorem answers_prefix_of_issue {w : Word} {s u : State} (h : issue w s = .next u) : s.answers <+: u.answers := by
  obtain ⟨-, he⟩ | ⟨-, -, -, he⟩ | ⟨-, -, -, he⟩ | ⟨-, -, -, he⟩ | ⟨-, -, i, -, he⟩ := issue_cases w s <;> rw [he] at h
  · cases h; exact List.prefix_rfl
  · rw [(exec_keeps_port h).2]
  · cases h; exact List.prefix_rfl
  · cases h; rw [raise_answers]
  · obtain ⟨left, more, -, ha⟩ := accept_eq s
    rw [(exec_keeps_port h).2, ha]
    exact List.prefix_append _ _

theorem idleAccess_of_not_legal {s : State} {t : Transfer} (h : ¬ LegalAccess s.params t) :
    idleAccess s t = .next (answer s (busError t)) := by
  have hl : ∀ l, locate s.params t = some l → t.write = true ∧ writable l = false := fun l hl => by
    simpa using fun hw => h ((legalAccess_iff ..).mpr ⟨l, hl, hw⟩)
  obtain ⟨he, -⟩ | ⟨hread, l, hloc, -⟩ | ⟨-, hloc, -⟩ | ⟨-, hloc, -⟩ | ⟨-, i, hloc, -⟩ := idleAccess_cases s t
  · exact he
  · exact absurd (hl l hloc).1 (by simp [hread])
  all_goals exact absurd (hl _ hloc).2 (by simp [writable])

/-- A legal access of an idle core is answered first, and without bus error. -/
theorem answers_of_legal {s u : State} {t : Transfer} (h : LegalAccess s.params t) (hu : idleAccess s t = .next u) :
    ∃ rd, s.answers ++ [{ err := false, rdata := rd }] <+: u.answers := by
  obtain ⟨l, hl, hw⟩ := (legalAccess_iff ..).mp h
  obtain ⟨-, hnone | ⟨l', hl', hwrite, hro⟩⟩ | ⟨-, l', -, he⟩ | ⟨-, -, he⟩ | ⟨-, -, he⟩ | ⟨-, i, -, he⟩ :=
    idleAccess_cases s t
  · simp [hnone] at hl
  · obtain rfl : l' = l := by simpa [hl'] using hl
    simp [hw hwrite] at hro
  all_goals rw [he] at hu
  · cases hu; exact ⟨_, List.prefix_rfl⟩
  · exact ⟨_, answers_prefix_of_issue hu⟩
  · cases hu; exact ⟨_, List.prefix_rfl⟩
  · cases hu; exact ⟨_, List.prefix_rfl⟩

/-- Settles O11: the map in byte addresses is the map the port looks up, and the port answers before it acts. -/
theorem busErrorExactlyOutsideTheMap : Obligations.BusErrorExactlyOutsideTheMap := by
  intro s t acts hin hidle
  rw [step_transfer_idle s t acts hin hidle]
  refine ⟨fun h => idleAccess_of_not_legal h, fun h u hu => ?_⟩
  obtain ⟨rd, more, hmore⟩ := answers_of_legal (s := { s with inbox := acts, answers := [] }) h hu
  exact ⟨rd, more, hmore.symm⟩

/-! ### reads and early transfers (R45, R186) -/

/-- A read while `BUSY` = 1 is answered with some data (R186). -/
theorem busyAnswer_of_read (s : State) {t : Transfer} (hread : t.write = false) :
    ∃ e v, busyAnswer s t = { err := e, rdata := some v } := by
  unfold busyAnswer
  rw [hread]
  split <;> exact ⟨_, _, rfl⟩

/-- Settles O10: met by a busy core a read is only answered, met by an idle one it is a bus error or returns an element. -/
theorem readsChangeNothing : Obligations.ReadsChangeNothing := by
  intro s t acts hin hread
  by_cases hbusy : s.busy = true
  · obtain ⟨e, v, ha⟩ := busyAnswer_of_read { s with inbox := acts, answers := [] } hread
    refine ⟨v, e, ?_, fun hidle => absurd hbusy (by simp [hidle])⟩
    rw [step_transfer_busy s t acts hin hbusy, busyAccess, ha]
    rfl
  · have hidle : s.busy = false := Bool.eq_false_iff.mpr hbusy
    cases hl : locate s.params t with
    | none =>
      refine ⟨0, true, ?_, fun _ _ => rfl⟩
      rw [step_transfer_idle s t acts hin hidle, idleAccess, hl, busError, hread]
      rfl
    | some l => exact ⟨_, false, step_read hin hidle hread hl, by simp⟩

/-- Settles O55: the host's act is taken the same way, and a transfer is done the same way, early or not. -/
theorem earlyTransferOutsideACommandIsATransfer : Obligations.EarlyTransferOutsideACommandIsATransfer := by
  intro s t acts hin
  rw [step_act s _ acts hin, step_act { s with inbox := .access t :: acts } _ acts rfl]
  rfl

/-! ### a step that runs a command (R42, R60, R63) -/

theorem issue_of_decode {s : State} {w : Word} {i : Instr} (hidle : s.busy = false) (herr : s.err = none)
    (hdec : decode w = .ok i) : issue w s = exec i (accept s) := by
  simp [issue, hidle, herr, hdec]

theorem decode_of_decodeTableWord {n w : Nat} {i : Instr} (h : decodeTableWord n w = some i) :
    decode (tableWord n w) = .ok i := by
  unfold decodeTableWord at h
  split at h
  · next hdec => rw [hdec, Option.some.inj h]
  · cases h

/-- Settles O4: a write to `CMD` is command issue, which accepts a word that decodes. -/
theorem stepRunsTheDecodedCommand : Obligations.StepRunsTheDecodedCommand := by
  have hruns : ∀ {s : State} {w : Word} {i : Instr} {acts : List HostAct},
      s.inbox = .access (commandWrite w) :: acts → s.busy = false → s.err = none → decode w = .ok i →
      step s = exec i (accept (answered s acts writeDone)) := fun hin hidle herr hdec =>
    (step_command _ _ _ hin hidle).trans (issue_of_decode hidle herr hdec)
  refine ⟨fun s w i acts hin hidle herr hdec => ⟨hruns hin hidle herr hdec, fun hearly => ?_⟩,
    fun s w i hidle herr hdec => ?_⟩
  · rw [hruns hin hidle herr hdec, accept_of_no_early _ hearly]
  · exact hruns (s := s.withFetchWord 32 w) rfl hidle herr (decode_of_decodeTableWord hdec)

end Sys2Proof.Machine
end

section
/-! What the windows read back: bytes, counts, tree nodes and codes (20_memory.md R47 to R50). -/

namespace Sys2Proof.Machine

/-! ### the byte windows (R41, R48) -/

/-- A byte of `OBUF` is reached where the window of `IBUF` ends below it. -/
theorem locate_obuf {p : Params} {t : Transfer} {i : Nat} (hword : t.word = false)
    (haddr : t.addr.toNat = 0x02000000 + i) (hi : i < p.obufCap) (hcap : p.ibufCap ≤ 2 ^ 24) :
    locate p t = some (.obuf i) := by
  unfold locate byteLocation
  rw [hword, haddr]
  simp only [Bool.false_eq_true, if_false]
  rw [if_neg (by omega), if_pos (by omega), Nat.add_sub_cancel_left]

/-- Settles O54: the map takes the address to byte i of its buffer, and the word read is the byte, zero-extended. -/
theorem byteWindowsReadBack : Obligations.ByteWindowsReadBack := by
  intro s t acts i hin hidle hread hword
  have hzext (b : Byte) : (b.setWidth 32).toNat = b.toNat := BitVec.toNat_setWidth_of_le (by decide)
  refine ⟨fun haddr hi => ⟨_, step_read hin hidle hread (locate_ibuf _ t i hword haddr hi), hzext _, fun b hb => ?_⟩,
    fun haddr hi hcap => ⟨_, step_read hin hidle hread (locate_obuf hword haddr hi hcap), hzext _, fun b hb => ?_⟩⟩
  · rw [← ibufByte_of_read hb]; exact hzext _
  · rw [← obufByte_of_read hb]; exact hzext _

/-! ### the word windows (R43) -/

theorem locate_wordRead (p : Params) {a : Nat} (ha : a < 2 ^ 32) :
    locate p (wordRead (BitVec.ofNat 32 a)) = wordLocation a := by
  have haddr : (BitVec.ofNat 32 a).toNat = a := by rw [BitVec.toNat_ofNat, Nat.mod_eq_of_lt ha]
  show wordLocation (BitVec.ofNat 32 a).toNat = _
  rw [haddr]

theorem wordLocation_ft (c : Byte) : wordLocation (0x1000 + 4 * c.toNat) = some (.ft c) := by
  have hc := c.isLt
  have hindex : (0x1000 + 4 * c.toNat - 0x1000) / 4 = c.toNat := by omega
  rw [wordLocation, if_neg (by omega), if_neg (by omega), if_pos (by omega), hindex, BitVec.ofNat_toNat, BitVec.setWidth_eq]

theorem wordLocation_node {k w : Nat} (hk : k < 511) (hw : w < 2) :
    wordLocation (0x2000 + 8 * k + 4 * w) = some (.node k w) := by
  have hslot : (0x2000 + 8 * k + 4 * w - 0x2000) / 8 = k := by omega
  have hindex : (0x2000 + 8 * k + 4 * w - 0x2000) / 4 % 2 = w := by omega
  rw [wordLocation, if_neg (by omega), if_neg (by omega), if_neg (by omega), if_pos (by omega), hslot, hindex]

theorem wordLocation_ct (c : Byte) {w : Nat} (hw : w < 16) :
    wordLocation (0x4000 + 64 * c.toNat + 4 * w) = some (.ct c w) := by
  have hc := c.isLt
  have hsymbol : (0x4000 + 64 * c.toNat + 4 * w - 0x4000) / 64 = c.toNat := by omega
  have hindex : (0x4000 + 64 * c.toNat + 4 * w - 0x4000) / 4 % 16 = w := by omega
  rw [wordLocation, if_neg (by omega), if_neg (by omega), if_neg (by omega), if_neg (by omega), if_pos (by omega), hsymbol,
    hindex, BitVec.ofNat_toNat, BitVec.setWidth_eq]

/-- A word read inside the map, as the host's next act. -/
theorem step_wordRead {s : State} {a : Nat} {acts : List HostAct} {l : Location}
    (hin : s.inbox = .access (wordRead (BitVec.ofNat 32 a)) :: acts) (hidle : s.busy = false) (ha : a < 2 ^ 32)
    (hl : wordLocation a = some l) :
    step s = .next (answered s acts { err := false, rdata := some (readLocation s l) }) :=
  step_read (.inl hin) hidle rfl ((locate_wordRead s.params ha).trans hl)

/-! ### counts and tree nodes (R47, R49) -/

/-- The fields of a leaf's second word. -/
theorem leafWord_fields (c : Byte) (f : Word) (v : Word) (hv : v = nodeWord (.leaf c f) 1) :
    v.getLsbD 31 = true ∧ v.extractLsb' 26 5 = 0 ∧ v.extractLsb' 18 8 = c ∧ v.extractLsb' 9 9 = 0 ∧
      v.extractLsb' 0 9 = 0 := by
  have hv : v = (0b100000 : BitVec 6) ++ c ++ (0 : BitVec 18) := hv
  subst hv
  refine ⟨?_, ?_, ?_, ?_, ?_⟩
  · rw [BitVec.getLsbD_append, BitVec.getLsbD_append]; rfl
  · rw [BitVec.extractLsb'_append_eq_of_le (by decide), BitVec.extractLsb'_append_eq_of_le (by decide)]; rfl
  · rw [BitVec.extractLsb'_append_eq_of_le (by decide)]; exact BitVec.extractLsb'_append_eq_right
  · rw [BitVec.extractLsb'_append_eq_of_add_le (by decide)]; rfl
  · rw [BitVec.extractLsb'_append_eq_of_add_le (by decide)]; rfl

/-- The fields of an internal node's second word. -/
theorem internalWord_fields (f : Word) (l r : BitVec 9) (v : Word) (hv : v = nodeWord (.internal f l r) 1) :
    v.getLsbD 31 = false ∧ v.extractLsb' 26 5 = 0 ∧ v.extractLsb' 18 8 = 0 ∧ v.extractLsb' 9 9 = l ∧
      v.extractLsb' 0 9 = r := by
  have hv : v = (0 : BitVec 14) ++ l ++ r := hv
  subst hv
  refine ⟨?_, ?_, ?_, ?_, ?_⟩
  · rw [BitVec.getLsbD_append, BitVec.getLsbD_append]; rfl
  · rw [BitVec.extractLsb'_append_eq_of_le (by decide), BitVec.extractLsb'_append_eq_of_le (by decide)]; rfl
  · rw [BitVec.extractLsb'_append_eq_of_le (by decide), BitVec.extractLsb'_append_eq_of_le (by decide)]; rfl
  · rw [BitVec.extractLsb'_append_eq_of_le (by decide)]; exact BitVec.extractLsb'_append_eq_right
  · exact BitVec.extractLsb'_append_eq_right

theorem readNode_of_slot {s : State} {k : Nat} {n : TreeNode} (h : slot s k = some n) (w : Nat) :
    readNode s k w = nodeWord n w := by
  rw [readNode, h]

/-- Settles O15: the address gives the element, and a slot in use reads its node's words. -/
theorem treeAndCountWindowsReadBack : Obligations.TreeAndCountWindowsReadBack := by
  refine ⟨fun s c acts hin hidle => ?_, fun s k w acts hk hw hin hidle => ?_⟩
  · have hc := c.isLt
    exact step_wordRead hin hidle (by omega) (wordLocation_ft c)
  refine ⟨readNode s k w, step_wordRead hin hidle (by omega) (wordLocation_node hk hw), fun hunused => ?_,
    fun c f hs => ?_, fun f l r hs => ?_⟩
  · rw [readNode, slot_of_le hunused]
  · rw [readNode_of_slot hs]
    exact ⟨by rintro rfl; rfl, by rintro rfl; exact leafWord_fields c f _ rfl⟩
  · rw [readNode_of_slot hs]
    exact ⟨by rintro rfl; rfl, by rintro rfl; exact internalWord_fields f l r _ rfl⟩

/-! ### codes (R50) -/

theorem val_append_singleton (b : Bits) (x : Bool) : val (b ++ [x]) = 2 * val b + x.toNat := by
  simp [val]

/-- Bit i of the number of a bit-string is the i-th from its end (R7). -/
theorem testBit_val (b : Bits) (i : Nat) : (val b).testBit i = b.reverse.getD i false := by
  induction b using List.reverseRecOn generalizing i with
  | nil => simp [val]
  | append_singleton b x ih =>
    rw [val_append_singleton, List.reverse_concat]
    cases i with
    | zero => cases x <;> simp
    | succ i =>
      have hx := x.toNat_lt
      have hhalf : (2 * val b + x.toNat) / 2 = val b := by omega
      rw [Nat.testBit_succ, hhalf, ih, List.getD_cons_succ]

/-- Bit 31 − j of the word of a bit-string of 32 bits is its bit j. -/
theorem ofNat_val_getLsbD {b : Bits} (hb : b.length = 32) {j : Nat} (hj : j < 32) :
    (BitVec.ofNat 32 (val b)).getLsbD (31 - j) = b.getD j false := by
  have hindex : 32 - 1 - (31 - j) = j := by omega
  rw [BitVec.getLsbD_ofNat, decide_eq_true (by omega), Bool.true_and, testBit_val, List.getD_eq_getElem?_getD,
    List.getElem?_reverse (by omega), hb, hindex, List.getD_eq_getElem?_getD]

theorem getD_append_replicate (l : Bits) (n i : Nat) : (l ++ List.replicate n false).getD i false = l.getD i false := by
  simp only [List.getD_eq_getElem?_getD]
  by_cases h : i < l.length
  · rw [List.getElem?_append_left h]
  · rw [List.getElem?_append_right (by omega), List.getElem?_eq_none (l := l) (by omega), List.getElem?_replicate]
    split <;> rfl

/-- Words 1 to 8 hold the code left-aligned, with zeros behind it. -/
theorem codeWord_getLsbD {c : Option Bits} {w j : Nat} (hlen : (c.getD []).length ≤ 256) (h1 : 1 ≤ w) (h8 : w ≤ 8)
    (hj : j < 32) : (codeWord c w).getLsbD (31 - j) = (c.getD []).getD (32 * (w - 1) + j) false := by
  simp only [codeWord]
  rw [if_neg (by omega), if_pos h8, ofNat_val_getLsbD _ hj, ← getD_append_replicate (c.getD []) (256 - (c.getD []).length)]
  · simp only [List.getD_eq_getElem?_getD, List.getElem?_take, hj, if_true, List.getElem?_drop]
  · simp only [List.length_take, List.length_drop, List.length_append, List.length_replicate]
    omega

theorem TableOk.codeBits_length_le {ct : Vector (Option Bits) 256} (h : TableOk ct) (c : Byte) :
    (codeBits ct c).length ≤ 255 := by
  unfold codeBits
  cases hc : codeOf ct c with
  | none => exact Nat.zero_le _
  | some code => exact (h.lengths c code hc).2

/-- Settles O16: a code of a legal table fits in 256 bits, so word 0 holds its length and words 1 to 8 all of it. -/
theorem codeWindowReadsBack : Obligations.CodeWindowReadsBack := by
  intro s c w acts htable hw hin hidle
  have hc := c.isLt
  have hlen := htable.codeBits_length_le c
  refine ⟨codeWord (codeOf s.ct c) w, step_wordRead hin hidle (by omega) (wordLocation_ct c hw), ?_, fun h1 h8 j hj => ?_,
    fun h9 => ?_⟩
  · rintro rfl
    show (BitVec.ofNat 32 (codeBits s.ct c).length).toNat = _
    rw [BitVec.toNat_ofNat, Nat.mod_eq_of_lt (by omega)]
  · exact codeWord_getLsbD (Nat.le_succ_of_le hlen) h1 h8 hj
  · rw [codeWord, if_neg (by omega), if_neg (by omega)]

end Sys2Proof.Machine
end

section
/-! Where PACK puts each bit (20_memory.md R51, 30_encoding.md R73, 43_bit_packer.md R121). -/

namespace Sys2Proof.Machine

theorem bytesOfBits_bin8_append (b : Byte) (l : Bits) : bytesOfBits (bin8 b ++ l) = b :: bytesOfBits l := by
  have h : bytesOfBits (bin8 b ++ l) = BitVec.ofNat 8 (val (bin8 b)) :: bytesOfBits l := rfl
  rw [h, ofNat_val_bin8]

/-- What stands behind the header of the padded stream: the codes, and the padding that fills the last byte (R72). -/
def paddedCodes (bits : Bits) : Bits := bits ++ List.replicate (padCount bits.length) false

theorem paddedCodes_length (bits : Bits) : (paddedCodes bits).length = 8 * (1 + bits.length / 8) := by
  rw [paddedCodes, List.length_append, List.length_replicate, padCount]
  omega

/-- The padded stream in bytes: the padding count, then the codes and the padding. -/
theorem bytesOfBits_paddedStream (bits : Bits) :
    bytesOfBits (paddedStream bits) = BitVec.ofNat 8 (padCount bits.length) :: bytesOfBits (paddedCodes bits) := by
  rw [paddedStream, List.append_assoc, bytesOfBits_bin8_append, paddedCodes]

/-- A bit of the bytes of a bit-string of whole bytes (R51, R74). -/
theorem bytesOfBits_getLsbD {l : Bits} (hwhole : l.length % 8 = 0) {j : Nat} {b : Byte}
    (hb : (bytesOfBits l)[j / 8]? = some b) : b.getLsbD (7 - j % 8) = l.getD j false := by
  have hbit := bitsOfBytes_getElem? (bytesOfBits l) j
  rw [bitsOfBytes_bytesOfBits l hwhole, hb] at hbit
  rw [List.getD_eq_getElem?_getD, hbit]
  rfl

/-- A PACK that raises nothing has written the padded stream. -/
theorem execPack_of_err_none {s t : State} (h : execPack s = .next t) (herr : t.err = none) :
    2 + ((inputBytes s).flatMap (codeBits s.ct)).length / 8 ≤ s.params.obufCap ∧
      t = complete (writeOutput s (bytesOfBits (paddedStream ((inputBytes s).flatMap (codeBits s.ct))))
        ((inputBytes s).flatMap (codeBits s.ct)).length) := by
  obtain ⟨-, rfl⟩ | ⟨-, -, rfl⟩ | ⟨-, -, bits, rfl, ⟨hfits, ht⟩ | ⟨-, rfl⟩⟩ := execPack_cases h
  · cases herr
  · cases herr
  · exact ⟨hfits, ht⟩
  · cases herr

theorem obufByte_of_written {s : State} {bytes : List Byte} {n k : Nat} {b : Byte} (h : bytes[k]? = some b) :
    obufByte (complete (writeOutput s bytes n)) k = b :=
  obufByte_of_read (by simpa using h)

/-- Settles O31: the output is the padding count, then the codes and the padding in whole bytes. -/
theorem packPlacesEveryBit : Obligations.PackPlacesEveryBit := by
  rintro s t bits hparams - hexec herr hbits
  obtain ⟨hfits, ht⟩ := execPack_of_err_none hexec herr
  rw [← hbits] at hfits ht
  have hcap := obufCap_le_of_wellFormed hparams
  have holen : t.olen.toNat = 2 + bits.length / 8 := by
    rw [ht, complete_olen, writeOutput_olen, packed_length, BitVec.toNat_ofNat, Nat.mod_eq_of_lt (by omega)]
  constructor
  · have hheader : obufByte t 0 = BitVec.ofNat 8 (padCount bits.length) := by
      rw [ht]
      exact obufByte_of_written (by rw [bytesOfBits_paddedStream]; rfl)
    have hpad := padCount_range bits.length
    rw [hheader, BitVec.toNat_ofNat, Nat.mod_eq_of_lt (by omega), padCount]
  · intro j hj
    have hlt : j / 8 < (bytesOfBits (paddedCodes bits)).length := by
      rw [bytesOfBits_length, paddedCodes_length]
      omega
    have hbyte : obufByte t (1 + j / 8) = (bytesOfBits (paddedCodes bits))[j / 8] := by
      rw [ht]
      exact obufByte_of_written (by
        rw [bytesOfBits_paddedStream, Nat.add_comm, List.getElem?_cons_succ, List.getElem?_eq_getElem hlt])
    have hwhole : (paddedCodes bits).length % 8 = 0 := by
      rw [paddedCodes_length, Nat.mul_mod_right]
    rw [hbyte, bytesOfBits_getLsbD hwhole (List.getElem?_eq_getElem hlt), paddedCodes, getD_append_replicate]

end Sys2Proof.Machine
end

section
/-! PACK and UNPACK undo one another: the greedy scan of concatenated codes, the padded stream PACK writes, and the round trip
(30_encoding.md R72 to R77, 44_bit_unpacker.md R131, R132, 45_control_and_sequences.md R145). -/

namespace Sys2Proof.Machine

/-! ### the greedy scan (R76, R131, R132) -/

/-- Where the candidate and the next bits make up a code, the scan emits its symbol at the code's last bit: an earlier match
would be a code that is a first part of it. -/
theorem scanCodes_code {ct : Vector (Option Bits) 256} (hok : TableOk ct) {c : Byte} {cand rest : Bits} (hrest : rest ≠ [])
    (hcode : codeOf ct c = some (cand ++ rest)) (payload : Bits) :
    scanCodes ct cand (rest ++ payload) = (c :: (scanCodes ct [] payload).1, (scanCodes ct [] payload).2) := by
  induction rest generalizing cand with
  | nil => exact absurd rfl hrest
  | cons b rest ih =>
    rw [List.append_cons] at hcode
    rw [List.cons_append, scanCodes]
    cases hr : rev ct (cand ++ [b]) with
    | some d =>
      have hd := codeOf_of_rev hr
      obtain rfl := hok.prefixFree d c _ _ hd hcode (List.prefix_append _ _)
      obtain rfl : rest = [] := by simpa using hd.symm.trans hcode
      rfl
    | none =>
      have hmore : rest ≠ [] := by
        rintro rfl
        exact rev_eq_none_iff.mp hr c (by simpa using hcode)
      exact ih hmore hcode

/-- The scan of concatenated codes emits their symbols and leaves an empty candidate. -/
theorem scanCodes_flatMap_codeBits {ct : Vector (Option Bits) 256} (hok : TableOk ct) {out : List Byte}
    (hcoded : AllCoded ct out) : scanCodes ct [] (out.flatMap (codeBits ct)) = (out, []) := by
  induction out with
  | nil => rfl
  | cons c out ih =>
    obtain ⟨x, hx⟩ := Option.ne_none_iff_exists'.mp (hcoded c List.mem_cons_self)
    have hne : x ≠ [] := List.length_pos_iff.mp (hok.lengths c x hx).1
    rw [List.flatMap_cons, codeBits_of_codeOf hx, scanCodes_code hok hne hx,
      ih fun b hb => hcoded b (List.mem_cons_of_mem _ hb)]

/-- Settles O34: the scan finds every split, and it is a function, so there is no second one. -/
theorem greedyScanFindsTheOnlyParse : Obligations.GreedyScanFindsTheOnlyParse := by
  intro ct out hok hcoded
  have hscan := scanCodes_flatMap_codeBits hok hcoded
  refine ⟨hscan, fun out' hcoded' he => ?_⟩
  have hscan' := scanCodes_flatMap_codeBits hok hcoded'
  rw [he, hscan] at hscan'
  exact (congrArg Prod.fst hscan').symm

/-! ### the output of PACK (R72, R73, R74, R121) -/

/-- PACK of coded bytes that fit (R121). -/
theorem execPack_of_allCoded {s : State} (hin : s.ilen.toNat ≤ s.params.ibufCap) (hcoded : AllCoded s.ct (inputBytes s))
    (hfits : 2 + ((inputBytes s).flatMap (codeBits s.ct)).length / 8 ≤ s.params.obufCap) :
    execPack s = .next (complete (writeOutput s (bytesOfBits (paddedStream ((inputBytes s).flatMap (codeBits s.ct))))
      ((inputBytes s).flatMap (codeBits s.ct)).length)) := by
  have havail : inputAvailable s = true := decide_eq_true hin
  rw [← packed_length] at hfits
  simp only [execPack, havail, concatCodes_of_allCoded hcoded, if_true, if_pos hfits]

theorem allCoded_of_pack {s t : State} (h : execPack s = .next t) (herr : t.err = none) : AllCoded s.ct (inputBytes s) := by
  obtain ⟨-, rfl⟩ | ⟨-, -, rfl⟩ | ⟨-, hcoded, -⟩ := execPack_cases h
  · cases herr
  · cases herr
  · exact hcoded

/-- Settles O30: PACK writes the bytes of the padded stream, each the value of eight bits of it. -/
theorem packWritesThePaddedStream : Obligations.PackWritesThePaddedStream := by
  intro s bits stream hin hcoded hbits hstream hfits hcap
  obtain rfl : stream = paddedStream bits := hstream
  subst hbits
  refine ⟨_, execPack_of_allCoded hin hcoded hfits, rfl, ?_, ?_, fun j => ?_⟩
  · rw [complete_olen, writeOutput_olen, packed_length, BitVec.toNat_ofNat, Nat.mod_eq_of_lt (by omega)]
  · rw [complete_tbits, writeOutput_tbits, BitVec.toNat_ofNat, Nat.mod_eq_of_lt (by omega)]
  · have hwhole := paddedStream_whole_bytes ((inputBytes s).flatMap (codeBits s.ct))
    have hlength := packed_length ((inputBytes s).flatMap (codeBits s.ct))
    rw [bytesOfBits_length] at hlength
    rw [complete_obuf, writeOutput_obuf, memory_read_ofBytes, if_pos (Nat.zero_le j), Nat.sub_zero, bytesOfBits_getElem?]
    exact if_congr (by omega) rfl rfl

/-! ### UNPACK of PACK's output (R77, R131, R145) -/

/-- The output as the host reads it is what PACK or UNPACK wrote (R19, R31). -/
theorem outputBytes_of_written {s : State} {bytes : List Byte} (n : Nat) (hlen : bytes.length < 2 ^ 32) :
    outputBytes (complete (writeOutput s bytes n)) = bytes := by
  have holen : (complete (writeOutput s bytes n)).olen.toNat = bytes.length := by
    rw [complete_olen, writeOutput_olen, BitVec.toNat_ofNat, Nat.mod_eq_of_lt hlen]
  refine List.ext_getElem (by rw [outputBytes, List.length_map, List.length_range, holen]) fun k hk hk' => ?_
  simp only [outputBytes, List.getElem_map, List.getElem_range]
  exact obufByte_of_written (List.getElem?_eq_getElem hk')

/-- UNPACK of a payload that is a concatenation of codes writes their symbols (R131). -/
theorem unpackStream_of_parse {s : State} (hok : TableOk s.ct) {header : Byte} {rest out : List Byte}
    (hheader : header.toNat ≤ 8 * rest.length) (hcoded : AllCoded s.ct out)
    (hparse : (bitsOfBytes rest).take (8 * rest.length - header.toNat) = out.flatMap (codeBits s.ct))
    (hfits : out.length ≤ s.params.obufCap) :
    unpackStream s header rest = complete (writeOutput s out (8 * rest.length - header.toNat)) := by
  simp [unpackStream, hheader, hparse, scanCodes_flatMap_codeBits hok hcoded, hfits]

/-- UNPACK of a packed code concatenation: the header strips the padding and nothing else, so the codes are what is
scanned (R77). -/
theorem execUnpack_of_packed {u : State} (hok : TableOk u.ct) {out : List Byte} (hcoded : AllCoded u.ct out)
    (hin : u.ilen.toNat ≤ u.params.ibufCap)
    (hpacked : inputBytes u = bytesOfBits (paddedStream (out.flatMap (codeBits u.ct))))
    (hfits : out.length ≤ u.params.obufCap) :
    execUnpack u = .next (complete (writeOutput u out (out.flatMap (codeBits u.ct)).length)) := by
  have havail : inputAvailable u = true := decide_eq_true hin
  rw [bytesOfBits_paddedStream] at hpacked
  simp only [execUnpack, havail, if_true, hpacked]
  generalize hbits : out.flatMap (codeBits u.ct) = bits
  have hpad := padCount_range bits.length
  have hheader : (BitVec.ofNat 8 (padCount bits.length)).toNat = padCount bits.length := by
    rw [BitVec.toNat_ofNat, Nat.mod_eq_of_lt (by omega)]
  have hlength := paddedCodes_length bits
  have hrest : 8 * (bytesOfBits (paddedCodes bits)).length = bits.length + padCount bits.length := by
    rw [bytesOfBits_length, hlength, padCount]
    omega
  have hpayload : 8 * (bytesOfBits (paddedCodes bits)).length - padCount bits.length = bits.length := by omega
  have hparse : (bitsOfBytes (bytesOfBits (paddedCodes bits))).take bits.length = bits := by
    rw [bitsOfBytes_bytesOfBits _ (by omega), paddedCodes, List.take_left]
  rw [unpackStream_of_parse hok (by omega) hcoded (by rw [hheader, hpayload, hparse, hbits]) hfits, hheader, hpayload]

/-- Settles O41: PACK leaves the padded stream of its input's codes, and UNPACK scans those codes back. -/
theorem unpackReturnsWhatWasPacked : Obligations.UnpackReturnsWhatWasPacked := by
  intro s t u hparams hok _ hexec hterr hct hp _ hinput hin hout
  obtain ⟨hfits, rfl⟩ := execPack_of_err_none hexec hterr
  have hcap := obufCap_le_of_wellFormed hparams
  rw [outputBytes_of_written _ (by rw [packed_length]; omega), ← hct] at hinput
  have hcoded : AllCoded u.ct (inputBytes s) := hct ▸ allCoded_of_pack hexec hterr
  have hfits' : (inputBytes s).length ≤ u.params.obufCap := by rwa [inputBytes_length, hp]
  refine ⟨_, execUnpack_of_packed (hct ▸ hok) hcoded hin hinput hfits', rfl, by simp, by simp [hct], ?_⟩
  exact outputBytes_of_written _ (by rw [inputBytes_length]; omega)

end Sys2Proof.Machine
end

section
/-! The command words, command issue, and what GENCODES makes of a tree (30_encoding.md R61 to R64,
42_code_table_generator.md R111, R112). -/

namespace Sys2Proof.Machine

/-! ### the command words (R61, R62, R64) -/

theorem lookup_cons_eq_ite {α β : Type} [DecidableEq α] (a k : α) (b : β) (l : List (α × β)) :
    ((k, b) :: l).lookup a = if a = k then some b else l.lookup a := by
  by_cases h : a = k <;> simp [List.lookup, beq_eq_false_iff_ne.mpr, h]

theorem decode_opcode_word (o : BitVec 8) :
    decode ((0 : BitVec 24) ++ o) = (opcodeMap.lookup o).elim (.error .noSuchOpcode) .ok := by
  have hrsv : rsvField ((0 : BitVec 24) ++ o) = 0 := BitVec.extractLsb'_append_eq_left
  have hopc : opcField ((0 : BitVec 24) ++ o) = o := BitVec.extractLsb'_append_eq_right
  rw [decode, hrsv, hopc, if_neg (by simp)]
  cases opcodeMap.lookup o <;> rfl

/-- Settles O1: under a zero `RSV` the decoder looks `OPC` up in the map of R62; the full words are the commands' own. -/
theorem commandWordsAreOneToSix : Obligations.CommandWordsAreOneToSix := by
  refine ⟨fun o => ?_, decode_encode .analyze, decode_encode .build, decode_encode .gencodes, decode_encode .pack,
    decode_encode .unpack, decode_encode .clrerr⟩
  rw [decode_opcode_word]
  simp only [opcodeMap, lookup_cons_eq_ite, List.lookup_nil]
  split_ifs <;> rfl

/-- Settles O2: the decoder reads a command from its own word and from no other. -/
theorem decodingInvertsEncoding : Obligations.DecodingInvertsEncoding := fun _ i =>
  ⟨eq_encode_of_decode, fun hw => hw ▸ decode_encode i⟩

theorem encode_toNat_range (i : Instr) : 1 ≤ (encode i).toNat ∧ (encode i).toNat ≤ 6 := by cases i <;> decide

theorem exists_decode_error_iff (w : Word) : (∃ e, decode w = .error e) ↔ w.toNat = 0 ∨ 6 < w.toNat := by
  refine ⟨fun ⟨_, he⟩ => toNat_of_decode_error he, fun hw => ?_⟩
  cases hd : decode w with
  | error e => exact ⟨e, rfl⟩
  | ok i =>
    have hrange := encode_toNat_range i
    rw [← eq_encode_of_decode hd] at hrange
    omega

/-- Settles O3: a word that decodes is a command's own, and those are 1 to 6. -/
theorem everyOtherWordIsIllegal : Obligations.EveryOtherWordIsIllegal := exists_decode_error_iff

/-- The illegal words by their fields (R64). -/
theorem illegal_fields_iff (w : Word) :
    (w.extractLsb' 8 24 ≠ 0 ∨ w.extractLsb' 0 8 = 0 ∨ 7 ≤ (w.extractLsb' 0 8).toNat) ↔ w.toNat = 0 ∨ 6 < w.toNat := by
  have hlt := w.isLt
  have hrsv : (w.extractLsb' 8 24).toNat = w.toNat / 256 := by
    rw [BitVec.extractLsb'_toNat, Nat.shiftRight_eq_div_pow]
    omega
  have hopc : (w.extractLsb' 0 8).toNat = w.toNat % 256 := by rw [BitVec.extractLsb'_toNat, Nat.shiftRight_zero]
  rw [← BitVec.toNat_ne_iff_ne, ← BitVec.toNat_inj, hrsv, hopc]
  simp only [BitVec.ofNat_eq_ofNat, BitVec.toNat_ofNat]
  omega

/-! ### command issue (R63, R160, R161) -/

theorem busyAnswer_commandWrite (s : State) (w : Word) : busyAnswer s (commandWrite w) = writeDone := by
  simp only [busyAnswer, locate_commandWrite]
  rfl

theorem exec_busy {i : Instr} {s t : State} (h : exec i s = .next t) : t.busy = false := by
  obtain ⟨k, -, rfl⟩ | ⟨u, -, rfl⟩ := exec_raises_or_writes h <;> rfl

theorem accept_busy (s : State) : (accept s).busy = true := by
  obtain ⟨left, more, -, he⟩ := accept_eq s
  rw [he]

theorem issue_of_decode_error {s : State} {w : Word} (hidle : s.busy = false) (herr : s.err = none)
    (hdec : ∃ e, decode w = .error e) : issue w s = .next (raise .illegalCommand none s) := by
  obtain ⟨e, hdec⟩ := hdec
  simp [issue, hidle, herr, hdec]

theorem issue_of_faulted {s : State} {w : Word} (hidle : s.busy = false) (herr : s.err ≠ none) :
    issue w s = if w = 0x00000006 then exec .clrerr s else .next s := by
  simp [issue, hidle, Option.isSome_iff_ne_none.mpr herr]

/-- Settles O5: a busy core answers and drops the write, and an idle one looks at `ERR` before it decodes the word. -/
theorem commandIssueFollowsItsOrder : Obligations.CommandIssueFollowsItsOrder := by
  intro s w acts hin
  rw [illegal_fields_iff]
  have hissue := step_command s w acts hin
  refine ⟨fun hbusy => ?_, fun hidle herr hw => ?_, fun hidle herr hw => ?_, fun hidle herr hw => ?_,
    fun hidle herr hw => ?_⟩
  · rw [step_transfer_busy s _ acts (.inl hin) hbusy, busyAccess, busyAnswer_commandWrite]
    rfl
  · rw [hissue hidle, issue_of_faulted (s := answered s acts writeDone) hidle herr, if_pos hw]
  · rw [hissue hidle, issue_of_faulted (s := answered s acts writeDone) hidle herr, if_neg hw]
  · rw [hissue hidle, issue_of_decode_error (s := answered s acts writeDone) hidle herr
      ((exists_decode_error_iff w).mpr hw), raise, complete]
    simp [invalidate, newDraw, answered, hidle]
  · obtain ⟨i, rfl⟩ := exists_eq_encode_of_toNat (w := w) (by omega) (by omega)
    have hruns := (hissue hidle).trans (issue_of_decode hidle herr (decode_encode i))
    exact ⟨i, rfl, accept_busy _, hruns, fun t ht => exec_busy (hruns.symm.trans ht)⟩

/-! ### GENCODES (R111, R112) -/

theorem execGencodes_of_treeCodes {s : State} {codes : List (Byte × Bits)} (hnnode : s.nnode ≠ 0)
    (hcodes : treeCodes s = some codes) : execGencodes s = .next (complete { s with ct := fillTable codes }) := by
  simp only [execGencodes, if_neg hnnode, hcodes]

/-- Settles O26: the walk ends on a tree, and what it records is read off the tree's paths. -/
theorem gencodesAssignsThePaths : Obligations.GencodesAssignsThePaths := by
  intro s n h
  obtain ⟨codes, hcodes⟩ := h.treeCodes_ends
  refine ⟨_, execGencodes_of_treeCodes h.nnode_ne_zero hcodes, rfl, fun h1 c f hs d => ?_,
    fun h2 c p => h.codeOf_treeCodes h2 hcodes⟩
  have hcode : ∀ p, codeOf (fillTable codes) d = some p ↔ d = c ∧ p = [false] := fun p => by
    simp [h.codeOf_treeCodes_one h1 hcodes, hs, eq_comm]
  rw [complete_ct]
  refine Option.ext fun p => (hcode p).trans ?_
  by_cases hd : d = c <;> simp [hd, eq_comm]

end Sys2Proof.Machine
end

section
/-! What ANALYZE makes of an input that fits `IBUF`: the next state by name, and the table it counts (40 R91 to R93). -/

namespace Sys2Proof.Machine

theorem execAnalyze_of_ilen_le {s : State} (h : s.ilen.toNat ≤ s.params.ibufCap) :
    execAnalyze s = .next (complete { s with ft := countBytes (inputBytes s) }) :=
  if_pos (by simpa [inputAvailable] using h)

theorem eq_complete_of_analyze {s t : State} (h : s.ilen.toNat ≤ s.params.ibufCap) (hexec : exec .analyze s = .next t) :
    t = complete { s with ft := countBytes (inputBytes s) } :=
  (Host.Outcome.next.inj ((execAnalyze_of_ilen_le h).symm.trans hexec)).symm

/-- No counter of ANALYZE's wraps, since an input is shorter than 2^32 (R93). -/
theorem countOf_countBytes_inputBytes (s : State) (c : Byte) :
    countOf (countBytes (inputBytes s)) c = (inputBytes s).count c :=
  countOf_countBytes _ (by simpa using s.ilen.isLt) c

theorem ft_ne_zero_iff_countOf_pos (ft : Vector Word 256) (c : Byte) : ft[c.toNat] ≠ 0 ↔ 0 < countOf ft c := by
  rw [countOf, Nat.pos_iff_ne_zero, ← BitVec.toNat_ne_iff_ne]
  rfl

/-- A table is its 256 counts. -/
theorem ft_eq_of_countOf_eq {ft gt : Vector Word 256} (h : ∀ c, countOf ft c = countOf gt c) : ft = gt := by
  refine Vector.ext fun k hk => BitVec.eq_of_toNat_eq ?_
  have hc : (BitVec.ofNat 8 k).toNat = k := Nat.mod_eq_of_lt hk
  simpa only [countOf, hc] using h (BitVec.ofNat 8 k)

/-- Settles O18: ANALYZE's table counts the input's bytes, which stand at the indices below `ILEN`. -/
theorem analyzeCountsTheInput : Obligations.AnalyzeCountsTheInput := by
  intro s h
  refine ⟨_, execAnalyze_of_ilen_le h, rfl, fun c => ?_⟩
  rw [complete_ft, countOf_countBytes_inputBytes, inputBytes, List.count, List.countP_map]
  rfl

/-- Settles O19: each property of the table is the same property of the input's counts. -/
theorem analyzeResultProperties : Obligations.AnalyzeResultProperties := by
  intro s t h hexec
  obtain rfl := eq_complete_of_analyze h hexec
  refine ⟨?_, fun c => ?_, fun s' t' h' hexec' hperm => ?_, rfl⟩
  · rw [complete_ft, ftSum_countBytes _ (by simpa using s.ilen.isLt), inputBytes_length]
  · rw [complete_ft, ft_ne_zero_iff_countOf_pos, countOf_countBytes_inputBytes, List.count_pos_iff]
    simp [inputBytes]
  · obtain rfl := eq_complete_of_analyze h' hexec'
    refine ft_eq_of_countOf_eq fun c => ?_
    rw [complete_ft, complete_ft, countOf_countBytes_inputBytes, countOf_countBytes_inputBytes, hperm.count_eq c]

end Sys2Proof.Machine
end

section
/-! BUILD: the empty table, the strict binary tree, the two least entries that every merge takes, and the exact sums of
frequencies (41_tree_builder.md R101 to R105). -/

namespace Sys2Proof.Machine

/-! ### the empty table (R101, R152, R157) -/

theorem nsym_ne_zero_iff (ft : Vector Word 256) : nsym ft ≠ 0 ↔ ∃ c : Byte, ft[c.toNat] ≠ 0 := by
  simp [nsym_eq_zero_iff]

/-- Settles O20: BUILD faults on the table without a present symbol, and on no other. -/
theorem buildRefusesTheEmptyTable : Obligations.BuildRefusesTheEmptyTable := by
  intro s
  refine ⟨fun h => if_pos ((nsym_eq_zero_iff s.ft).mpr h), fun h t hexec => ?_⟩
  obtain ⟨h0, -⟩ | ⟨-, rfl⟩ := execBuild_cases hexec
  · exact absurd h0 ((nsym_ne_zero_iff s.ft).mpr h)
  · rfl

/-! ### the slots BUILD writes (R101, R103) -/

theorem slot_build_leaves {s t : State} (h : nsym s.ft ≠ 0) (hexec : execBuild s = .next t) :
    (List.range (nsym s.ft)).map (slot t) = (leaves s.ft).map some := by
  refine List.ext_getElem (by simp [leaves_length]) fun k hk _ => ?_
  have hlt : k < nsym s.ft := by simpa using hk
  have hleaf : k < (leaves s.ft).length := by rwa [leaves_length]
  rw [List.getElem_map, List.getElem_range, List.getElem_map, slot_build h hexec, buildArena_getElem?_of_lt _ _ hlt,
    List.getElem?_eq_getElem hleaf]

/-- The slots out of use after BUILD hold what they held. -/
theorem build_keeps_unused {s t : State} (h : nsym s.ft ≠ 0) (hexec : execBuild s = .next t) {k : Nat}
    (hk : t.nnode.toNat ≤ k) : t.node[k]? = s.node[k]? := by
  have hle := nsym_le s.ft
  obtain ⟨hlen, -⟩ := buildArena_lengths s.params.tie s.ft h
  rw [(build_nnode_root h hexec).1] at hk
  obtain ⟨h0, -⟩ | ⟨-, rfl⟩ := execBuild_cases hexec
  · exact absurd h0 h
  · rw [complete_node, writeSlots_getElem? _ _ _ _ (by omega), if_neg (by omega)]

/-- Settles O21: BUILD answers a next state, whose slots in use are the arena the merge loop makes. -/
theorem buildMakesAStrictTree : Obligations.BuildMakesAStrictTree := by
  intro s h
  have hn := (nsym_ne_zero_iff s.ft).mpr h
  obtain ⟨t, hexec⟩ := exec_answers_next .build s (by decide)
  refine ⟨t, hexec, ?_, treeShape_build hn hexec, ?_, fun k => build_keeps_unused hn hexec⟩
  · obtain ⟨h0, -⟩ | ⟨-, rfl⟩ := execBuild_cases hexec
    · exact absurd h0 hn
    · rfl
  · rw [slot_build_leaves hn hexec, leaves_eq_map, List.map_map]
    rfl

/-! ### one merge (R101, R102) -/

/-- `tie` is a strict order: no two arena indices have one rank. -/
theorem tieRank_injective {p : Params} (h : p.tieOk = true) {j k : Nat} (hj : j < 511) (hk : k < 511)
    (he : tieRank p.tie j = tieRank p.tie k) : j = k := by
  unfold Params.tieOk at h
  cases ht : p.tie with
  | ascending => simpa [ht, tieRank] using he
  | descending =>
    simp only [ht, tieRank] at he
    omega
  | byRank ranks =>
    simp only [ht, Bool.and_eq_true, beq_iff_eq, decide_eq_true_eq] at h
    obtain ⟨hlen, hnodup⟩ := h
    rw [← hlen] at hj hk
    rw [ht, tieRank, tieRank, List.getD_eq_getElem _ _ hj, List.getD_eq_getElem _ _ hk] at he
    exact hnodup.getElem_inj_iff.mp he

/-- Of two entries at different indices one is removed before the other. -/
theorem removedBefore_of_false {p : Params} (h : p.tieOk = true) {x y : QueueEntry} (hx : x.idx < 511) (hy : y.idx < 511)
    (hne : x.idx ≠ y.idx) (hyx : removedBefore p.tie y x = false) : removedBefore p.tie x y = true := by
  have hrank : tieRank p.tie x.idx ≠ tieRank p.tie y.idx := fun he => hne (tieRank_injective h hx hy he)
  rw [← Bool.not_eq_true, removedBefore_iff] at hyx
  rw [removedBefore_iff]
  omega

theorem freq_le_of_removedBefore_false {tie : Tie} {x y : QueueEntry} (h : removedBefore tie y x = false) :
    x.freq.toNat ≤ y.freq.toNat := by
  rw [← Bool.not_eq_true, removedBefore_iff] at h
  omega

/-- `a` and then `b` are the least entries of the queue, `rest` is the queue without them. -/
structure LeastPair (tie : Tie) (q : List QueueEntry) (a b : QueueEntry) (rest : List QueueEntry) : Prop where
  perm : (a :: b :: rest).Perm q
  first : ∀ e ∈ b :: rest, removedBefore tie e a = false
  second : ∀ e ∈ rest, removedBefore tie e b = false

theorem leastPair_of_takeLeast {tie : Tie} {q q1 rest : List QueueEntry} {a b : QueueEntry}
    (ha : takeLeast tie q = some (a, q1)) (hb : takeLeast tie q1 = some (b, rest)) : LeastPair tie q a b rest where
  perm := perm_of_takeLeast_twice ha hb
  first e he := (takeLeast_spec ha).2 e ((takeLeast_spec hb).1.mem_iff.mp he)
  second := (takeLeast_spec hb).2

namespace LeastPair

variable {tie : Tie} {q rest : List QueueEntry} {a b : QueueEntry} (h : LeastPair tie q a b rest)
include h

theorem first_mem : a ∈ q := h.perm.mem_iff.mp List.mem_cons_self

theorem second_mem : b ∈ q := h.perm.mem_iff.mp (List.mem_cons_of_mem _ List.mem_cons_self)

theorem rest_mem {e : QueueEntry} (he : e ∈ rest) : e ∈ q :=
  h.perm.mem_iff.mp (List.mem_cons_of_mem _ (List.mem_cons_of_mem _ he))

theorem mem_of_ne_first {e : QueueEntry} (he : e ∈ q) (hne : e ≠ a) : e ∈ b :: rest :=
  (List.mem_cons.mp (h.perm.mem_iff.mpr he)).resolve_left hne

theorem mem_rest_of_ne {e : QueueEntry} (he : e ∈ q) (hna : e ≠ a) (hnb : e ≠ b) : e ∈ rest :=
  (List.mem_cons.mp (h.mem_of_ne_first he hna)).resolve_left hnb

theorem freq_le : a.freq.toNat ≤ b.freq.toNat := freq_le_of_removedBefore_false (h.first b List.mem_cons_self)

theorem freq_le_rest {e : QueueEntry} (he : e ∈ rest) : b.freq.toNat ≤ e.freq.toNat :=
  freq_le_of_removedBefore_false (h.second e he)

end LeastPair

/-- The queue entry of the node made of `a` and `b`. -/
def mergedEntry (arena : List TreeNode) (a b : QueueEntry) : QueueEntry :=
  { idx := arena.length, freq := a.freq + b.freq }

/-! ### what the merge loop keeps -/

/-- The shape of a merge in progress, each entry of the queue carrying the frequency of its node. -/
structure Merging (n : Nat) (arena : List TreeNode) (q : List QueueEntry) : Prop where
  shape : MergeShape n arena q
  freqs : ∀ e ∈ q, arena[e.idx]?.map nodeFreq = some e.freq

theorem mem_queueOf {arena : List TreeNode} {e : QueueEntry} (h : e ∈ queueOf arena) :
    arena[e.idx]?.map nodeFreq = some e.freq := by
  obtain ⟨⟨node, k⟩, hmem, rfl⟩ := List.mem_map.mp h
  simp [List.mem_zipIdx_iff_getElem?.mp hmem]

theorem Merging.start (ft : Vector Word 256) (h : nsym ft ≠ 0) : Merging (nsym ft) (leaves ft) (queueOf (leaves ft)) :=
  ⟨.start ft h, fun _ => mem_queueOf⟩

theorem Merging.merge {n : Nat} {tie : Tie} {arena : List TreeNode} {q rest : List QueueEntry} {a b : QueueEntry}
    (hn : n ≤ 256) (h : Merging n arena q) (hpair : LeastPair tie q a b rest) :
    Merging n (arena ++ [mergeNode a b]) (rest ++ [mergedEntry arena a b]) := by
  refine ⟨h.shape.merge hn hpair.perm, fun e he => ?_⟩
  rcases List.mem_append.mp he with he | he
  · have hq := hpair.rest_mem he
    rw [List.getElem?_append_left (h.shape.idx_lt hq)]
    exact h.freqs e hq
  · obtain rfl := List.mem_singleton.mp he
    simp [mergedEntry, mergeNode, nodeFreq]

/-- Every node from the n-th on was made of the two least entries of the queue there was when it was made. -/
def MadeByMerges (tie : Tie) (P : List TreeNode → List QueueEntry → Prop) (n : Nat) (arena : List TreeNode) : Prop :=
  ∀ before node, before ++ [node] <+: arena → n ≤ before.length →
    ∃ q a b rest, P before q ∧ LeastPair tie q a b rest ∧ node = mergeNode a b

theorem MadeByMerges.merge {tie : Tie} {P : List TreeNode → List QueueEntry → Prop} {n : Nat} {arena : List TreeNode}
    {q rest : List QueueEntry} {a b : QueueEntry} (h : MadeByMerges tie P n arena) (hP : P arena q)
    (hpair : LeastPair tie q a b rest) : MadeByMerges tie P n (arena ++ [mergeNode a b]) := by
  intro before node hprefix hn
  rcases List.prefix_concat_iff.mp hprefix with he | hprefix
  · obtain ⟨rfl, hnode⟩ := List.append_inj' he rfl
    exact ⟨q, a, b, rest, hP, hpair, List.singleton_inj.mp hnode⟩
  · exact h before node hprefix hn

/-- What every merge of the two least entries keeps holds when BUILD's loop ends, and held when each node was made. -/
theorem buildArena_induction {tie : Tie} {ft : Vector Word 256} {P : List TreeNode → List QueueEntry → Prop}
    (hmerge : ∀ arena q a b rest, P arena q → LeastPair tie q a b rest →
      P (arena ++ [mergeNode a b]) (rest ++ [mergedEntry arena a b]))
    (h : P (leaves ft) (queueOf (leaves ft))) :
    P (buildArena tie ft).1 (buildArena tie ft).2 ∧ MadeByMerges tie P (nsym ft) (buildArena tie ft).1 := by
  refine mergeLoop_induction (P := fun arena q => P arena q ∧ MadeByMerges tie P (nsym ft) arena) ?_ _ _ _ ⟨h, ?_⟩
  · rintro arena q a q1 b rest ⟨hP, hmade⟩ ha hb
    have hpair := leastPair_of_takeLeast ha hb
    exact ⟨hmerge arena q a b rest hP hpair, hmade.merge hP hpair⟩
  · intro before node hprefix hn
    have := hprefix.length_le
    rw [List.length_append, List.length_singleton, leaves_length] at this
    omega

theorem buildArena_merging (tie : Tie) (ft : Vector Word 256) (h : nsym ft ≠ 0) :
    Merging (nsym ft) (buildArena tie ft).1 (buildArena tie ft).2 ∧
      MadeByMerges tie (Merging (nsym ft)) (nsym ft) (buildArena tie ft).1 :=
  buildArena_induction (fun _ _ _ _ _ hm hpair => hm.merge (nsym_le ft) hpair) (.start ft h)

/-! ### the queue a slot was made from (R101) -/

/-- `before` is the arena and `q` the queue when the internal node in slot k was made, of the entries `a` and `b`. -/
structure MadeAt (s t : State) (k : Nat) (before : List TreeNode) (q : List QueueEntry) (a b : QueueEntry)
    (rest : List QueueEntry) : Prop where
  slots : ∀ j, j < k → slot t j = before[j]?
  size : before.length = k
  node : slot t k = some (mergeNode a b)
  pair : LeastPair s.params.tie q a b rest

theorem exists_madeAt {s t : State} {P : List TreeNode → List QueueEntry → Prop}
    (hmade : MadeByMerges s.params.tie P (nsym s.ft) (buildArena s.params.tie s.ft).1)
    (h : nsym s.ft ≠ 0) (hexec : execBuild s = .next t) {k : Nat} (hk : nsym s.ft ≤ k) (hlt : k < t.nnode.toNat) :
    ∃ before q a b rest, P before q ∧ MadeAt s t k before q a b rest := by
  have hslot := slot_build h hexec
  rw [(build_nnode_root h hexec).1, ← (buildArena_lengths s.params.tie s.ft h).1] at hlt
  generalize (buildArena s.params.tie s.ft).1 = arena at *
  have hbefore : (arena.take k).length = k := by simp; omega
  obtain ⟨q, a, b, rest, hP, hpair, hnode⟩ :=
    hmade (arena.take k) arena[k] (by rw [List.take_append_getElem]; exact List.take_prefix ..) (by omega)
  refine ⟨arena.take k, q, a, b, rest, hP, ?_, hbefore, ?_, hpair⟩
  · intro j hj
    rw [hslot, List.getElem?_take_of_lt hj]
  · rw [hslot, List.getElem?_eq_getElem hlt, hnode]

theorem MadeAt.childrenBelow_eq {s t : State} {k : Nat} {before : List TreeNode} {q rest : List QueueEntry}
    {a b : QueueEntry} (h : MadeAt s t k before q a b rest) : childrenBelow t k = before.flatMap nodeChildren := by
  rw [childrenBelow_eq_flatMap, ← flatMap_range_getElem? before, h.size]
  refine List.flatMap_congr fun j hj => ?_
  rw [h.slots j (List.mem_range.mp hj)]

/-- The slots waiting when slot k was made are those of the queue's entries. -/
theorem MadeAt.waiting_iff {s t : State} {n k : Nat} {before : List TreeNode} {q rest : List QueueEntry}
    {a b : QueueEntry} (h : MadeAt s t k before q a b rest) (hm : Merging n before q) {j : Nat} :
    Waiting t k j ↔ ∃ e ∈ q, e.idx = j := by
  have hnodup : (before.flatMap nodeChildren ++ q.map QueueEntry.idx).Nodup :=
    hm.shape.owned.nodup_iff.mpr List.nodup_range
  have hmem : j < k ↔ j ∈ before.flatMap nodeChildren ∨ j ∈ q.map QueueEntry.idx := by
    rw [← List.mem_append, hm.shape.owned.mem_iff, List.mem_range, h.size]
  have hdisjoint := (List.disjoint_of_nodup_append hnodup) (a := j)
  rw [← List.mem_map, Waiting, h.childrenBelow_eq]
  tauto

/-- An entry of the queue is its slot's. -/
theorem MadeAt.entryOf_eq {s t : State} {n k : Nat} {before : List TreeNode} {q rest : List QueueEntry}
    {a b : QueueEntry} (h : MadeAt s t k before q a b rest) (hm : Merging n before q) {e : QueueEntry} (he : e ∈ q) :
    entryOf t e.idx = e := by
  have hslot := h.slots e.idx (h.size ▸ hm.shape.idx_lt he)
  obtain ⟨node, hnode, hfreq⟩ := Option.map_eq_some_iff.mp (hm.freqs e he)
  simp [entryOf, slotFreq, hslot, hnode, hfreq]

/-- The node made of `a` and `b`, field by field; the children's indices fit 9 bits. -/
theorem MadeAt.fields {s t : State} {n k : Nat} {before : List TreeNode} {q rest : List QueueEntry} {a b : QueueEntry}
    {f : Word} {l r : BitVec 9} (h : MadeAt s t k before q a b rest) (hm : Merging n before q)
    (hs : slot t k = some (.internal f l r)) : f = a.freq + b.freq ∧ l.toNat = a.idx ∧ r.toNat = b.idx := by
  have hk : k < 511 := by
    have := (slot_some hs).1
    omega
  have ha := hm.shape.idx_lt h.pair.first_mem
  have hb := hm.shape.idx_lt h.pair.second_mem
  have hsize := h.size
  obtain ⟨rfl, rfl, rfl⟩ := TreeNode.internal.inj (Option.some.inj (hs.symm.trans h.node))
  exact ⟨rfl, by rw [BitVec.toNat_ofNat, Nat.mod_eq_of_lt (by omega)],
    by rw [BitVec.toNat_ofNat, Nat.mod_eq_of_lt (by omega)]⟩

/-- The two entries taken and those left stand at different slots. -/
theorem MergeShape.pair_nodup {n : Nat} {tie : Tie} {arena : List TreeNode} {q rest : List QueueEntry} {a b : QueueEntry}
    (h : MergeShape n arena q) (hpair : LeastPair tie q a b rest) :
    ((a :: b :: rest).map QueueEntry.idx).Nodup :=
  (hpair.perm.map _).nodup_iff.mpr
    (List.nodup_append'.mp (h.owned.nodup_iff.mpr List.nodup_range)).2.1

/-- Settles O22: when a slot is made the queue holds the entries of the waiting slots, and the loop takes the two least of
them; as `tie` is a strict order, no other entry is equally least. -/
theorem buildMergesTheTwoLeast : Obligations.BuildMergesTheTwoLeast := by
  intro s t k f l r htie hpresent hexec hs
  have hn := (nsym_ne_zero_iff s.ft).mpr hpresent
  have hle := nsym_le s.ft
  obtain ⟨hk, hlt, -⟩ := (treeShape_build hn hexec).edge_range (b := false) ⟨f, l, r, hs, rfl⟩
  obtain ⟨before, q, a, b, rest, hm, hmade⟩ :=
    exists_madeAt (buildArena_merging s.params.tie s.ft hn).2 hn hexec hk (slot_some hs).1
  obtain ⟨rfl, hl, hr⟩ := hmade.fields hm hs
  have hpair := hmade.pair
  have hbound : ∀ e ∈ q, e.idx < 511 := fun e he => by
    have := hm.shape.idx_lt he
    rw [hmade.size] at this
    omega
  have hnodup := hm.shape.pair_nodup hpair
  simp only [List.map_cons, List.nodup_cons, List.mem_cons, not_or] at hnodup
  obtain ⟨⟨hab, -⟩, -, -⟩ := hnodup
  have hqa := hmade.entryOf_eq hm hpair.first_mem
  have hqb := hmade.entryOf_eq hm hpair.second_mem
  rw [hl, hr, hqa, hqb]
  refine ⟨(hmade.waiting_iff hm).mpr ⟨a, hpair.first_mem, rfl⟩, (hmade.waiting_iff hm).mpr ⟨b, hpair.second_mem, rfl⟩,
    fun he => hab (by rw [← hl, he, hr]), ?_, fun j hj hja => ?_, fun j hj hja hjb => ?_⟩
  · rw [← congrArg QueueEntry.freq hqa, ← congrArg QueueEntry.freq hqb]
    rfl
  · obtain ⟨e, he, rfl⟩ := (hmade.waiting_iff hm).mp hj
    rw [hmade.entryOf_eq hm he]
    exact removedBefore_of_false htie (hbound a hpair.first_mem) (hbound e he) (Ne.symm hja)
      (hpair.first e (hpair.mem_of_ne_first he (ne_of_apply_ne _ hja)))
  · obtain ⟨e, he, rfl⟩ := (hmade.waiting_iff hm).mp hj
    rw [hmade.entryOf_eq hm he]
    exact removedBefore_of_false htie (hbound b hpair.second_mem) (hbound e he) (Ne.symm hjb)
      (hpair.second e (hpair.mem_rest_of_ne he (ne_of_apply_ne _ hja) (ne_of_apply_ne _ hjb)))

end Sys2Proof.Machine
end

section
/-! The frequencies BUILD adds, and what they say of the codes: exact sums, internal frequencies that never fall, and no longer
code for a higher count (41_tree_builder.md R103 to R105). -/

namespace Sys2Proof.Machine

/-! ### the weight of the queue (R105) -/

/-- The frequencies of the queue's entries as numbers. -/
def weights (q : List QueueEntry) : List Nat := q.map fun e => e.freq.toNat

theorem LeastPair.sum_weights {tie : Tie} {q rest : List QueueEntry} {a b : QueueEntry} (h : LeastPair tie q a b rest) :
    a.freq.toNat + b.freq.toNat + (weights rest).sum = (weights q).sum := by
  have hperm := (h.perm.map fun e : QueueEntry => e.freq.toNat).sum_eq
  rw [weights, weights, ← hperm, List.map_cons, List.map_cons, List.sum_cons, List.sum_cons, Nat.add_assoc]

/-- Absent symbols add nothing to a sum over the symbols by count. -/
theorem sum_present_symbols (ft : Vector Word 256) (w : Byte → Nat) :
    ((symbols.filter fun c => ft[c.toNat] ≠ 0).map fun c => countOf ft c * w c).sum =
      (symbols.map fun c => countOf ft c * w c).sum := by
  generalize symbols = l
  induction l with
  | nil => rfl
  | cons c l ih =>
    rw [List.filter_cons, List.map_cons, List.sum_cons]
    by_cases h : ft[c.toNat] = 0
    · have h0 : countOf ft c = 0 := congrArg BitVec.toNat h
      rw [if_neg (by simpa using h), ih, h0, Nat.zero_mul, Nat.zero_add]
    · rw [if_pos (by simpa using h), List.map_cons, List.sum_cons, ih]

theorem weights_queueOf (arena : List TreeNode) : weights (queueOf arena) = arena.map fun node => (nodeFreq node).toNat := by
  rw [weights, queueOf, List.map_map]
  conv_rhs => rw [← List.zipIdx_map_fst 0 arena, List.map_map]
  rfl

/-- At the start the queue weighs what the table counts. -/
theorem sum_weights_start (ft : Vector Word 256) : (weights (queueOf (leaves ft))).sum = ftSum ft := by
  have h := sum_present_symbols ft fun _ => 1
  simp only [Nat.mul_one] at h
  rw [weights_queueOf, leaves_eq_map, List.map_map, ftSum, ← h]
  rfl

/-! ### exact merging (R103, R105) -/

/-- A merge in progress in which no sum has wrapped: the queue weighs what the table counts, and no node made so far weighs more
than twice any waiting entry. -/
structure ExactMerging (ft : Vector Word 256) (arena : List TreeNode) (q : List QueueEntry) : Prop
    extends Merging (nsym ft) arena q where
  total : (weights q).sum = ftSum ft
  doubled : ∀ f l r, TreeNode.internal f l r ∈ arena → ∀ e ∈ q, f.toNat ≤ 2 * e.freq.toNat

theorem ExactMerging.start (ft : Vector Word 256) (h : nsym ft ≠ 0) : ExactMerging ft (leaves ft) (queueOf (leaves ft)) where
  toMerging := .start ft h
  total := sum_weights_start ft
  doubled f l r hmem := by
    obtain ⟨c, hc⟩ := eq_leaf_of_mem_leaves hmem
    cases hc

section
variable {ft : Vector Word 256} {tie : Tie} {arena : List TreeNode} {q rest : List QueueEntry} {a b : QueueEntry}

/-- The sum of two entries does not wrap (R105). -/
theorem ExactMerging.add_exact (hsum : ftSum ft ≤ 2 ^ 24) (h : ExactMerging ft arena q)
    (hpair : LeastPair tie q a b rest) : (a.freq + b.freq).toNat = a.freq.toNat + b.freq.toNat := by
  have hq := hpair.sum_weights
  rw [h.total] at hq
  rw [BitVec.toNat_add, Nat.mod_eq_of_lt (by omega)]

theorem ExactMerging.merge (hsum : ftSum ft ≤ 2 ^ 24) (h : ExactMerging ft arena q) (hpair : LeastPair tie q a b rest) :
    ExactMerging ft (arena ++ [mergeNode a b]) (rest ++ [mergedEntry arena a b]) := by
  have hadd := h.add_exact hsum hpair
  refine ⟨h.toMerging.merge (nsym_le ft) hpair, ?_, fun f l r hnode e he => ?_⟩
  · have hq := hpair.sum_weights
    rw [h.total] at hq
    simp only [weights, mergedEntry, List.map_append, List.sum_append, List.map_cons, List.map_nil, List.sum_singleton,
      hadd] at hq ⊢
    omega
  · have hle := hpair.freq_le
    rcases List.mem_append.mp hnode with hnode | hnode <;> rcases List.mem_append.mp he with he | he
    · exact h.doubled f l r hnode e (hpair.rest_mem he)
    · have hold := h.doubled f l r hnode a hpair.first_mem
      obtain rfl := List.mem_singleton.mp he
      rw [mergedEntry, hadd]
      omega
    · have hrest := hpair.freq_le_rest he
      obtain ⟨rfl, -, -⟩ := TreeNode.internal.inj (List.mem_singleton.mp hnode)
      omega
    · obtain rfl := List.mem_singleton.mp he
      obtain ⟨rfl, -, -⟩ := TreeNode.internal.inj (List.mem_singleton.mp hnode)
      rw [mergedEntry, hadd]
      omega

end

theorem buildArena_exactMerging (tie : Tie) {ft : Vector Word 256} (hsum : ftSum ft ≤ 2 ^ 24) (h : nsym ft ≠ 0) :
    ExactMerging ft (buildArena tie ft).1 (buildArena tie ft).2 ∧
      MadeByMerges tie (ExactMerging ft) (nsym ft) (buildArena tie ft).1 :=
  buildArena_induction (fun _ _ _ _ _ hm hpair => hm.merge hsum hpair) (.start ft h)

/-! ### the frequencies of BUILD's slots (R103, R105) -/

theorem slotFreq_of_slot {s : State} {k : Nat} {node : TreeNode} (h : slot s k = some node) : slotFreq s k = nodeFreq node := by
  simp [slotFreq, h]

section
variable {s t : State} (hsum : ftSum s.ft ≤ 2 ^ 24) (h : nsym s.ft ≠ 0) (hexec : execBuild s = .next t)
include hsum h hexec

/-- An internal node weighs what its children weigh, and no internal node made before it weighs more than twice either of
them. -/
theorem build_internal_freq {k : Nat} {f : Word} {l r : BitVec 9} (hs : slot t k = some (.internal f l r)) :
    f.toNat = (slotFreq t l.toNat).toNat + (slotFreq t r.toNat).toNat ∧
    ∀ j, nsym s.ft ≤ j → j < k →
      (slotFreq t j).toNat ≤ 2 * (slotFreq t l.toNat).toNat ∧ (slotFreq t j).toNat ≤ 2 * (slotFreq t r.toNat).toNat := by
  have htree := treeShape_build h hexec
  obtain ⟨hk, hlt, -⟩ := htree.edge_range (b := false) ⟨f, l, r, hs, rfl⟩
  obtain ⟨before, q, a, b, rest, hm, hmade⟩ :=
    exists_madeAt (buildArena_exactMerging s.params.tie hsum h).2 h hexec hk (slot_some hs).1
  obtain ⟨rfl, hl, hr⟩ := hmade.fields hm.toMerging hs
  have hqa := congrArg QueueEntry.freq (hmade.entryOf_eq hm.toMerging hmade.pair.first_mem)
  have hqb := congrArg QueueEntry.freq (hmade.entryOf_eq hm.toMerging hmade.pair.second_mem)
  simp only [entryOf, ← hl, ← hr] at hqa hqb
  rw [hqa, hqb]
  refine ⟨hm.add_exact hsum hmade.pair, fun j hj hjk => ?_⟩
  obtain ⟨g, l', r', hs', -⟩ := htree.internal j hj (by omega)
  have hmem : .internal g l' r' ∈ before := List.mem_of_getElem? ((hmade.slots j hjk).symm.trans hs')
  rw [slotFreq_of_slot hs']
  exact ⟨hm.doubled _ _ _ hmem a hmade.pair.first_mem, hm.doubled _ _ _ hmem b hmade.pair.second_mem⟩

theorem build_root_freq : (slotFreq t t.root.toNat).toNat = ftSum s.ft := by
  obtain ⟨e, hq, he⟩ := buildArena_queue s.params.tie s.ft h
  have hm := (buildArena_exactMerging s.params.tie hsum h).1
  have htotal := hm.total
  have hfreq := hm.freqs e (by simp [hq])
  rw [hq] at htotal
  obtain ⟨node, hnode, hfreq⟩ := Option.map_eq_some_iff.mp hfreq
  rw [(build_nnode_root h hexec).2, ← he, slotFreq_of_slot ((slot_build h hexec _).trans hnode), hfreq, ← htotal]
  simp [weights]

/-- The frequencies of the internal nodes never fall (R103). -/
theorem build_freq_mono {j k : Nat} (hj : nsym s.ft ≤ j) (hjk : j ≤ k) (hk : k < t.nnode.toNat) :
    (slotFreq t j).toNat ≤ (slotFreq t k).toNat := by
  rcases Nat.eq_or_lt_of_le hjk with rfl | hlt
  · exact Nat.le_refl _
  · have htree := treeShape_build h hexec
    obtain ⟨f, l, r, hs, -⟩ := htree.internal k (by omega) (htree.nnode ▸ hk)
    obtain ⟨hadd, hdoubled⟩ := build_internal_freq hsum h hexec hs
    have := hdoubled j hj hlt
    rw [slotFreq_of_slot hs, nodeFreq]
    omega

end

/-- Settles O23: no sum wraps, the last entry of the queue weighs what the table counts, and two entries together weigh at least
what each node made before them does. -/
theorem buildAddsFrequenciesExactly : Obligations.BuildAddsFrequenciesExactly := by
  intro s t hsum hpresent hexec
  have hn := (nsym_ne_zero_iff s.ft).mpr hpresent
  exact ⟨fun k f l r hs => (build_internal_freq hsum hn hexec hs).1, build_root_freq hsum hn hexec,
    fun j k => build_freq_mono hsum hn hexec⟩

end Sys2Proof.Machine
end

section
/-! A higher count never gets a longer code (41_tree_builder.md R104): of two slots the heavier one has the heavier parent, so it
is no deeper. -/

namespace Sys2Proof.Machine

/-! ### the two children of a slot weigh least (R101) -/

/-- A slot whose parent is made later waits when slot k is made. -/
theorem TreeShape.waiting_of_edge {t : State} {n : Nat} (h : TreeShape t n) {j k m : Nat} {b : Bool} (he : Edge t m b j)
    (hkm : k < m) (hjk : j < k) : Waiting t k j := by
  refine ⟨hjk, fun hmem => ?_⟩
  rw [childrenBelow_eq_flatMap, List.mem_flatMap] at hmem
  obtain ⟨i, hi, hchild⟩ := hmem
  obtain ⟨c, he'⟩ := edge_of_mem_children hchild
  have hik := List.mem_range.mp hi
  obtain ⟨rfl, -⟩ := h.parent_unique he he'
  omega

/-- A child of slot k weighs no more than what else was waiting when k was made. -/
theorem build_child_freq_le_waiting {s t : State} (h : nsym s.ft ≠ 0) (hexec : execBuild s = .next t) {i j k : Nat}
    {a : Bool} (hi : Edge t k a i) (hj : Waiting t k j) (hne : ∀ b, ¬ Edge t k b j) :
    (slotFreq t i).toNat ≤ (slotFreq t j).toNat := by
  obtain ⟨hk, -, -⟩ := (treeShape_build h hexec).edge_range hi
  obtain ⟨f, l, r, hs, rfl⟩ := hi
  obtain ⟨before, q, x, y, rest, hm, hmade⟩ :=
    exists_madeAt (buildArena_merging s.params.tie s.ft h).2 h hexec hk (slot_some hs).1
  obtain ⟨-, hl, hr⟩ := hmade.fields hm hs
  obtain ⟨e, he, rfl⟩ := (hmade.waiting_iff hm).mp hj
  have hex : e ≠ x := fun hex => hne false ⟨f, l, r, hs, by rw [hex]; exact hl.symm⟩
  have hey : e ≠ y := fun hey => hne true ⟨f, l, r, hs, by rw [hey]; exact hr.symm⟩
  have hfreq : ∀ e ∈ q, slotFreq t e.idx = e.freq := fun e he => congrArg QueueEntry.freq (hmade.entryOf_eq hm he)
  have hxy := hmade.pair.freq_le
  have hye := hmade.pair.freq_le_rest (hmade.pair.mem_rest_of_ne he hex hey)
  rw [hfreq e he]
  cases a with
  | false => exact (congrArg BitVec.toNat (hl ▸ hfreq x hmade.pair.first_mem)).trans_le (hxy.trans hye)
  | true => exact (congrArg BitVec.toNat (hr ▸ hfreq y hmade.pair.second_mem)).trans_le hye

section
variable {s t : State} (hsum : ftSum s.ft ≤ 2 ^ 24) (h : nsym s.ft ≠ 0) (hexec : execBuild s = .next t)
include hsum h hexec

/-- A slot weighs what a child and that child's sibling weigh. -/
theorem build_edge_freq {i k : Nat} {b : Bool} (hi : Edge t k b i) :
    ∃ j, Edge t k (!b) j ∧ (slotFreq t k).toNat = (slotFreq t i).toNat + (slotFreq t j).toNat := by
  obtain ⟨f, l, r, hs, rfl⟩ := hi
  have hadd := (build_internal_freq hsum h hexec hs).1
  rw [slotFreq_of_slot hs, nodeFreq, hadd]
  cases b with
  | false => exact ⟨r.toNat, ⟨f, l, r, hs, rfl⟩, rfl⟩
  | true => exact ⟨l.toNat, ⟨f, l, r, hs, rfl⟩, Nat.add_comm _ _⟩

/-- The children of a slot weigh no more than any child of a slot made later. -/
theorem build_edge_freq_le {i j k m : Nat} {a b : Bool} (hi : Edge t k a i) (hj : Edge t m b j) (hkm : k < m) :
    (slotFreq t i).toNat ≤ (slotFreq t j).toNat := by
  have htree := treeShape_build h hexec
  by_cases hjk : j < k
  · refine build_child_freq_le_waiting h hexec hi (htree.waiting_of_edge hj hkm hjk) fun c hc => ?_
    exact absurd (htree.parent_unique hc hj).1 (by omega)
  · obtain ⟨-, hm, hjm⟩ := htree.edge_range hj
    have hmono := build_freq_mono hsum h hexec (htree.edge_range hi).1 (Nat.le_of_not_lt hjk) (by rw [htree.nnode]; omega)
    obtain ⟨_, -, hadd⟩ := build_edge_freq hsum h hexec hi
    omega

/-- The parent of a heavier slot is heavier, where it is another one: the lighter slot and its sibling were merged before. -/
theorem build_parent_freq_lt {i j k m : Nat} {a b : Bool} (hi : Edge t k a i) (hj : Edge t m b j)
    (hlt : (slotFreq t i).toNat < (slotFreq t j).toNat) (hkm : k ≠ m) : (slotFreq t k).toNat < (slotFreq t m).toNat := by
  rcases Nat.lt_or_gt_of_ne hkm with hkm | hmk
  · obtain ⟨i', hi', hk⟩ := build_edge_freq hsum h hexec hi
    obtain ⟨j', hj', hm⟩ := build_edge_freq hsum h hexec hj
    have hsibling := build_edge_freq_le hsum h hexec hi' hj' hkm
    omega
  · have hle := build_edge_freq_le hsum h hexec hj hi hmk
    omega

/-! ### depth (R104) -/

theorem build_path_freq_le {k j : Nat} {p : Bits} (hp : Path t k p j) : (slotFreq t j).toNat ≤ (slotFreq t k).toNat := by
  induction p generalizing k with
  | nil => rw [path_nil_iff.mp hp]
  | cons b p ih =>
    obtain ⟨m, he, hm⟩ := path_cons_iff.mp hp
    obtain ⟨_, -, hadd⟩ := build_edge_freq hsum h hexec he
    have hle := ih hm
    omega

/-- A heavier slot is no deeper: going up from both, the heavier one's parent is heavier too, until they meet or the heavier one
is the root. -/
theorem build_path_length_le {i j : Nat} {p q : Bits} (hi : Path t t.root.toNat p i) (hj : Path t t.root.toNat q j)
    (hlt : (slotFreq t j).toNat < (slotFreq t i).toNat) : p.length ≤ q.length := by
  have htree := treeShape_build h hexec
  induction q using List.reverseRecOn generalizing i j p with
  | nil =>
    obtain rfl := path_nil_iff.mp hj
    exact absurd (build_path_freq_le hsum h hexec hi) (by omega)
  | append_singleton q b ih =>
    obtain ⟨m, hm, hjm⟩ := path_snoc_iff.mp hj
    rcases List.eq_nil_or_concat p with rfl | ⟨p, a, rfl⟩
    · exact Nat.zero_le _
    · rw [List.concat_eq_append] at hi ⊢
      obtain ⟨k, hk, hik⟩ := path_snoc_iff.mp hi
      have hle : p.length ≤ q.length := by
        by_cases hmk : m = k
        · subst hmk
          rw [htree.root_path_unique hk hm]
        · exact ih hk hm (build_parent_freq_lt hsum h hexec hjm hik hlt hmk)
      simpa using hle

end

/-! ### the codes BUILD and GENCODES make -/

/-- Every present symbol stands on a leaf with its count (R103). -/
theorem build_exists_leaf {s t : State} (hexec : execBuild s = .next t) {c : Byte} (hc : 0 < countOf s.ft c) :
    ∃ k, slot t k = some (.leaf c s.ft[c.toNat]) := by
  have hft := (ft_ne_zero_iff_countOf_pos s.ft c).mpr hc
  have h := (nsym_ne_zero_iff s.ft).mpr ⟨c, hft⟩
  have hmem : some (.leaf c s.ft[c.toNat]) ∈ (List.range (nsym s.ft)).map (slot t) := by
    rw [slot_build_leaves h hexec, leaves_eq_map]
    simpa using hft
  obtain ⟨k, -, hk⟩ := List.mem_map.mp hmem
  exact ⟨k, hk⟩

/-- What GENCODES leaves after a BUILD that found a symbol. -/
theorem gencodes_of_build {s t u : State} (h : nsym s.ft ≠ 0) (hexec : execBuild s = .next t)
    (hcodes : execGencodes t = .next u) : ∃ codes, treeCodes t = some codes ∧ u = complete { t with ct := fillTable codes } := by
  obtain ⟨h0, -⟩ | ⟨-, hc⟩ := execGencodes_cases hcodes
  · exact absurd h0 (treeShape_build h hexec).nnode_ne_zero
  · exact hc

/-- With two or more present symbols the code of each is the path to its leaf. -/
theorem build_path_codeBits {s t u : State} (h2 : 2 ≤ nsym s.ft) (hexec : execBuild s = .next t)
    (hcodes : execGencodes t = .next u) {c : Byte} {k : Nat} {f : Word} (hs : slot t k = some (.leaf c f)) :
    Path t t.root.toNat (codeBits u.ct c) k := by
  have htree := treeShape_build (s := s) (by omega) hexec
  obtain ⟨codes, hc, rfl⟩ := gencodes_of_build (by omega) hexec hcodes
  obtain ⟨p, hp⟩ := htree.root_reaches (htree.nnode ▸ (slot_some hs).1)
  rwa [complete_ct, codeBits_of_codeOf ((htree.codeOf_treeCodes h2 hc).mpr ⟨k, f, hs, hp⟩)]

/-- Two symbols present make at least two leaves. -/
theorem two_le_nsym {ft : Vector Word 256} {c d : Byte} (hc : 0 < countOf ft c) (hd : 0 < countOf ft d) (hne : c ≠ d) :
    2 ≤ nsym ft := by
  have hsub : [c, d].Subperm (symbols.filter fun c => ft[c.toNat] != 0) := by
    refine List.subperm_of_subset (by simpa using hne) fun x hx => ?_
    simp only [List.mem_cons, List.not_mem_nil, or_false] at hx
    rcases hx with rfl | rfl
    · simpa using (ft_ne_zero_iff_countOf_pos ft x).mpr hc
    · simpa using (ft_ne_zero_iff_countOf_pos ft x).mpr hd
  simpa [nsym, List.countP_eq_length_filter] using hsub.length_le

/-- Settles O24: the codes are the paths to the symbols' leaves, and the heavier leaf is no deeper. -/
theorem higherCountNeverGetsALongerCode : Obligations.HigherCountNeverGetsALongerCode := by
  intro s t u c d hsum hexec hcodes hd hlt
  have hc : 0 < countOf s.ft c := by omega
  have h2 : 2 ≤ nsym s.ft := two_le_nsym hc hd (ne_of_apply_ne (countOf s.ft) (by omega))
  obtain ⟨i, hi⟩ := build_exists_leaf hexec hc
  obtain ⟨j, hj⟩ := build_exists_leaf hexec hd
  refine build_path_length_le hsum (by omega) hexec (build_path_codeBits h2 hexec hcodes hi)
    (build_path_codeBits h2 hexec hcodes hj) ?_
  rw [slotFreq_of_slot hi, slotFreq_of_slot hj]
  exact hlt

end Sys2Proof.Machine
end

section
/-! COMPRESS adds at most two bytes (43_bit_packer.md R125). Going back through the merge loop, the counts times the depths come
to no more than in any tree of at most two depths k and k + 1 over the same leaves; for 256 leaves or fewer, the tree of depth 8
is one. -/

namespace Sys2Proof.Machine

/-! ### leaves at two depths (R104)

`S` holds the weights of the leaves at depth k + 1 and `T` those at depth k of some tree, which has room for all of them where
`S.card + 2 * T.card ≤ 2 ^ (k + 1)`. It costs `k` times the whole weight, and the weight of `S` once more. -/

/-- The least weight may as well stand among the deep leaves. -/
theorem exists_split_of_least {a : Nat} {r S T : Multiset Nat} (h : a ::ₘ r = S + T) (hle : ∀ x ∈ r, a ≤ x)
    (hS : 1 ≤ S.card) : ∃ S' T', r = S' + T' ∧ S'.card + 1 = S.card ∧ T'.card = T.card ∧ a + S'.sum ≤ S.sum := by
  have hmem : a ∈ S + T := h ▸ Multiset.mem_cons_self a r
  rcases Multiset.mem_add.mp hmem with ha | ha
  · obtain ⟨S', rfl⟩ := Multiset.exists_cons_of_mem ha
    rw [Multiset.cons_add, Multiset.cons_inj_right] at h
    exact ⟨S', T, h, by simp, rfl, by simp⟩
  · obtain ⟨x, hx⟩ := Multiset.card_pos_iff_exists_mem.mp hS
    obtain ⟨S', rfl⟩ := Multiset.exists_cons_of_mem hx
    obtain ⟨T', rfl⟩ := Multiset.exists_cons_of_mem ha
    rw [Multiset.add_cons, Multiset.cons_inj_right] at h
    have hax : a ≤ x := hle x (h ▸ Multiset.mem_add.mpr (.inl (Multiset.mem_cons_self ..)))
    exact ⟨S', x ::ₘ T', by rw [h, Multiset.cons_add, Multiset.add_cons], by simp, by simp, by simpa using hax⟩

/-- The two least weights may as well both stand among the deep leaves. -/
theorem exists_split_of_two_least {a b : Nat} {r S T : Multiset Nat} (h : a ::ₘ b ::ₘ r = S + T) (hab : a ≤ b)
    (hle : ∀ x ∈ r, b ≤ x) (hS : 2 ≤ S.card) :
    ∃ S' T', r = S' + T' ∧ S'.card + 2 = S.card ∧ T'.card = T.card ∧ a + b + S'.sum ≤ S.sum := by
  have hleast : ∀ x ∈ b ::ₘ r, a ≤ x := fun x hx => by
    rcases Multiset.mem_cons.mp hx with rfl | hx
    · exact hab
    · exact hab.trans (hle x hx)
  obtain ⟨S₁, T₁, h₁, hS₁, hT₁, hsum₁⟩ := exists_split_of_least h hleast (by omega)
  obtain ⟨S₂, T₂, h₂, hS₂, hT₂, hsum₂⟩ := exists_split_of_least h₁ hle (by omega)
  exact ⟨S₂, T₂, h₂, by omega, by omega, by omega⟩

/-- Where there are two leaves, two of them may as well be deep: a lone deep leaf may go up, and where all leaves are at one
depth, that is the deeper one of k - 1 and k. -/
theorem exists_two_deep {k : Nat} {S T : Multiset Nat} (htwo : 2 ≤ S.card + T.card) (hfit : S.card + 2 * T.card ≤ 2 ^ (k + 1)) :
    ∃ k' S' T', S' + T' = S + T ∧ 2 ≤ S'.card ∧ S'.card + 2 * T'.card ≤ 2 ^ (k' + 1) ∧
      k' * (S.sum + T.sum) + S'.sum ≤ k * (S.sum + T.sum) + S.sum := by
  by_cases hS : 2 ≤ S.card
  · exact ⟨k, S, T, rfl, hS, hfit, Nat.le_refl _⟩
  · cases k with
    | zero => omega
    | succ k =>
      refine ⟨k, S + T, 0, add_zero _, by simpa using htwo, ?_, ?_⟩
      · rw [Nat.pow_succ] at hfit
        simp only [Multiset.card_add, Multiset.card_zero]
        omega
      · rw [Multiset.sum_add, Nat.succ_mul]
        omega

/-! ### one round of the merge loop (R101) -/

theorem mergeLoop_of_length_le_one (tie : Tie) (fuel : Nat) (arena : List TreeNode) {q : List QueueEntry} (h : q.length ≤ 1) :
    mergeLoop tie fuel arena q = (arena, q) := by
  match fuel, q, h with
  | 0, _, _ => rfl
  | _ + 1, [], _ => rfl
  | _ + 1, [_], _ => rfl

theorem mergeLoop_succ_of_two_le (tie : Tie) (fuel : Nat) (arena : List TreeNode) {q : List QueueEntry} (h : 2 ≤ q.length) :
    ∃ a b rest, LeastPair tie q a b rest ∧
      mergeLoop tie (fuel + 1) arena q = mergeLoop tie fuel (arena ++ [mergeNode a b]) (rest ++ [mergedEntry arena a b]) := by
  cases ha : takeLeast tie q with
  | none => simp [takeLeast_eq_none.mp ha] at h
  | some x =>
    obtain ⟨a, q1⟩ := x
    have hlen := takeLeast_length ha
    cases hb : takeLeast tie q1 with
    | none =>
      have hnil : q1.length = 0 := by rw [takeLeast_eq_none.mp hb, List.length_nil]
      omega
    | some y =>
      obtain ⟨b, rest⟩ := y
      exact ⟨a, b, rest, leastPair_of_takeLeast ha hb, by simp only [mergeLoop, ha, hb, mergedEntry]⟩

/-! ### the cost of the queue's entries (R104) -/

/-- The queue's frequencies, each times the depth `D` of its slot. -/
def depthSum (D : Nat → Nat) (q : List QueueEntry) : Nat := (q.map fun e => e.freq.toNat * D e.idx).sum

theorem depthSum_eq_zero {D : Nat → Nat} {q : List QueueEntry} (h : ∀ e ∈ q, D e.idx = 0) : depthSum D q = 0 := by
  refine List.sum_eq_zero fun x hx => ?_
  obtain ⟨e, he, rfl⟩ := List.mem_map.mp hx
  rw [h e he, Nat.mul_zero]

/-- `D` is one more at the children of an internal node than at the node. -/
def Depths (D : Nat → Nat) (arena : List TreeNode) : Prop :=
  ∀ k f l r, arena[k]? = some (.internal f l r) → D l.toNat = D k + 1 ∧ D r.toNat = D k + 1

/-- A merge takes its node's weight once from the cost. -/
theorem depthSum_merge {ft : Vector Word 256} {tie : Tie} {arena final : List TreeNode} {q rest : List QueueEntry}
    {a b : QueueEntry} {D : Nat → Nat} (hsum : ftSum ft ≤ 2 ^ 24) (hm : ExactMerging ft arena q)
    (hpair : LeastPair tie q a b rest) (hprefix : arena ++ [mergeNode a b] <+: final) (hD : Depths D final) :
    depthSum D q = a.freq.toNat + b.freq.toNat + depthSum D (rest ++ [mergedEntry arena a b]) := by
  have hsize := hm.shape.size
  have hlen := hpair.perm.length_eq
  have hn := nsym_le ft
  have ha := hm.shape.idx_lt hpair.first_mem
  have hb := hm.shape.idx_lt hpair.second_mem
  simp only [List.length_cons] at hlen
  have hnode : final[arena.length]? = some (mergeNode a b) := by
    obtain ⟨more, rfl⟩ := hprefix
    rw [List.getElem?_append_left (by simp), List.getElem?_concat_length]
  obtain ⟨hDa, hDb⟩ := hD _ _ _ _ hnode
  rw [BitVec.toNat_ofNat, Nat.mod_eq_of_lt (by omega)] at hDa hDb
  have hq : depthSum D q = a.freq.toNat * D a.idx + (b.freq.toNat * D b.idx + depthSum D rest) := by
    rw [depthSum, ← (hpair.perm.map _).sum_eq]
    rfl
  have hnew : depthSum D (rest ++ [mergedEntry arena a b]) =
      depthSum D rest + (a.freq.toNat + b.freq.toNat) * D arena.length := by
    simp [depthSum, mergedEntry, hm.add_exact hsum hpair]
  rw [hq, hnew, hDa, hDb]
  ring

/-- The least merges cost no more than leaves at two depths: the two least weights may be taken to stand deep, and their parent
is then a leaf at the upper depth for the rest of the loop. -/
theorem depthSum_le {ft : Vector Word 256} {tie : Tie} {fuel : Nat} {arena : List TreeNode} {q : List QueueEntry}
    {D : Nat → Nat} (hsum : ftSum ft ≤ 2 ^ 24) (hm : ExactMerging ft arena q) (hfuel : q.length ≤ fuel + 1)
    (hD : Depths D (mergeLoop tie fuel arena q).1) (hroot : ∀ e ∈ (mergeLoop tie fuel arena q).2, D e.idx = 0)
    {k : Nat} {S T : Multiset Nat} (hsplit : (weights q : Multiset Nat) = S + T) (hfit : S.card + 2 * T.card ≤ 2 ^ (k + 1)) :
    depthSum D q ≤ k * ftSum ft + S.sum := by
  induction fuel generalizing arena q k S T with
  | zero =>
    rw [mergeLoop_of_length_le_one _ _ _ hfuel] at hroot
    rw [depthSum_eq_zero hroot]
    exact Nat.zero_le _
  | succ fuel ih =>
    by_cases hone : q.length ≤ 1
    · rw [mergeLoop_of_length_le_one _ _ _ hone] at hroot
      rw [depthSum_eq_zero hroot]
      exact Nat.zero_le _
    obtain ⟨a, b, rest, hpair, hloop⟩ := mergeLoop_succ_of_two_le tie fuel arena (q := q) (by omega)
    rw [hloop] at hD hroot
    have hcard : S.card + T.card = q.length := by
      rw [← Multiset.card_add, ← hsplit, Multiset.coe_card, weights, List.length_map]
    have hweight : S.sum + T.sum = ftSum ft := by
      rw [← Multiset.sum_add, ← hsplit, Multiset.sum_coe, hm.total]
    obtain ⟨k, S₁, T₁, hsplit₁, htwo, hfit₁, hcost⟩ := exists_two_deep (by omega) hfit
    have htake : a.freq.toNat ::ₘ b.freq.toNat ::ₘ (weights rest : Multiset Nat) = S₁ + T₁ := by
      rw [hsplit₁, ← hsplit]
      exact Multiset.coe_eq_coe.mpr (hpair.perm.map fun e : QueueEntry => e.freq.toNat)
    have hrest : ∀ x ∈ (weights rest : Multiset Nat), b.freq.toNat ≤ x := by
      simpa [weights] using fun e he => hpair.freq_le_rest he
    obtain ⟨S₂, T₂, hsplit₂, hS₂, hT₂, hsum₂⟩ := exists_split_of_two_least htake hpair.freq_le hrest htwo
    have hnew : (weights (rest ++ [mergedEntry arena a b]) : Multiset Nat) =
        S₂ + ((a.freq.toNat + b.freq.toNat) ::ₘ T₂) := by
      rw [Multiset.add_cons, ← hsplit₂]
      simp [weights, mergedEntry, hm.add_exact hsum hpair]
    have hlater := ih (k := k) (hm.merge hsum hpair) (by
      have := hpair.perm.length_eq
      simp only [List.length_cons, List.length_append, List.length_nil] at this ⊢
      omega) hD hroot hnew (by rw [Multiset.card_cons]; omega)
    rw [depthSum_merge hsum hm hpair (mergeLoop_prefix ..) hD]
    rw [hweight] at hcost
    omega

end Sys2Proof.Machine
end

section
/-! The bound on COMPRESS's output (43_bit_packer.md R123, R125): the codes of the input come to at most eight bits a byte. -/

namespace Sys2Proof.Machine

/-! ### the depths of a tree (R71, R104) -/

/-- Each slot of a tree has a depth, the length of the path to it. -/
theorem TreeShape.exists_depths {t : State} {n : Nat} (h : TreeShape t n) :
    ∃ D : Nat → Nat, ∀ p j, Path t t.root.toNat p j → D j = p.length := by
  have hex : ∀ j, ∃ d, ∀ p, Path t t.root.toNat p j → d = p.length := fun j => by
    by_cases hj : ∃ p, Path t t.root.toNat p j
    · obtain ⟨p, hp⟩ := hj
      exact ⟨p.length, fun q hq => by rw [h.root_path_unique hp hq]⟩
    · exact ⟨0, fun p hp => absurd ⟨p, hp⟩ hj⟩
  choose D hD using hex
  exact ⟨D, fun p j => hD j p⟩

theorem TreeShape.depth_edge {t : State} {n j k : Nat} {b : Bool} (h : TreeShape t n) {D : Nat → Nat}
    (hD : ∀ p j, Path t t.root.toNat p j → D j = p.length) (he : Edge t k b j) : D j = D k + 1 := by
  obtain ⟨p, hp⟩ := h.root_reaches (h.edge_range he).2.1
  rw [hD _ _ hp, hD _ _ (path_snoc_iff.mpr ⟨k, hp, he⟩), List.length_append, List.length_singleton]

/-! ### the cost of a table's codes (R104, R125) -/

/-- The cost of BUILD's tree: at most that of the tree of depth 8, which has room for 256 leaves. -/
theorem build_depthSum_le {s t : State} (hsum : ftSum s.ft ≤ 2 ^ 24) (h : nsym s.ft ≠ 0) (hexec : execBuild s = .next t)
    {D : Nat → Nat} (hD : ∀ p j, Path t t.root.toNat p j → D j = p.length) :
    depthSum D (queueOf (leaves s.ft)) ≤ 8 * ftSum s.ft := by
  have htree := treeShape_build h hexec
  have hle := nsym_le s.ft
  have hlen : (queueOf (leaves s.ft)).length = nsym s.ft := by simp [queueOf, leaves_length]
  obtain ⟨e, hq, he⟩ := buildArena_queue s.params.tie s.ft h
  have hdepths : Depths D (buildArena s.params.tie s.ft).1 := fun k f l r hk => by
    have hs := (slot_build h hexec k).trans hk
    exact ⟨htree.depth_edge hD (b := false) ⟨f, l, r, hs, rfl⟩, htree.depth_edge hD (b := true) ⟨f, l, r, hs, rfl⟩⟩
  have hroot : ∀ x ∈ (buildArena s.params.tie s.ft).2, D x.idx = 0 := fun x hx => by
    rw [hq, List.mem_singleton] at hx
    rw [hx, he, ← htree.root, hD _ _ (.here _), List.length_nil]
  have hbound := depthSum_le (k := 8) (S := 0) (T := weights (queueOf (leaves s.ft))) hsum (.start s.ft h)
    (by rw [hlen, leaves_length]; omega) hdepths hroot (zero_add _).symm
    (by rw [Multiset.card_zero, Multiset.coe_card, weights, List.length_map, hlen]; omega)
  simpa using hbound

/-- The length of the code of a leaf's symbol. -/
def leafCodeLength (ct : Vector (Option Bits) 256) : TreeNode → Nat
  | .leaf c _ => (codeBits ct c).length
  | .internal _ _ _ => 0

/-- Where the depths of the leaves are the lengths of the codes, the cost of the leaves is that of the codes. -/
theorem depthSum_leaves {ft : Vector Word 256} {ct : Vector (Option Bits) 256} {D : Nat → Nat}
    (h : ∀ k c f, (leaves ft)[k]? = some (.leaf c f) → D k = (codeBits ct c).length) :
    depthSum D (queueOf (leaves ft)) = (symbols.map fun c => countOf ft c * (codeBits ct c).length).sum := by
  have hentry : ∀ x ∈ (leaves ft).zipIdx,
      (nodeFreq x.1).toNat * D x.2 = (nodeFreq x.1).toNat * leafCodeLength ct x.1 := fun x hx => by
    have hx := List.mem_zipIdx_iff_getElem?.mp hx
    obtain ⟨c, hc⟩ := eq_leaf_of_mem_leaves (List.mem_of_getElem? hx)
    rw [hc, leafCodeLength, h _ _ _ (hx.trans (congrArg some hc))]
  calc depthSum D (queueOf (leaves ft))
      = ((leaves ft).zipIdx.map fun x => (nodeFreq x.1).toNat * D x.2).sum := by
        rw [depthSum, queueOf, List.map_map]; rfl
    _ = (((leaves ft).zipIdx.map Prod.fst).map fun node => (nodeFreq node).toNat * leafCodeLength ct node).sum := by
        rw [List.map_congr_left hentry, List.map_map]; rfl
    _ = ((symbols.filter fun c => ft[c.toNat] ≠ 0).map fun c => countOf ft c * (codeBits ct c).length).sum := by
        rw [List.zipIdx_map_fst, leaves_eq_map, List.map_map]; rfl
    _ = (symbols.map fun c => countOf ft c * (codeBits ct c).length).sum := sum_present_symbols ft _

/-- The codes BUILD and GENCODES make cost at most eight bits a counted byte (R125). -/
theorem build_codes_cost_le {s t u : State} (hsum : ftSum s.ft ≤ 2 ^ 24) (h : nsym s.ft ≠ 0)
    (hexec : execBuild s = .next t) (hcodes : execGencodes t = .next u) :
    (symbols.map fun c => countOf s.ft c * (codeBits u.ct c).length).sum ≤ 8 * ftSum s.ft := by
  have htree := treeShape_build h hexec
  by_cases h1 : nsym s.ft = 1
  · obtain ⟨codes, hc, rfl⟩ := gencodes_of_build h hexec hcodes
    have hone : ∀ c, (codeBits (fillTable codes) c).length ≤ 1 := fun c => by
      cases hcode : codeOf (fillTable codes) c with
      | none => simp [codeBits, hcode]
      | some p =>
        rw [codeBits_of_codeOf hcode, ((htree.codeOf_treeCodes_one h1 hc).mp hcode).2, List.length_singleton]
    have hle : (symbols.map fun c => countOf s.ft c * (codeBits (fillTable codes) c).length).sum ≤ ftSum s.ft :=
      List.sum_le_sum fun c _ => (Nat.mul_le_mul_left _ (hone c)).trans_eq (Nat.mul_one _)
    exact hle.trans (by omega)
  · obtain ⟨D, hD⟩ := htree.exists_depths
    have hleaf : ∀ k c f, (leaves s.ft)[k]? = some (.leaf c f) → D k = (codeBits u.ct c).length := fun k c f hk => by
      have hlt : k < nsym s.ft := by
        rw [← leaves_length]
        exact (List.getElem?_eq_some_iff.mp hk).1
      have hs : slot t k = some (.leaf c f) := by rw [slot_build h hexec, buildArena_getElem?_of_lt _ _ hlt, hk]
      exact hD _ _ (build_path_codeBits (by omega) hexec hcodes hs)
    rw [← depthSum_leaves hleaf]
    exact build_depthSum_le hsum h hexec hD

/-! ### COMPRESS (R125, R142) -/

/-- A sum over the bytes of a sequence, by symbols. -/
theorem sum_map_eq_sum_count (bs : List Byte) (w : Byte → Nat) :
    (bs.map w).sum = (symbols.map fun c => bs.count c * w c).sum := by
  rw [← List.sum_toFinset _ symbols_nodup, Finset.sum_list_map_count]
  refine Finset.sum_subset (fun c _ => List.mem_toFinset.mpr (mem_symbols c)) fun c _ hc => ?_
  rw [List.mem_toFinset] at hc
  simp [List.count_eq_zero_of_not_mem hc]

/-- The input sequence as a later command reads it is the one the host wrote. -/
theorem inputBytes_of_written {s t : State} (hw : InputWritten s) (hibuf : t.ibuf = s.ibuf) (hilen : t.ilen = s.ilen) :
    inputBytes t = inputBytes s := by
  rw [inputBytes, hilen]
  refine List.map_congr_left fun i hi => ?_
  obtain ⟨b, hb⟩ := Option.isSome_iff_exists.mp (hw i (List.mem_range.mp hi))
  rw [ibufByte_of_read hb, ibufByte_of_read (hibuf ▸ hb)]

/-- Every present symbol gets a code. -/
theorem build_codeOf_ne_none {s t u : State} (hexec : execBuild s = .next t) (hcodes : execGencodes t = .next u) {c : Byte}
    (hc : 0 < countOf s.ft c) : codeOf u.ct c ≠ none := by
  have h := (nsym_ne_zero_iff s.ft).mpr ⟨c, (ft_ne_zero_iff_countOf_pos s.ft c).mpr hc⟩
  obtain ⟨codes, hcs, rfl⟩ := gencodes_of_build h hexec hcodes
  obtain ⟨k, hk⟩ := build_exists_leaf hexec hc
  exact Option.isSome_iff_ne_none.mp (((treeShape_build h hexec).codeOf_treeCodes_isSome hcs c).mpr ⟨k, _, hk⟩)

/-- The codes of a counted byte sequence come to at most eight bits a byte. -/
theorem flatMap_codeBits_length_le {s t u : State} {bs : List Byte} (hft : s.ft = countBytes bs) (hlen : bs.length ≤ 2 ^ 24)
    (h : nsym s.ft ≠ 0) (hexec : execBuild s = .next t) (hcodes : execGencodes t = .next u) :
    (bs.flatMap (codeBits u.ct)).length ≤ 8 * bs.length := by
  have hsum : ftSum s.ft = bs.length := by rw [hft, ftSum_countBytes bs (by omega)]
  have hcost := build_codes_cost_le (hsum.trans_le hlen) h hexec hcodes
  rw [hsum, hft, funext (countOf_countBytes bs (by omega))] at hcost
  rwa [List.length_flatMap, sum_map_eq_sum_count]

theorem ibufCap_le_of_wellFormed {p : Params} (h : p.wellFormed = true) : p.ibufCap ≤ 2 ^ 24 := by
  simp only [Params.wellFormed, Params.ibufCapOk, Bool.and_eq_true, decide_eq_true_eq] at h
  omega

/-- The commands before PACK leave the parameters and the input alone (R189). -/
theorem compress_keeps_input {s a b g : State} (ha : exec .analyze s = .next a) (hb : exec .build a = .next b)
    (hg : exec .gencodes b = .next g) : g.params = s.params ∧ g.ibuf = s.ibuf ∧ g.ilen = s.ilen := by
  have hfa := exec_frame ha
  have hfb := exec_frame hb
  have hfg := exec_frame hg
  exact ⟨by rw [hfg.params, hfb.params, hfa.params], by rw [hfg.ibuf, hfb.ibuf, hfa.ibuf],
    by rw [hfg.ilen, hfb.ilen, hfa.ilen]⟩

/-- Settles O43: every input byte is counted and so coded, and the codes come to at most eight bits a byte, so with the header
and the padding the output is at most two bytes longer than the input. -/
theorem compressAddsAtMostTwoBytes : Obligations.CompressAddsAtMostTwoBytes := by
  intro s a b g p hparams herr hwritten hpos hin hout ha hb hg hp
  have hcap := ibufCap_le_of_wellFormed hparams
  have hanalyzed := eq_complete_of_analyze hin ha
  have hft : a.ft = countBytes (inputBytes s) := by rw [hanalyzed, complete_ft]
  have haerr : a.err = none := by rw [hanalyzed, complete_err, herr]
  obtain ⟨hgparams, hgibuf, hgilen⟩ := compress_keeps_input ha hb hg
  have hinput : inputBytes g = inputBytes s := inputBytes_of_written hwritten hgibuf hgilen
  have hcount : ∀ c ∈ inputBytes s, 0 < countOf a.ft c := fun c hc => by
    rw [hft, countOf_countBytes_inputBytes]
    exact List.count_pos_iff.mpr hc
  have hpresent : ∃ c : Byte, a.ft[c.toNat] ≠ 0 := by
    obtain ⟨c, hc⟩ := List.exists_mem_of_length_pos (l := inputBytes s) (by rw [inputBytes_length]; omega)
    exact ⟨c, (ft_ne_zero_iff_countOf_pos _ c).mpr (hcount c hc)⟩
  have hn := (nsym_ne_zero_iff a.ft).mpr hpresent
  have hgerr : g.err = none := by
    obtain ⟨codes, -, hcodes⟩ := gencodes_of_build hn hb hg
    rw [hcodes, complete_err, (buildRefusesTheEmptyTable a).2 hpresent b hb, haerr]
  have hbits := flatMap_codeBits_length_le hft (by rw [inputBytes_length]; omega) hn hb hg
  rw [inputBytes_length] at hbits
  obtain ⟨havail, -⟩ | ⟨-, hcoded, -⟩ | ⟨-, -, bits, hcodes, hend⟩ := execPack_cases hp
  · rw [inputAvailable, hgilen, hgparams] at havail
    exact absurd hin (of_decide_eq_false havail)
  · exact absurd (fun c hc => build_codeOf_ne_none hb hg (hcount c (hinput ▸ hc))) hcoded
  · rw [hinput] at hcodes
    rw [← hcodes] at hbits
    obtain ⟨-, hend⟩ | ⟨hover, -⟩ := hend
    · rw [hend, complete_err, writeOutput_err, complete_olen, writeOutput_olen, packed_length, BitVec.toNat_ofNat]
      exact ⟨hgerr, (Nat.mod_le _ _).trans (by omega)⟩
    · rw [hgparams] at hover
      omega

end Sys2Proof.Machine
end

section
/-! What GENCODES reads and when it faults, and the completeness of the codes it makes (42_code_table_generator.md R111, R113,
R114). -/

namespace Sys2Proof.Machine

/-! ### GENCODES without a tree (R111, R157, R158) -/

/-- Settles O25: GENCODES looks at `NNODE` first, and past that test it raises nothing. -/
theorem gencodesNeedsATree : Obligations.GencodesNeedsATree := by
  refine fun s => ⟨fun h => if_pos h, fun h t hexec => ?_⟩
  obtain ⟨h0, -⟩ | ⟨-, codes, -, rfl⟩ := execGencodes_cases hexec
  · exact absurd h0 h
  · rfl

/-! ### what GENCODES reads (R114) -/

/-- Slots that differ at most in a frequency are both out of use, both leaves of one symbol, or both over the same children. -/
theorem withoutFreq_eq_cases {x y : Option TreeNode} (h : x.map withoutFreq = y.map withoutFreq) :
    (x = none ∧ y = none) ∨ (∃ c f g, x = some (.leaf c f) ∧ y = some (.leaf c g)) ∨
      ∃ f g l r, x = some (.internal f l r) ∧ y = some (.internal g l r) := by
  match x, y with
  | none, none => exact .inl ⟨rfl, rfl⟩
  | some (.leaf c f), some (.leaf d g) =>
    obtain rfl : c = d := by simpa [withoutFreq] using h
    exact .inr (.inl ⟨c, f, g, rfl, rfl⟩)
  | some (.internal f l r), some (.internal g l' r') =>
    obtain ⟨rfl, rfl⟩ : l = l' ∧ r = r' := by simpa [withoutFreq] using h
    exact .inr (.inr ⟨f, g, l, r, rfl, rfl⟩)
  | none, some _ | some _, none => simp at h
  | some (.leaf _ _), some (.internal _ _ _) | some (.internal _ _ _), some (.leaf _ _) => simp [withoutFreq] at h

section
variable {s s' : State} (h : ∀ k, (slot s k).map withoutFreq = (slot s' k).map withoutFreq)
include h

theorem walk_eq_of_withoutFreq (fuel k : Nat) (p : Bits) : walk s fuel k p = walk s' fuel k p := by
  induction fuel generalizing k p with
  | zero => rfl
  | succ fuel ih =>
    obtain ⟨hs, hs'⟩ | ⟨c, f, g, hs, hs'⟩ | ⟨f, g, l, r, hs, hs'⟩ := withoutFreq_eq_cases (h k) <;>
      simp only [walk, hs, hs', ih]

theorem treeCodes_eq_of_withoutFreq (hroot : s.root = s'.root) : treeCodes s = treeCodes s' := by
  obtain ⟨hs, hs'⟩ | ⟨c, f, g, hs, hs'⟩ | ⟨f, g, l, r, hs, hs'⟩ := withoutFreq_eq_cases (h s'.root.toNat) <;>
    simp only [treeCodes, hroot, hs, hs', walk_eq_of_withoutFreq h]

end

/-- Settles O29: `NNODE` decides whether there is a table, the tree's codes are the table, and no code depends on a
frequency. -/
theorem gencodesIgnoresFrequencies : Obligations.GencodesIgnoresFrequencies := by
  intro s s' t t' hnnode hroot hslots ht ht'
  refine ⟨?_, (exec_frame ht).tree (by decide)⟩
  obtain ⟨h0, rfl⟩ | ⟨hne, codes, hc, rfl⟩ := execGencodes_cases ht <;>
    obtain ⟨h0', rfl⟩ | ⟨hne', codes', hc', rfl⟩ := execGencodes_cases ht'
  · rfl
  · exact absurd (hnnode ▸ h0) hne'
  · exact absurd (hnnode ▸ h0') hne
  · rw [treeCodes_eq_of_withoutFreq hslots hroot, hc'] at hc
    cases hc
    rfl

/-! ### completeness (R113) -/

/-- From every slot of a tree a bit sequence leads down to a leaf. -/
theorem TreeShape.exists_leaf_along {s : State} {n : Nat} (h : TreeShape s n) {k : Nat} (hk : k < 2 * n - 1)
    (b : Nat → Bool) : ∃ m j c f, Path s k ((List.range m).map b) j ∧ slot s j = some (.leaf c f) := by
  induction k using Nat.strong_induction_on generalizing b with
  | _ k ih =>
    by_cases hn : k < n
    · obtain ⟨c, f, hs⟩ := h.leaf k hn
      exact ⟨0, k, c, f, .here k, hs⟩
    · obtain ⟨f, l, r, hs, -⟩ := h.internal k (by omega) hk
      have he : Edge s k (b 0) (if b 0 then r else l).toNat := ⟨f, l, r, hs, rfl⟩
      have hlt := (h.edge_range he).2.2
      obtain ⟨m, j, c, g, hp, hj⟩ := ih _ hlt (by omega) fun i => b (i + 1)
      refine ⟨m + 1, j, c, g, ?_, hj⟩
      rw [List.range_succ_eq_map, List.map_cons, List.map_map]
      exact path_cons_iff.mpr ⟨_, he, hp⟩

/-- The leaves a walk records below a slot weigh as much as the slot: each internal node splits its weight in two halves. -/
theorem walk_kraft_sum {s : State} {M fuel k : Nat} {p : Bits} {xs : List (Byte × Bits)} (hw : walk s fuel k p = some xs)
    (hM : ∀ x ∈ xs, x.2.length ≤ M) :
    p.length ≤ M ∧ (xs.map fun x => 2 ^ (M - x.2.length)).sum = 2 ^ (M - p.length) := by
  induction fuel generalizing k p xs with
  | zero => simp [walk] at hw
  | succ fuel ih =>
    rw [walk] at hw
    split at hw
    · cases hw
    · cases hw
      exact ⟨hM _ List.mem_cons_self, by simp⟩
    · split at hw
      · next xs ys hx hy =>
        cases hw
        obtain ⟨hle, hleft⟩ := ih hx fun x h => hM x (List.mem_append_left _ h)
        obtain ⟨-, hright⟩ := ih hy fun x h => hM x (List.mem_append_right _ h)
        rw [List.length_append, List.length_singleton] at hle hleft hright
        have hhalf : M - p.length = M - (p.length + 1) + 1 := by omega
        rw [List.map_append, List.sum_append, hleft, hright, hhalf, pow_succ, mul_two]
        exact ⟨by omega, rfl⟩
      · cases hw

section
variable {s : State} {n : Nat} (h : TreeShape s n) (h2 : 2 ≤ n) {codes : List (Byte × Bits)} (hc : treeCodes s = some codes)
include h h2 hc

/-- What the walk records is what the table holds. -/
theorem TreeShape.mem_treeCodes {c : Byte} {p : Bits} : (c, p) ∈ codes ↔ codeOf (fillTable codes) c = some p := by
  rw [h.codeOf_treeCodes h2 hc, mem_walk (h.treeCodes_of_two_le h2 ▸ hc)]
  simp [and_comm]

/-- The coded symbols with their codes are the records of the walk. -/
theorem TreeShape.coded_symbols_perm :
    ((symbols.filter fun c => (codeOf (fillTable codes) c).isSome).map fun c => (c, codeBits (fillTable codes) c)).Perm
      codes := by
  refine (List.perm_ext_iff_of_nodup ?_ (walk_nodup (h.treeCodes_of_two_le h2 ▸ hc))).mpr ?_
  · exact (symbols_nodup.filter _).map fun c d he => congrArg Prod.fst he
  · rintro ⟨c, p⟩
    rw [h.mem_treeCodes h2 hc]
    cases hcode : codeOf (fillTable codes) c with
    | none => simp [hcode]
    | some q => simp [hcode, codeBits_of_codeOf hcode]

/-- The Kraft sum of the codes of two or more leaves is the weight of the root. -/
theorem TreeShape.kraft_sum :
    (symbols.map fun c => if (codeOf (fillTable codes) c).isSome then
      2 ^ (255 - (codeBits (fillTable codes) c).length) else 0).sum = 2 ^ 255 := by
  have hlen : ∀ x ∈ codes, x.2.length ≤ 255 := fun x hx =>
    ((h.tableOk_treeCodes hc).lengths x.1 x.2 ((h.mem_treeCodes h2 hc).mp hx)).2
  calc (symbols.map fun c => if (codeOf (fillTable codes) c).isSome then
        2 ^ (255 - (codeBits (fillTable codes) c).length) else 0).sum
      = ((symbols.filter fun c => (codeOf (fillTable codes) c).isSome).map fun c =>
          2 ^ (255 - (codeBits (fillTable codes) c).length)).sum := by simp [List.sum_map_ite]
    _ = (codes.map fun x => 2 ^ (255 - x.2.length)).sum := by
        rw [← ((h.coded_symbols_perm h2 hc).map _).sum_eq, List.map_map]
        rfl
    _ = 2 ^ 255 := (walk_kraft_sum (h.treeCodes_of_two_le h2 ▸ hc) hlen).2

end

/-- Settles O28: a bit sequence leads from the root to a leaf, whose code it begins with; the Kraft sum is the weight of the
root; and with one leaf the only code is "0". -/
theorem codesAreComplete : Obligations.CodesAreComplete := by
  intro s t n h hexec
  obtain ⟨h0, -⟩ | ⟨-, codes, hc, rfl⟩ := execGencodes_cases hexec
  · exact absurd h0 h.nnode_ne_zero
  refine ⟨fun h2 b => ?_, fun h2 => h.kraft_sum h2 hc, fun h1 c p hp => ?_⟩
  · obtain ⟨m, j, c, f, hp, hj⟩ := h.exists_leaf_along (k := s.root.toNat) (by rw [h.root]; omega) b
    exact ⟨c, _, (h.codeOf_treeCodes h2 hc).mpr ⟨j, f, hj, hp⟩, by simp⟩
  · rw [((h.codeOf_treeCodes_one h1 hc).mp hp).2]
    decide

end Sys2Proof.Machine
end

section
/-! COMPRESS runs to its end: every byte of a written, nonempty input is counted, gets a leaf and with it a code (42 R113, 43 R125,
45 R142). -/

namespace Sys2Proof.Machine

/-! ### what each command leaves for the next -/

theorem countOf_analyze {s a : State} (hin : s.ilen.toNat ≤ s.params.ibufCap) (ha : exec .analyze s = .next a) (c : Byte) :
    countOf a.ft c = (inputBytes s).count c := by
  rw [eq_complete_of_analyze hin ha, complete_ft, countOf_countBytes_inputBytes]

theorem nsym_analyze_ne_zero {s a : State} (hpos : 1 ≤ s.ilen.toNat) (hin : s.ilen.toNat ≤ s.params.ibufCap)
    (ha : exec .analyze s = .next a) : nsym a.ft ≠ 0 := by
  obtain ⟨c, hc⟩ := List.exists_mem_of_length_pos (l := inputBytes s) (by rwa [inputBytes_length])
  refine (nsym_ne_zero_iff a.ft).mpr ⟨c, (ft_ne_zero_iff_countOf_pos a.ft c).mpr ?_⟩
  rw [countOf_analyze hin ha]
  exact List.count_pos_iff.mpr hc

/-- The four commands end, each on what the one before it left. -/
theorem compress_ends {s : State} (hpos : 1 ≤ s.ilen.toNat) (hin : s.ilen.toNat ≤ s.params.ibufCap) :
    ∃ a b g p, exec .analyze s = .next a ∧ exec .build a = .next b ∧ exec .gencodes b = .next g ∧
      exec .pack g = .next p := by
  obtain ⟨a, ha⟩ := exec_answers_next .analyze s (by decide)
  obtain ⟨b, hb⟩ := exec_answers_next .build a (by decide)
  have htree := treeShape_build (nsym_analyze_ne_zero hpos hin ha) hb
  obtain ⟨g, hg⟩ := execGencodes_answers_next (.inr htree.treeCodes_ends)
  obtain ⟨p, hp⟩ := exec_answers_next .pack g (by decide)
  exact ⟨a, b, g, p, ha, hb, hg, hp⟩

/-- The commands before PACK raise nothing. -/
theorem compress_keeps_err {s a b g : State} (hpos : 1 ≤ s.ilen.toNat) (hin : s.ilen.toNat ≤ s.params.ibufCap)
    (ha : exec .analyze s = .next a) (hb : exec .build a = .next b) (hg : exec .gencodes b = .next g) : g.err = s.err := by
  have hn := nsym_analyze_ne_zero hpos hin ha
  rw [(gencodesNeedsATree b).2 (treeShape_build hn hb).nnode_ne_zero g hg,
    (buildRefusesTheEmptyTable a).2 ((nsym_ne_zero_iff a.ft).mp hn) b hb, eq_complete_of_analyze hin ha, complete_err]

/-- Every byte of the input has a code when PACK reads it. -/
theorem compress_allCoded {s a b g : State} (hin : s.ilen.toNat ≤ s.params.ibufCap) (ha : exec .analyze s = .next a)
    (hb : exec .build a = .next b) (hg : exec .gencodes b = .next g) : AllCoded g.ct (inputBytes s) := fun c hc => by
  refine build_codeOf_ne_none hb hg ?_
  rw [countOf_analyze hin ha]
  exact List.count_pos_iff.mpr hc

/-! ### PACK of a coded input (R121, R123) -/

/-- On an available input of coded bytes only the output's size can stop PACK. -/
theorem pack_err_of_allCoded {s t : State} (hin : s.ilen.toNat ≤ s.params.ibufCap) (hcoded : AllCoded s.ct (inputBytes s))
    (h : execPack s = .next t) : t.err = s.err ∨ t.err = some .outputUnavailable := by
  obtain ⟨havail, -⟩ | ⟨-, hnot, -⟩ | ⟨-, -, bits, -, ⟨-, rfl⟩ | ⟨-, rfl⟩⟩ := execPack_cases h
  · exact absurd hin (of_decide_eq_false havail)
  · exact absurd hcoded hnot
  · exact .inl rfl
  · exact .inr rfl

/-- `TBITS` holds the length of the codes without wrapping, since the output fits its buffer (R123). -/
theorem tbits_of_pack {s t : State} (hcap : s.params.obufCap ≤ 2 ^ 24) (h : execPack s = .next t) (herr : t.err = none) :
    t.tbits.toNat = ((inputBytes s).flatMap (codeBits s.ct)).length := by
  obtain ⟨hfits, ht⟩ := execPack_of_err_none h herr
  rw [ht, complete_tbits, writeOutput_tbits, BitVec.toNat_ofNat, Nat.mod_eq_of_lt (by omega)]

/-- Settles O42: the input PACK reads is the one ANALYZE counted, so every byte of it has a code, and the codes' lengths add up
symbol by symbol. -/
theorem compressNeverMissesACode : Obligations.CompressNeverMissesACode := by
  intro s hparams herr hwritten hpos hin
  obtain ⟨a, b, g, p, ha, hb, hg, hp⟩ := compress_ends hpos hin
  obtain ⟨hgparams, hgibuf, hgilen⟩ := compress_keeps_input ha hb hg
  have hinput : inputBytes g = inputBytes s := inputBytes_of_written hwritten hgibuf hgilen
  have hgerr : g.err = none := (compress_keeps_err hpos hin ha hb hg).trans herr
  have hcoded : AllCoded g.ct (inputBytes g) := hinput ▸ compress_allCoded hin ha hb hg
  have hgin : g.ilen.toNat ≤ g.params.ibufCap := by rwa [hgilen, hgparams]
  have hgcap : g.params.obufCap ≤ 2 ^ 24 := hgparams ▸ obufCap_le_of_wellFormed hparams
  refine ⟨a, b, g, p, ha, hb, hg, hp, hgerr, hgerr ▸ pack_err_of_allCoded hgin hcoded hp, fun hperr => ?_⟩
  calc p.tbits.toNat
      = ((inputBytes s).map fun c => (codeBits g.ct c).length).sum := by
        rw [tbits_of_pack hgcap hp hperr, hinput, List.length_flatMap]
    _ = (symbols.map fun c => (inputBytes s).count c * (codeBits g.ct c).length).sum := sum_map_eq_sum_count ..
    _ = (symbols.map fun c => countOf a.ft c * (codeBits g.ct c).length).sum := by
        simp only [countOf_analyze hin ha]

end Sys2Proof.Machine
end

section
/-! PACK: its three faults, the lengths it leaves, and the empty input (43_bit_packer.md R121 to R123, 45_control_and_sequences.md
R146, 60_exceptions.md R151, R154, R157 to R160). -/

namespace Sys2Proof.Machine

/-! ### the three faults (R121, R160) -/

theorem raise_pack (kind : ErrorKind) (s : State) : raise kind (some .pack) s = failedOutput s kind := rfl

theorem execPack_of_too_long {s : State} (hlong : s.params.ibufCap < s.ilen.toNat) :
    execPack s = .next (failedOutput s .inputUnavailable) := by
  have havail : inputAvailable s = false := decide_eq_false (Nat.not_le.mpr hlong)
  simp only [execPack, havail, Bool.false_eq_true, if_false, raise_pack]

theorem execPack_of_not_allCoded {s : State} (hin : s.ilen.toNat ≤ s.params.ibufCap)
    (hcoded : ¬ AllCoded s.ct (inputBytes s)) : execPack s = .next (failedOutput s .missingCode) := by
  have havail : inputAvailable s = true := decide_eq_true hin
  simp only [execPack, havail, if_true, concatCodes_eq_none_iff.mpr hcoded, raise_pack]

theorem execPack_of_too_big {s : State} (hin : s.ilen.toNat ≤ s.params.ibufCap) (hcoded : AllCoded s.ct (inputBytes s))
    (hbig : s.params.obufCap < 2 + ((inputBytes s).flatMap (codeBits s.ct)).length / 8) :
    execPack s = .next (failedOutput s .outputUnavailable) := by
  have havail : inputAvailable s = true := decide_eq_true hin
  rw [← packed_length] at hbig
  simp only [execPack, havail, if_true, concatCodes_of_allCoded hcoded, if_neg (Nat.not_le.mpr hbig), raise_pack]

/-- Settles O33: each check comes after those before it have passed, and each fault empties the output. -/
theorem packFaultsInOrder : Obligations.PackFaultsInOrder :=
  fun _ => ⟨execPack_of_too_long, execPack_of_not_allCoded, execPack_of_too_big⟩

/-! ### the lengths (R123) -/

/-- `OLEN` holds the number of bytes written without wrapping. -/
theorem olen_of_pack {s t : State} (hcap : s.params.obufCap ≤ 2 ^ 24) (h : execPack s = .next t) (herr : t.err = none) :
    t.olen.toNat = 2 + t.tbits.toNat / 8 := by
  rw [tbits_of_pack hcap h herr]
  obtain ⟨hfits, ht⟩ := execPack_of_err_none h herr
  rw [ht, complete_olen, writeOutput_olen, packed_length, BitVec.toNat_ofNat, Nat.mod_eq_of_lt (by omega)]

theorem toNat_mod_two_pow_of_getLsbD {w n : Nat} {b : BitVec w} (h : ∀ i < n, b.getLsbD i = false) :
    b.toNat % 2 ^ n = 0 := by
  refine Nat.eq_of_testBit_eq fun i => ?_
  rw [Nat.testBit_mod_two_pow, BitVec.testBit_toNat, Nat.zero_testBit]
  simpa using h i

/-- The low bits of the last byte are padding: bit i of it stands behind the last code bit (R72, R121). -/
theorem last_byte_padding_of_pack {s t : State} (hparams : s.params.wellFormed = true) (hserr : s.err = none)
    (h : exec .pack s = .next t) (herr : t.err = none) {i : Nat} (hi : i < 8 - t.tbits.toNat % 8) :
    (obufByte t (t.olen.toNat - 1)).getLsbD i = false := by
  have hcap := obufCap_le_of_wellFormed hparams
  have htbits := tbits_of_pack hcap h herr
  have holen := olen_of_pack hcap h herr
  have hbit := (packPlacesEveryBit s t _ hparams hserr h herr rfl).2 (8 * (t.tbits.toNat / 8) + (7 - i)) (by omega)
  rwa [show 1 + (8 * (t.tbits.toNat / 8) + (7 - i)) / 8 = t.olen.toNat - 1 by omega,
    show 7 - (8 * (t.tbits.toNat / 8) + (7 - i)) % 8 = i by omega,
    List.getD_eq_default _ _ (by omega)] at hbit

/-- Settles O32: the lengths come from the padded stream's, the header is the padding count, and the last byte ends in the
padding. -/
theorem packLengths : Obligations.PackLengths := by
  intro s t hparams hserr hexec herr
  have hcap := obufCap_le_of_wellFormed hparams
  have htbits := tbits_of_pack hcap hexec herr
  have holen := olen_of_pack hcap hexec herr
  have hheader := (packPlacesEveryBit s t _ hparams hserr hexec herr rfl).1
  rw [← htbits] at hheader
  have hpadding : (obufByte t (t.olen.toNat - 1)).toNat % 2 ^ (obufByte t 0).toNat = 0 :=
    toNat_mod_two_pow_of_getLsbD fun i hi => last_byte_padding_of_pack hparams hserr hexec herr (hheader ▸ hi)
  refine ⟨⟨holen, by omega⟩, ⟨hheader, by omega, by omega⟩, by omega, ⟨fun _ => hpadding, fun h8 => ?_⟩, ?_⟩
  · rw [h8, Nat.mod_eq_of_lt (BitVec.isLt _)] at hpadding
    exact BitVec.eq_of_toNat_eq hpadding
  · rw [htbits, List.length_flatMap]

/-! ### the empty input (R146) -/

/-- A header that strips every bit leaves nothing to scan, so the table is not looked at. -/
theorem unpackStream_of_all_stripped {s : State} {header : Byte} {rest : List Byte}
    (hheader : header.toNat = 8 * rest.length) : unpackStream s header rest = complete (writeOutput s [] 0) := by
  simp [unpackStream, hheader, scanCodes]

theorem inputBytes_of_ilen_zero {s : State} (hilen : s.ilen = 0) : inputBytes s = [] := by
  rw [inputBytes, hilen]
  rfl

theorem inputBytes_of_ilen_two {s : State} {b c : Byte} (hilen : s.ilen = 2) (hb : Memory.read s.ibuf 0 = some b)
    (hc : Memory.read s.ibuf 1 = some c) : inputBytes s = [b, c] := by
  rw [inputBytes, hilen, ← ibufByte_of_read hb, ← ibufByte_of_read hc]
  rfl

/-- PACK of the empty input reads no code: its output is the header 8 and one byte of padding. -/
theorem execPack_of_ilen_zero {s : State} (hilen : s.ilen = 0) (hcap : 2 ≤ s.params.obufCap) :
    execPack s = .next (complete (writeOutput s [0x08, 0x00] 0)) := by
  have hempty := inputBytes_of_ilen_zero hilen
  have hbytes : bytesOfBits (paddedStream []) = [0x08, 0x00] := by decide
  have hpack := execPack_of_allCoded (s := s) (by simp [hilen]) (by simp [hempty, AllCoded]) (by simpa [hempty] using hcap)
  rwa [hempty, List.flatMap_nil, hbytes, List.length_nil] at hpack

/-- UNPACK of `08 00` strips the eight bits behind the header. -/
theorem execUnpack_of_empty_packed {s : State} (hin : s.ilen.toNat ≤ s.params.ibufCap) (hbytes : inputBytes s = [0x08, 0x00]) :
    execUnpack s = .next (complete (writeOutput s [] 0)) := by
  have havail : inputAvailable s = true := decide_eq_true hin
  simp only [execUnpack, havail, if_true, hbytes]
  rw [unpackStream_of_all_stripped rfl]

/-- Settles O40: neither command comes to a code, so no table is needed. -/
theorem emptySequencePacksWithoutATable : Obligations.EmptySequencePacksWithoutATable := by
  constructor
  · intro s hilen hcap
    exact ⟨_, execPack_of_ilen_zero hilen hcap, rfl, rfl, rfl, outputBytes_of_written 0 (by decide)⟩
  · intro s hilen hcap hheader hpad
    have hin : s.ilen.toNat ≤ s.params.ibufCap := by rwa [hilen]
    exact ⟨_, execUnpack_of_empty_packed hin (inputBytes_of_ilen_two hilen hheader hpad), rfl, rfl, rfl,
      outputBytes_of_written 0 (by decide)⟩

end Sys2Proof.Machine
end

section
/-! UNPACK: what it makes of the header byte and the payload bits, its checks, and what its output guarantees
(44_bit_unpacker.md R131 to R135, 60_exceptions.md R151, R154, R157, R160). -/

namespace Sys2Proof.Machine

/-! ### the payload in the input bytes (R131) -/

theorem inputBytes_eq_cons {s : State} (hpos : 0 < s.ilen.toNat) :
    inputBytes s = ibufByte s 0 :: (inputBytes s).tail := by
  have h0 : (inputBytes s)[0]? = some (ibufByte s 0) := by rw [inputBytes_getElem?, if_pos hpos]
  cases hbytes : inputBytes s with
  | nil => simp [hbytes] at h0
  | cons header rest =>
    rw [hbytes, List.getElem?_cons_zero, Option.some.injEq] at h0
    rw [h0, List.tail_cons]

theorem bitsAfterHeader_eq (s : State) : bitsAfterHeader s = 8 * (inputBytes s).tail.length := by
  rw [bitsAfterHeader, List.length_tail, inputBytes_length]

@[simp] theorem payload_length (s : State) : (payload s).length = payloadLength s := by
  rw [payload, List.length_map, List.length_range]

theorem payloadLength_le (s : State) : payloadLength s ≤ 8 * (s.ilen.toNat - 1) := Nat.sub_le _ _

/-- The payload is the first P bits behind the header byte. -/
theorem take_bitsOfBytes_tail (s : State) :
    (bitsOfBytes (inputBytes s).tail).take (payloadLength s) = payload s := by
  refine List.ext_getElem? fun j => ?_
  have hle := payloadLength_le s
  by_cases hj : j < payloadLength s
  · have hbyte : j / 8 + 1 < s.ilen.toNat := by omega
    rw [List.getElem?_take_of_lt hj, bitsOfBytes_getElem?, List.getElem?_tail, inputBytes_getElem?, if_pos hbyte]
    simp [payload, hj, payloadBit, Nat.add_comm]
  · rw [List.getElem?_eq_none (by simp; omega), List.getElem?_eq_none (by simpa using hj)]

theorem payloadLength_eq_of_inputBytes {s s' : State} (h : inputBytes s' = inputBytes s) :
    payloadLength s' = payloadLength s := by
  have hilen : s'.ilen.toNat = s.ilen.toNat := by rw [← inputBytes_length, h, inputBytes_length]
  by_cases hpos : 0 < s.ilen.toNat
  · have hcons := inputBytes_eq_cons (hilen ▸ hpos : 0 < s'.ilen.toNat)
    rw [h, inputBytes_eq_cons hpos] at hcons
    rw [payloadLength, payloadLength, bitsAfterHeader, bitsAfterHeader, hilen, (List.cons.inj hcons).1]
  · have hle := payloadLength_le s
    have hle' := payloadLength_le s'
    omega

/-- The payload is a function of the input bytes (R135 (d)). -/
theorem payload_eq_of_inputBytes {s s' : State} (h : inputBytes s' = inputBytes s) : payload s' = payload s := by
  rw [← take_bitsOfBytes_tail, ← take_bitsOfBytes_tail, h, payloadLength_eq_of_inputBytes h]

/-! ### what the scan has read (R131, R132) -/

/-- Every emitted symbol has the code it was emitted for, so the codes and the candidate left make up what was scanned. -/
theorem scanCodes_spells {ct : Vector (Option Bits) 256} {cand bits left : Bits} {out : List Byte}
    (h : scanCodes ct cand bits = (out, left)) : AllCoded ct out ∧ cand ++ bits = out.flatMap (codeBits ct) ++ left := by
  induction bits generalizing cand out with
  | nil =>
    obtain ⟨rfl, rfl⟩ := Prod.mk.inj h
    exact ⟨fun _ hb => absurd hb List.not_mem_nil, by simp⟩
  | cons b bits ih =>
    rw [scanCodes] at h
    rw [List.append_cons]
    cases hr : rev ct (cand ++ [b]) with
    | some c =>
      rw [hr] at h
      obtain ⟨rfl, hleft⟩ := Prod.mk.inj h
      have hc := codeOf_of_rev hr
      obtain ⟨hcoded, hspell⟩ := ih (Prod.ext rfl hleft)
      refine ⟨List.forall_mem_cons.mpr ⟨by simp [hc], hcoded⟩, ?_⟩
      rw [List.flatMap_cons, codeBits_of_codeOf hc, List.append_assoc _ (List.flatMap _ _), ← hspell, List.nil_append]
    | none =>
      rw [hr] at h
      exact ih h

/-- Every emitted symbol took a bit of its own. -/
theorem scanCodes_length_le (ct : Vector (Option Bits) 256) (cand bits : Bits) :
    (scanCodes ct cand bits).1.length ≤ bits.length := by
  induction bits generalizing cand with
  | nil => exact Nat.le_refl 0
  | cons b bits ih =>
    rw [scanCodes]
    cases rev ct (cand ++ [b]) with
    | some c => exact Nat.succ_le_succ (ih [])
    | none => exact Nat.le_succ_of_le (ih (cand ++ [b]))

/-! ### UNPACK as a function of the header and the payload (R131, R160) -/

/-- What comes of the header and the payload: the kind raised, or the symbols to write. -/
def streamResult (s : State) : Except ErrorKind (List Byte) :=
  if (ibufByte s 0).toNat ≤ bitsAfterHeader s then
    if (scanCodes s.ct [] (payload s)).2 = [] then
      if (scanCodes s.ct [] (payload s)).1.length ≤ s.params.obufCap then .ok (scanCodes s.ct [] (payload s)).1
      else .error .outputUnavailable
    else .error .malformedStream
  else .error .malformedStream

/-- What comes of an UNPACK, its checks in the order of R160. -/
def unpackResult (s : State) : Except ErrorKind (List Byte) :=
  if s.ilen.toNat ≤ s.params.ibufCap then
    if s.ilen = 0 then .error .malformedStream else streamResult s
  else .error .inputUnavailable

/-- The state UNPACK ends in with a result. -/
def unpackEnd (s : State) : Except ErrorKind (List Byte) → State
  | .error kind => failedOutput s kind
  | .ok out => complete (writeOutput s out (payloadLength s))

theorem unpackEnd_error (s : State) (kind : ErrorKind) : unpackEnd s (.error kind) = failedOutput s kind := rfl

theorem unpackEnd_ok (s : State) (out : List Byte) :
    unpackEnd s (.ok out) = complete (writeOutput s out (payloadLength s)) := rfl

theorem raise_unpack (kind : ErrorKind) (s : State) : raise kind (some .unpack) s = failedOutput s kind := rfl

/-- Past the length checks UNPACK reads the header and, of the bits behind it, the payload alone. -/
theorem unpackStream_eq (s : State) :
    unpackStream s (ibufByte s 0) (inputBytes s).tail = unpackEnd s (streamResult s) := by
  have hlength : bitsAfterHeader s - (ibufByte s 0).toNat = payloadLength s := rfl
  simp only [unpackStream, streamResult, ← bitsAfterHeader_eq, hlength, take_bitsOfBytes_tail, raise_unpack,
    apply_ite (unpackEnd s), unpackEnd_error, unpackEnd_ok]

/-- UNPACK's equation. -/
theorem execUnpack_eq (s : State) : execUnpack s = .next (unpackEnd s (unpackResult s)) := by
  by_cases hin : s.ilen.toNat ≤ s.params.ibufCap
  · have havail : inputAvailable s = true := decide_eq_true hin
    rw [execUnpack, unpackResult, if_pos havail, if_pos hin]
    by_cases hzero : s.ilen = 0
    · rw [inputBytes_of_ilen_zero hzero, if_pos hzero, unpackEnd_error, raise_unpack]
    · have hpos : 0 < s.ilen.toNat := Nat.pos_of_ne_zero fun h => hzero (BitVec.eq_of_toNat_eq h)
      rw [inputBytes_eq_cons hpos, if_neg hzero, ← unpackStream_eq]
  · have havail : ¬ inputAvailable s = true := by simpa [inputAvailable] using hin
    rw [execUnpack, unpackResult, if_neg havail, if_neg hin, unpackEnd_error, raise_unpack]

theorem exec_unpack_of_result {s : State} {r : Except ErrorKind (List Byte)} (h : unpackResult s = r) :
    exec .unpack s = .next (unpackEnd s r) := h ▸ execUnpack_eq s

theorem eq_unpackEnd {s t : State} (h : exec .unpack s = .next t) : t = unpackEnd s (unpackResult s) :=
  Host.Outcome.next.inj (h.symm.trans (execUnpack_eq s))

/-- Past the header checks the scan of the payload decides. -/
theorem unpackResult_of_scan {s : State} (hin : s.ilen.toNat ≤ s.params.ibufCap) (hpos : 0 < s.ilen.toNat)
    (hheader : (ibufByte s 0).toNat ≤ bitsAfterHeader s) {out : List Byte} {left : Bits}
    (hscan : scanCodes s.ct [] (payload s) = (out, left)) :
    unpackResult s =
      if left = [] then if out.length ≤ s.params.obufCap then .ok out else .error .outputUnavailable
      else .error .malformedStream := by
  have hne : s.ilen ≠ 0 := fun hzero => by simp [hzero] at hpos
  rw [unpackResult, if_pos hin, if_neg hne, streamResult, if_pos hheader, hscan]

/-- UNPACK succeeds only where the scan of the whole payload leaves no candidate and its symbols fit. -/
theorem scan_of_unpackResult_ok {s : State} {out : List Byte} (h : unpackResult s = .ok out) :
    s.ilen.toNat ≤ s.params.ibufCap ∧ out.length ≤ s.params.obufCap ∧ scanCodes s.ct [] (payload s) = (out, []) := by
  unfold unpackResult streamResult at h
  split_ifs at h with hin hzero hheader hleft hfits
  obtain rfl := Except.ok.inj h
  exact ⟨hin, hfits, Prod.ext rfl hleft⟩

/-- The result reads the stripped bits nowhere (R134). -/
theorem unpackResult_congr {s s' : State} (hct : s.ct = s'.ct) (hparams : s.params = s'.params) (hilen : s.ilen = s'.ilen)
    (hheader : ibufByte s 0 = ibufByte s' 0) (hpayload : payload s = payload s') : unpackResult s = unpackResult s' := by
  rw [unpackResult, unpackResult, streamResult, streamResult, bitsAfterHeader, bitsAfterHeader, hct, hparams, hilen,
    hheader, hpayload]

/-- Where the payload is a concatenation of codes, only the size of the output decides. -/
theorem unpackResult_of_parse {s : State} (hok : TableOk s.ct) (hin : s.ilen.toNat ≤ s.params.ibufCap)
    (hpos : 0 < s.ilen.toNat) (hheader : (ibufByte s 0).toNat ≤ bitsAfterHeader s) {out : List Byte}
    (hcoded : AllCoded s.ct out) (hparse : payload s = out.flatMap (codeBits s.ct)) :
    unpackResult s = if out.length ≤ s.params.obufCap then .ok out else .error .outputUnavailable := by
  have hscan := scanCodes_flatMap_codeBits hok hcoded
  rw [← hparse] at hscan
  rw [unpackResult_of_scan hin hpos hheader hscan, if_pos rfl]

/-- An UNPACK that raises nothing has scanned its whole payload and written the symbols found. -/
theorem execUnpack_of_err_none {s t : State} (h : exec .unpack s = .next t) (herr : t.err = none) :
    ∃ out, s.ilen.toNat ≤ s.params.ibufCap ∧ out.length ≤ s.params.obufCap ∧
      scanCodes s.ct [] (payload s) = (out, []) ∧ t = complete (writeOutput s out (payloadLength s)) := by
  have ht := eq_unpackEnd h
  cases hresult : unpackResult s with
  | error kind =>
    rw [ht, hresult] at herr
    cases herr
  | ok out =>
    obtain ⟨hin, hfits, hscan⟩ := scan_of_unpackResult_ok hresult
    exact ⟨out, hin, hfits, hscan, by rw [ht, hresult, unpackEnd_ok]⟩

/-! ### the lengths written -/

/-- `OLEN` holds the number of bytes written without wrapping. -/
theorem olen_of_written {s : State} {bytes : List Byte} (n : Nat) (hlen : bytes.length < 2 ^ 32) :
    (complete (writeOutput s bytes n)).olen.toNat = bytes.length := by
  rw [complete_olen, writeOutput_olen, BitVec.toNat_ofNat, Nat.mod_eq_of_lt hlen]

/-- `TBITS` holds the payload's length without wrapping. -/
theorem tbits_of_unpacked {s : State} (hparams : s.params.wellFormed = true) (hin : s.ilen.toNat ≤ s.params.ibufCap)
    (out : List Byte) : (complete (writeOutput s out (payloadLength s))).tbits.toNat = payloadLength s := by
  have hcap := ibufCap_le_of_wellFormed hparams
  have hle := payloadLength_le s
  rw [complete_tbits, writeOutput_tbits, BitVec.toNat_ofNat, Nat.mod_eq_of_lt (by omega)]

/-! ### the statements -/

/-- Settles O35: the greedy scan finds the split there is (R76), and what it emits with no candidate left is a split, so
without one a candidate is left. -/
theorem unpackDecodesExactlyTheParsableStreams : Obligations.UnpackDecodesExactlyTheParsableStreams := by
  intro s hok hparams hin hpos hheader
  have hcap := obufCap_le_of_wellFormed hparams
  refine ⟨fun out hcoded hparse hfits => ?_, fun out hcoded hparse hbig => ?_, fun hnone => ?_⟩
  · have hresult := unpackResult_of_parse hok hin hpos hheader hcoded hparse
    rw [if_pos hfits] at hresult
    exact ⟨_, exec_unpack_of_result hresult, rfl, olen_of_written _ (by omega), tbits_of_unpacked hparams hin out,
      fun j => by simp [unpackEnd_ok]⟩
  · have hresult := unpackResult_of_parse hok hin hpos hheader hcoded hparse
    rw [if_neg (Nat.not_le.mpr hbig)] at hresult
    exact exec_unpack_of_result hresult
  · have hleft : (scanCodes s.ct [] (payload s)).2 ≠ [] := fun hempty => by
      obtain ⟨hcoded, hspell⟩ := scanCodes_spells (Prod.ext rfl hempty : scanCodes s.ct [] (payload s) = (_, []))
      exact hnone _ hcoded (by simpa using hspell)
    have hresult := unpackResult_of_scan hin hpos hheader rfl
    rw [if_neg hleft] at hresult
    exact exec_unpack_of_result hresult

/-- Settles O37: header, payload, table and parameters fix the result, and the result with the payload's length fixes the
output. -/
theorem strippedBitsAreNotExamined : Obligations.StrippedBitsAreNotExamined := by
  intro s s' t t' hct hparams hilen hheader hpayload herr hexec hexec'
  have hresult := unpackResult_congr hct hparams hilen hheader hpayload
  have hlength : payloadLength s = payloadLength s' := by rw [← payload_length, hpayload, payload_length]
  rw [eq_unpackEnd hexec, eq_unpackEnd hexec', ← hresult]
  cases unpackResult s with
  | error kind => exact ⟨rfl, rfl, rfl, rfl⟩
  | ok out => simp [unpackEnd_ok, hlength, herr]

/-- On the same input bytes and table, an UNPACK that raises nothing writes the same symbols and length (R135 (d)). -/
theorem unpack_eq_of_same_input {s s' t' : State} {out : List Byte} (hscan : scanCodes s.ct [] (payload s) = (out, []))
    (hct : s'.ct = s.ct) (hinput : inputBytes s' = inputBytes s) (hexec : exec .unpack s' = .next t')
    (herr : t'.err = none) : t' = complete (writeOutput s' out (payloadLength s)) := by
  obtain ⟨out', -, -, hscan', ht'⟩ := execUnpack_of_err_none hexec herr
  rw [hct, payload_eq_of_inputBytes hinput, hscan] at hscan'
  obtain rfl : out = out' := congrArg Prod.fst hscan'
  rw [ht', payloadLength_eq_of_inputBytes hinput]

/-- Settles O38: the scan's symbols spell the payload, each took a bit of it, and the payload is a function of the input
bytes. -/
theorem unpackResultProperties : Obligations.UnpackResultProperties := by
  intro s t hparams _ hexec herr
  have hcap := obufCap_le_of_wellFormed hparams
  have hle := payloadLength_le s
  have hframe := exec_frame hexec
  obtain ⟨hnode, hnnode, hroot⟩ := hframe.tree (by decide)
  obtain ⟨out, hin, hfits, hscan, ht⟩ := execUnpack_of_err_none hexec herr
  obtain ⟨hcoded, hspell⟩ := scanCodes_spells hscan
  have hlength : out.length ≤ payloadLength s := by simpa [hscan] using scanCodes_length_le s.ct [] (payload s)
  have houtput : outputBytes t = out := ht ▸ outputBytes_of_written _ (by omega)
  have holen : t.olen.toNat = out.length := ht ▸ olen_of_written _ (by omega)
  have htbits : t.tbits.toNat = payloadLength s := ht ▸ tbits_of_unpacked hparams hin out
  rw [houtput]
  refine ⟨⟨by simpa using hspell, by rw [htbits, payload_length]⟩, ⟨by omega, by omega⟩, hcoded, ?_,
    hframe.ibuf, hframe.ilen, hframe.ft (by decide), hnode, hnnode, hroot, hframe.ct (by decide)⟩
  intro s' t' hct hinput _ hexec' herr'
  rw [unpack_eq_of_same_input hscan hct hinput hexec' herr', ht]
  exact ⟨rfl, rfl, outputBytes_of_written _ (by omega)⟩

/-- Settles O36: these three checks come first, so no payload bit is looked at. -/
theorem unpackChecksLengthAndHeaderFirst : Obligations.UnpackChecksLengthAndHeaderFirst := by
  intro s
  refine ⟨fun hlong => ?_, fun hzero => ?_, fun hpos hin hheader => ?_⟩
  · have hresult : unpackResult s = .error .inputUnavailable := if_neg (Nat.not_le.mpr hlong)
    exact exec_unpack_of_result hresult
  · have hresult : unpackResult s = .error .malformedStream := by simp [unpackResult, hzero]
    exact exec_unpack_of_result hresult
  · have hresult : unpackResult s = .error .malformedStream := by
      rw [unpackResult, if_pos hin, streamResult, if_neg (Nat.not_le.mpr hheader), ite_self]
    exact exec_unpack_of_result hresult

end Sys2Proof.Machine
end

section
/-! CLRERR, and DECOMPRESS behind COMPRESS (45_control_and_sequences.md R140, R142, R143, R145). -/

namespace Sys2Proof.Machine

/-- Settles O39: CLRERR is the return from the fault state and the end of a command, with no test before them. -/
theorem clrerrClearsErrAlone : Obligations.ClrerrClearsErrAlone := fun _ => rfl

/-- The table COMPRESS leaves is one the hardware can hold. -/
theorem compress_tableOk {s a b g : State} (hpos : 1 ≤ s.ilen.toNat) (hin : s.ilen.toNat ≤ s.params.ibufCap)
    (ha : exec .analyze s = .next a) (hb : exec .build a = .next b) (hg : exec .gencodes b = .next g) : TableOk g.ct :=
  (codesArePrefixFree b g _ (treeShape_build (nsym_analyze_ne_zero hpos hin ha) hb) hg).1

/-- Settles O44: the commands before PACK leave it the written input, no fault and a legal table, and UNPACK returns what was
packed under a legal table (R145, the general form). -/
theorem decompressReturnsWhatWasCompressed : Obligations.DecompressReturnsWhatWasCompressed := by
  intro s a b g p u hparams herr hwritten hpos hin ha hb hg hp hperr huct huparams huerr huilen hmoved hpacked hout
  obtain ⟨hgparams, hgibuf, hgilen⟩ := compress_keeps_input ha hb hg
  have hinput : inputBytes g = inputBytes s := inputBytes_of_written hwritten hgibuf hgilen
  have hgerr : g.err = none := (compress_keeps_err hpos hin ha hb hg).trans herr
  have hpack := exec_frame hp
  have hct : u.ct = g.ct := huct.trans (hpack.ct (by decide))
  have hup : u.params = g.params := huparams.trans hpack.params
  have hfits : u.ilen.toNat ≤ u.params.ibufCap := by rwa [huilen, hup, hgparams]
  obtain ⟨v, hv, hverr, hvolen, -, hvout⟩ :=
    unpackReturnsWhatWasPacked g p u (hgparams ▸ hparams) (compress_tableOk hpos hin ha hb hg) hgerr hp hperr hct hup huilen
      hmoved hfits (by rwa [hgilen, hgparams])
  exact ⟨v, hv, hverr.trans huerr, hvolen.trans hgilen, hvout.trans hinput⟩

end Sys2Proof.Machine
end

section
/-! Faults: the words that raise IllegalCommand, the commands that raise InputUnavailable, and what a fault leaves; the idle core
(60_exceptions.md R151, R155, R157, R171). -/

namespace Sys2Proof.Machine

/-- Settles O7: with no act waiting, no event happens at the port. -/
theorem idleCoreKeepsAllState : Obligations.IdleCoreKeepsAllState := step_idle

/-! ### a faulting command (R150, R157) -/

/-- An unfaulted core's command that leaves a kind in `ERR` has raised it, and it is one of the command's own. -/
theorem eq_raise_of_err {i : Instr} {s t : State} {k : ErrorKind} (hnone : s.err = none) (h : exec i s = .next t)
    (hk : t.err = some k) : k ∈ raises i ∧ t = raise k (some i) s := by
  obtain ⟨k', hmem, rfl⟩ | ⟨u, hwrites, rfl⟩ := exec_raises_or_writes h
  · obtain rfl : k' = k := Option.some.inj hk
    exact ⟨hmem, rfl⟩
  · have hend : (complete u).err = none := by cases hwrites <;> simp [hnone]
    cases hend.symm.trans hk

/-- An illegal word written to an idle, unfaulted core raises IllegalCommand, and no unit runs (R155). -/
theorem step_illegal_word {s : State} {w : Word} {acts : List HostAct} (hin : s.inbox = .access (commandWrite w) :: acts)
    (hidle : s.busy = false) (herr : s.err = none) (hw : w.toNat = 0 ∨ 6 < w.toNat) :
    step s = .next { answered s acts writeDone with err := some .illegalCommand, draws := s.draws + 1 } := by
  obtain ⟨-, -, -, hillegal, -⟩ := commandIssueFollowsItsOrder s w acts hin
  exact hillegal hidle herr ((illegal_fields_iff w).mpr hw)

/-- Settles O46: a command that faults has raised one of its own kinds, and `raise` empties the command's own destination. -/
theorem faultEmptiesItsOwnDestination : Obligations.FaultEmptiesItsOwnDestination := by
  refine ⟨fun s t i k hnone h hk => ?_, fun s w acts => step_illegal_word⟩
  obtain ⟨hmem, rfl⟩ := eq_raise_of_err hnone h hk
  refine ⟨hmem, fun hi => hi ▸ rfl, fun hi => hi ▸ rfl, fun hi => hi ▸ rfl, ?_⟩
  rintro (rfl | rfl)
  · exact raise_pack k s
  · exact raise_unpack k s

/-! ### IllegalCommand (R155) -/

theorem illegalCommand_not_mem_raises (i : Instr) : .illegalCommand ∉ raises i := by cases i <;> decide

theorem accept_err (s : State) : (accept s).err = s.err := by
  obtain ⟨left, more, -, he⟩ := accept_eq s
  rw [he]

/-- Settles O6: a legal word runs a command, which raises its own kinds alone; a busy core drops the write, and a faulted one
keeps its error or clears it. -/
theorem illegalCommandExactlyOnIllegalWords : Obligations.IllegalCommandExactlyOnIllegalWords := by
  intro s w acts hin
  obtain ⟨hbusy, -, -, -, hlegal⟩ := commandIssueFollowsItsOrder s w acts hin
  rw [illegal_fields_iff] at hlegal
  refine ⟨step_illegal_word hin, fun hidle hnone hw t ht hill => ?_, fun hstop t ht => ?_⟩
  · obtain ⟨i, -, -, hruns, -⟩ := hlegal hidle hnone hw
    have haccept : (accept (answered s acts writeDone)).err = none := (accept_err _).trans hnone
    exact illegalCommand_not_mem_raises i (eq_raise_of_err haccept (hruns.symm.trans ht) hill).1
  · rcases hstop with hb | herr
    · cases (hbusy hb).symm.trans ht
      exact .inl rfl
    · obtain ⟨k, hk⟩ := Option.ne_none_iff_exists'.mp herr
      exact (firstErrorIsKept s t k hk ht).imp (·.trans hk.symm) And.left

/-! ### InputUnavailable (R151) -/

theorem inputAvailable_eq_false_iff (s : State) : inputAvailable s = false ↔ s.params.ibufCap < s.ilen.toNat := by
  simp [inputAvailable]

theorem analyze_err_inputUnavailable_iff {s t : State} (hnone : s.err = none) (h : exec .analyze s = .next t) :
    t.err = some .inputUnavailable ↔ inputAvailable s = false := by
  obtain ⟨havail, rfl⟩ | ⟨havail, rfl⟩ := execAnalyze_cases h <;> simp [havail, hnone]

theorem pack_err_inputUnavailable_iff {s t : State} (hnone : s.err = none) (h : exec .pack s = .next t) :
    t.err = some .inputUnavailable ↔ inputAvailable s = false := by
  obtain ⟨havail, rfl⟩ | ⟨havail, -, rfl⟩ | ⟨havail, -, bits, -, ⟨-, rfl⟩ | ⟨-, rfl⟩⟩ := execPack_cases h <;>
    simp [havail, hnone]

/-- Past its length check UNPACK raises other kinds only. -/
theorem unpackStream_err_ne_inputUnavailable {s : State} (hnone : s.err = none) (header : Byte) (rest : List Byte) :
    (unpackStream s header rest).err ≠ some .inputUnavailable := by
  obtain ⟨-, ht⟩ | ⟨-, n, out, cand, -, -, ⟨-, ht⟩ | ⟨-, -, ht⟩ | ⟨-, -, ht⟩⟩ := unpackStream_cases s header rest <;>
    simp [ht, hnone]

theorem unpack_err_inputUnavailable_iff {s t : State} (hnone : s.err = none) (h : exec .unpack s = .next t) :
    t.err = some .inputUnavailable ↔ inputAvailable s = false := by
  obtain ⟨havail, rfl⟩ | ⟨havail, -, rfl⟩ | ⟨havail, header, rest, -, rfl⟩ := execUnpack_cases h
  · simp [havail]
  · simp [havail]
  · simp [havail, unpackStream_err_ne_inputUnavailable hnone]

theorem inputUnavailable_mem_raises_iff (i : Instr) :
    .inputUnavailable ∈ raises i ↔ i = .analyze ∨ i = .pack ∨ i = .unpack := by cases i <;> decide

/-- Settles O45: the three commands that read the input look at its length first; to the others the kind is not their own. -/
theorem inputUnavailableExactlyWhenTooLong : Obligations.InputUnavailableExactlyWhenTooLong := by
  intro s t i hnone h
  rw [← inputAvailable_eq_false_iff]
  by_cases hi : i = .analyze ∨ i = .pack ∨ i = .unpack
  · rw [and_iff_right hi]
    rcases hi with rfl | rfl | rfl
    · exact analyze_err_inputUnavailable_iff hnone h
    · exact pack_err_inputUnavailable_iff hnone h
    · exact unpack_err_inputUnavailable_iff hnone h
  · refine iff_of_false (fun hk => hi ?_) fun hboth => hi hboth.1
    exact (inputUnavailable_mem_raises_iff i).mp (eq_raise_of_err hnone h hk).1

end Sys2Proof.Machine
end

section
/-! Transfers while `BUSY` = 1: met by a step, and met inside a command's step (70_reset_and_hazards.md R186). -/

namespace Sys2Proof.Machine

/-! ### the answer of a busy core -/

theorem busyAnswer_of_legal_write {s : State} {t : Transfer} (hwrite : t.write = true) (hlegal : LegalAccess s.params t) :
    busyAnswer s t = writeDone := by
  obtain ⟨l, hl, hwritable⟩ := (legalAccess_iff s.params t).mp hlegal
  simp [busyAnswer, hl, hwrite, hwritable hwrite, writeDone]

theorem locate_status {p : Params} {t : Transfer} (hword : t.word = true) (haddr : t.addr = 0x08) :
    locate p t = some (.reg 2) := by
  simp [locate, wordLocation, hword, haddr]

theorem busyAnswer_of_status_read {s : State} {t : Transfer} (hread : t.write = false) (hword : t.word = true)
    (haddr : t.addr = 0x08) : ∃ v, busyAnswer s t = readData v ∧ v.getLsbD 0 = true :=
  ⟨Config.freeBusyWord s.draws s.answers.length ||| 1, by simp [busyAnswer, locate_status hword haddr, hread], by simp⟩

theorem busyAnswer_rdata_of_write (s : State) {t : Transfer} (hwrite : t.write = true) : (busyAnswer s t).rdata = none := by
  unfold busyAnswer
  rw [hwrite]
  split <;> rfl

/-- The writes R186 names are the legal ones; data is returned to reads alone. -/
theorem busyAnswered_busyAnswer (s : State) (t : Transfer) : BusyAnswered s.params t (busyAnswer s t) where
  cmdOrIlen hwrite hword haddr := busyAnswer_of_legal_write hwrite
    (.inl ⟨hword, haddr.imp (congrArg BitVec.toNat) (congrArg BitVec.toNat)⟩)
  ibuf hwrite hword hlow hhigh := busyAnswer_of_legal_write hwrite (.inr (.inr (.inl ⟨hword, hlow, hhigh⟩)))
  status := busyAnswer_of_status_read
  data := by
    cases hw : t.write with
    | true => rw [busyAnswer_rdata_of_write s hw]; rfl
    | false =>
      obtain ⟨e, v, ha⟩ := busyAnswer_of_read s hw
      rw [ha]; rfl

/-- Settles O9: the step of a busy core is the answer alone. -/
theorem busyCoreDropsWrites : Obligations.BusyCoreDropsWrites := fun s t acts hin hbusy =>
  ⟨busyAnswer { s with inbox := acts, answers := [] } t, step_transfer_busy s t acts hin hbusy,
    busyAnswered_busyAnswer { s with inbox := acts, answers := [] } t⟩

/-! ### early transfers inside a command -/

/-- The early transfers that meet the busy core are a first part of the waiting acts, each answered as R186 has it. -/
theorem serveEarly_answers (acts : List HostAct) (n : Nat) (s : State) (hin : s.inbox = acts) :
    ∃ served left more, acts = served ++ left ∧
      List.Forall₂ (fun act a => ∃ t, act = .early t ∧ BusyAnswered s.params t a) served more ∧
      serveEarly acts n s = { s with inbox := left, answers := s.answers ++ more } := by
  fun_induction serveEarly acts n s with
  | case1 t acts n s ih =>
    obtain ⟨served, left, more, rfl, hserved, he⟩ := ih rfl
    refine ⟨.early t :: served, left, busyAnswer { s with inbox := served ++ left } t :: more, rfl,
      .cons ⟨t, rfl, busyAnswered_busyAnswer { s with inbox := served ++ left } t⟩ hserved, ?_⟩
    rw [he]
    simp [busyAccess, answer]
  | case2 acts n s => exact ⟨[], acts, [], rfl, .nil, by simp [← hin]⟩

/-- Settles O8: the accepted command runs at the state in which some early transfers are taken and answered. -/
theorem earlyTransfersLeaveTheCommandAlone : Obligations.EarlyTransfersLeaveTheCommandAlone := by
  intro s w i acts hin hidle herr hdec
  have hruns : step s = exec i (accept (answered s acts writeDone)) :=
    (stepRunsTheDecodedCommand.1 s w i acts hin hidle herr hdec).1
  obtain ⟨served, left, more, hacts, hserved, haccept⟩ :=
    serveEarly_answers acts (Config.cmdLatency s.draws) { answered s acts writeDone with busy := true } rfl
  exact ⟨served, left, more, hacts, hserved, hruns.trans (congrArg (exec i) haccept)⟩

end Sys2Proof.Machine
end
